-- ==== Sys2Proof/Word.lean ====
section
/-! DEFINITION. The two word sizes of the core (00_scope.md R7): 8-bit data and 16-bit addresses. -/

namespace Sys2Proof

/-- A byte: the width of `A`, `X`, `Y`, `SP`, `P` and of every bus transfer (R7, R20). -/
abbrev Byte := BitVec 8

/-- A 16-bit value: the width of `PC` and of every bus address (R7, R20). -/
abbrev Word := BitVec 16

end Sys2Proof
end

