-- ==== Sys2Proof/Config.lean ====
section
/-! DEFINITION. What 00_scope.md R8 leaves to an implementation or to the platform: the choices a parameter ranges over, and
the two values the spec leaves free. The chosen values are data (`Machine.Params`), so that a statement can hold for all. -/

namespace Sys2Proof

/-- `P_EA_READ` (R111): does a memory-mode resolver read the byte at the effective address for every mnemonic (`always`),
or does the executor that uses the byte read it (`onUse`)? -/
inductive EaRead where
  | always
  | onUse
  deriving DecidableEq, Repr

/-- `P_INDX_HIGH` (R109, R113): the high byte of the (indirect,X) effective address, zero or drawn at every execution. -/
inductive IndxHigh where
  | zero
  | draw
  deriving DecidableEq, Repr

/-- `P_INDY_PTR` (R110, R114): how many pointer bytes (indirect),Y reads from zero page. -/
inductive IndyPtr where
  | one
  | two
  deriving DecidableEq, Repr

/-- `P_SBC_V` (R154): the operand of SBC's overflow formula, as fetched or complemented. -/
inductive SbcV where
  | literal
  | complement
  deriving DecidableEq, Repr

/-- One transaction of the bus port (10_state.md R39): a read with the byte the bus gave, or a write. -/
inductive BusAccess where
  | read (addr : Word) (value : Byte)
  | write (addr : Word) (value : Byte)
  deriving DecidableEq, Repr

/-- How a banked window of the bus is switched: the byte that storage cell `latch` holds is the number of the bank of `size`
cells that the window shows. -/
structure BankSwitch where
  latch : Nat
  size  : Nat
  deriving DecidableEq, Repr

/-- What answers behind a window of the bus ("flat array, memory-mapped devices, ROM banking", 20_memory.md R58). -/
inductive BusTarget where
  /-- Storage: cell `base` plus the masked offset into the window, plus the bank's cells where the window is banked. A mask
  that drops high bits repeats the cells (a mirror); the mask 0 makes the whole window one cell (a latch). -/
  | storage (base : Nat) (mask : Word) (bank : Option BankSwitch)
  /-- Nothing (93_implementation_defined.md U5): a read gives the open-bus value, a write changes nothing (ROM, for a write). -/
  | nothing (value : Byte)
  /-- The device of this number: a read gives any byte (U5), which may depend on every earlier transaction. -/
  | device (number : Nat)
  deriving DecidableEq, Repr

/-- A window of the bus: the addresses `first` to `last`, both included, and what answers behind them. -/
structure BusWindow where
  first  : Word
  last   : Word
  target : BusTarget
  deriving DecidableEq, Repr

/-- FREE VALUE (U5 "any value"; log entry 4): what the device of this number answers to a read of this address, after these bus
transactions, newest first. As a function of all that the device has seen it is any total read function at all. -/
opaque Config.deviceByte : Nat → List BusAccess → Word → Byte

/-- FREE VALUE (R113; log entry 4): the high byte that `P_INDX_HIGH = draw` gives, by the bus transactions so far. -/
opaque Config.indxHighByte : List BusAccess → Byte

end Sys2Proof
end

