-- ==== Sys2Proof/Syntax.lean ====
section
/-! DEFINITION. The instruction set as syntax: the ten addressing modes, the 38 mnemonics, the descriptor a decode-table entry
holds (30_encoding.md R73), and `Instr`, one constructor for each of the 82 opcodes of R75. -/

namespace Sys2Proof

/-- The ten addressing modes (41_addressing_modes.md R100, R115). -/
inductive Mode where
  | implied
  | immediate
  | relative
  | zeropage
  | zeropageX
  | absolute
  | absoluteX
  | absoluteY
  | indirectX
  | indirectY
  deriving DecidableEq, Repr

/-- The 38 mnemonics (R75), one executor each (R76). -/
inductive Mnemonic where
  | lda | ldx | ldy | sta | stx | sty | tax | txa
  | tay | tya | inx | iny | and | adc | sbc | clc
  | sec | cli | sei | clv | cld | sed | bpl | bmi
  | bvc | bvs | bcc | bcs | bne | beq | jmp | jsr
  | rts | pha | php | pla | plp | nop
  deriving DecidableEq, Repr

/-- A registered entry of the decode table (R73): the resolver (by its mode) and the executor (by its mnemonic). -/
structure Descriptor where
  mode     : Mode
  mnemonic : Mnemonic
  deriving DecidableEq, Repr

/-- The decode table (10_state.md R34, R73): 256 entries, laid out as R75 prints them, 16 rows (the high nibble of the opcode
byte) of 16 columns (its low nibble); `none` is the invalid sentinel. -/
abbrev DecodeTable := List (List (Option Descriptor))

/-- The instructions: one constructor per row of the opcode table. `op8` is the operand byte of Format II, `lo` and `hi`
the operand bytes of Format III in fetch order (R71). -/
inductive Instr where
  /-- LDA, immediate: opcode `A9` (R130). -/
  | ldaImm (op8 : Byte)
  /-- LDA, zeropage: opcode `A5` (R130). -/
  | ldaZp (op8 : Byte)
  /-- LDA, zeropage,X: opcode `B5` (R130). -/
  | ldaZpx (op8 : Byte)
  /-- LDA, absolute: opcode `AD` (R130). -/
  | ldaAbs (lo hi : Byte)
  /-- LDA, absolute,X: opcode `BD` (R130). -/
  | ldaAbx (lo hi : Byte)
  /-- LDA, absolute,Y: opcode `B9` (R130). -/
  | ldaAby (lo hi : Byte)
  /-- LDA, (indirect,X): opcode `A1` (R130). -/
  | ldaIzx (op8 : Byte)
  /-- LDA, (indirect),Y: opcode `B1` (R130). -/
  | ldaIzy (op8 : Byte)
  /-- LDX, immediate: opcode `A2` (R131). -/
  | ldxImm (op8 : Byte)
  /-- LDX, zeropage: opcode `A6` (R131). -/
  | ldxZp (op8 : Byte)
  /-- LDX, absolute: opcode `AE` (R131). -/
  | ldxAbs (lo hi : Byte)
  /-- LDX, absolute,Y: opcode `BE` (R131). -/
  | ldxAby (lo hi : Byte)
  /-- LDY, immediate: opcode `A0` (R132). -/
  | ldyImm (op8 : Byte)
  /-- LDY, zeropage: opcode `A4` (R132). -/
  | ldyZp (op8 : Byte)
  /-- LDY, zeropage,X: opcode `B4` (R132). -/
  | ldyZpx (op8 : Byte)
  /-- LDY, absolute: opcode `AC` (R132). -/
  | ldyAbs (lo hi : Byte)
  /-- LDY, absolute,X: opcode `BC` (R132). -/
  | ldyAbx (lo hi : Byte)
  /-- STA, zeropage: opcode `85` (R133). -/
  | staZp (op8 : Byte)
  /-- STA, zeropage,X: opcode `95` (R133). -/
  | staZpx (op8 : Byte)
  /-- STA, absolute: opcode `8D` (R133). -/
  | staAbs (lo hi : Byte)
  /-- STA, absolute,X: opcode `9D` (R133). -/
  | staAbx (lo hi : Byte)
  /-- STA, absolute,Y: opcode `99` (R133). -/
  | staAby (lo hi : Byte)
  /-- STA, (indirect,X): opcode `81` (R133). -/
  | staIzx (op8 : Byte)
  /-- STA, (indirect),Y: opcode `91` (R133). -/
  | staIzy (op8 : Byte)
  /-- STX, zeropage: opcode `86` (R134). -/
  | stxZp (op8 : Byte)
  /-- STX, absolute: opcode `8E` (R134). -/
  | stxAbs (lo hi : Byte)
  /-- STY, zeropage: opcode `84` (R135). -/
  | styZp (op8 : Byte)
  /-- STY, zeropage,X: opcode `94` (R135). -/
  | styZpx (op8 : Byte)
  /-- STY, absolute: opcode `8C` (R135). -/
  | styAbs (lo hi : Byte)
  /-- TAX, implied: opcode `AA` (R136). -/
  | tax
  /-- TXA, implied: opcode `8A` (R137). -/
  | txa
  /-- TAY, implied: opcode `A8` (R138). -/
  | tay
  /-- TYA, implied: opcode `98` (R139). -/
  | tya
  /-- INX, implied: opcode `E8` (R150). -/
  | inx
  /-- INY, implied: opcode `C8` (R151). -/
  | iny
  /-- AND, immediate: opcode `29` (R152). -/
  | andImm (op8 : Byte)
  /-- AND, zeropage: opcode `25` (R152). -/
  | andZp (op8 : Byte)
  /-- AND, zeropage,X: opcode `35` (R152). -/
  | andZpx (op8 : Byte)
  /-- AND, absolute: opcode `2D` (R152). -/
  | andAbs (lo hi : Byte)
  /-- AND, absolute,X: opcode `3D` (R152). -/
  | andAbx (lo hi : Byte)
  /-- AND, absolute,Y: opcode `39` (R152). -/
  | andAby (lo hi : Byte)
  /-- AND, (indirect,X): opcode `21` (R152). -/
  | andIzx (op8 : Byte)
  /-- AND, (indirect),Y: opcode `31` (R152). -/
  | andIzy (op8 : Byte)
  /-- ADC, immediate: opcode `69` (R153). -/
  | adcImm (op8 : Byte)
  /-- ADC, zeropage: opcode `65` (R153). -/
  | adcZp (op8 : Byte)
  /-- ADC, zeropage,X: opcode `75` (R153). -/
  | adcZpx (op8 : Byte)
  /-- ADC, absolute: opcode `6D` (R153). -/
  | adcAbs (lo hi : Byte)
  /-- ADC, absolute,X: opcode `7D` (R153). -/
  | adcAbx (lo hi : Byte)
  /-- ADC, absolute,Y: opcode `79` (R153). -/
  | adcAby (lo hi : Byte)
  /-- ADC, (indirect,X): opcode `61` (R153). -/
  | adcIzx (op8 : Byte)
  /-- ADC, (indirect),Y: opcode `71` (R153). -/
  | adcIzy (op8 : Byte)
  /-- SBC, immediate: opcode `E9` (R154). -/
  | sbcImm (op8 : Byte)
  /-- SBC, zeropage: opcode `E5` (R154). -/
  | sbcZp (op8 : Byte)
  /-- SBC, zeropage,X: opcode `F5` (R154). -/
  | sbcZpx (op8 : Byte)
  /-- SBC, absolute: opcode `ED` (R154). -/
  | sbcAbs (lo hi : Byte)
  /-- SBC, absolute,X: opcode `FD` (R154). -/
  | sbcAbx (lo hi : Byte)
  /-- SBC, absolute,Y: opcode `F9` (R154). -/
  | sbcAby (lo hi : Byte)
  /-- SBC, (indirect,X): opcode `E1` (R154). -/
  | sbcIzx (op8 : Byte)
  /-- SBC, (indirect),Y: opcode `F1` (R154). -/
  | sbcIzy (op8 : Byte)
  /-- CLC, implied: opcode `18` (R170). -/
  | clc
  /-- SEC, implied: opcode `38` (R171). -/
  | sec
  /-- CLI, implied: opcode `58` (R172). -/
  | cli
  /-- SEI, implied: opcode `78` (R173). -/
  | sei
  /-- CLV, implied: opcode `B8` (R174). -/
  | clv
  /-- CLD, implied: opcode `D8` (R175). -/
  | cld
  /-- SED, implied: opcode `F8` (R176). -/
  | sed
  /-- BPL, relative: opcode `10` (R178). -/
  | bpl (op8 : Byte)
  /-- BMI, relative: opcode `30` (R179). -/
  | bmi (op8 : Byte)
  /-- BVC, relative: opcode `50` (R180). -/
  | bvc (op8 : Byte)
  /-- BVS, relative: opcode `70` (R181). -/
  | bvs (op8 : Byte)
  /-- BCC, relative: opcode `90` (R182). -/
  | bcc (op8 : Byte)
  /-- BCS, relative: opcode `B0` (R183). -/
  | bcs (op8 : Byte)
  /-- BNE, relative: opcode `D0` (R184). -/
  | bne (op8 : Byte)
  /-- BEQ, relative: opcode `F0` (R185). -/
  | beq (op8 : Byte)
  /-- JMP, absolute: opcode `4C` (R192). -/
  | jmp (lo hi : Byte)
  /-- JSR, absolute: opcode `20` (R193). -/
  | jsr (lo hi : Byte)
  /-- RTS, implied: opcode `60` (R194). -/
  | rts
  /-- PHA, implied: opcode `48` (R195). -/
  | pha
  /-- PHP, implied: opcode `08` (R196). -/
  | php
  /-- PLA, implied: opcode `68` (R197). -/
  | pla
  /-- PLP, implied: opcode `28` (R198). -/
  | plp
  /-- NOP, implied: opcode `EA` (R199). -/
  | nop
  deriving DecidableEq, Repr

end Sys2Proof
end

