-- ==== Sys2Proof/Decode.lean ====
section
/-! DEFINITION. Decoding and encoding (30_encoding.md): the default decode table of R75 and its construction (R74), operand
byte counts (R71), a decoder total on any bytes that rejects by name, and the encoder written from R75's per-mnemonic list. -/

namespace Sys2Proof

/-- The mnemonic of an instruction: it selects the executor (R76). -/
def Instr.mnemonic : Instr → Mnemonic
  | .ldaImm _ | .ldaZp _ | .ldaZpx _ | .ldaAbs _ _ | .ldaAbx _ _ | .ldaAby _ _ | .ldaIzx _ | .ldaIzy _ => .lda
  | .ldxImm _ | .ldxZp _ | .ldxAbs _ _ | .ldxAby _ _ => .ldx
  | .ldyImm _ | .ldyZp _ | .ldyZpx _ | .ldyAbs _ _ | .ldyAbx _ _ => .ldy
  | .staZp _ | .staZpx _ | .staAbs _ _ | .staAbx _ _ | .staAby _ _ | .staIzx _ | .staIzy _ => .sta
  | .stxZp _ | .stxAbs _ _ => .stx
  | .styZp _ | .styZpx _ | .styAbs _ _ => .sty
  | .tax => .tax
  | .txa => .txa
  | .tay => .tay
  | .tya => .tya
  | .inx => .inx
  | .iny => .iny
  | .andImm _ | .andZp _ | .andZpx _ | .andAbs _ _ | .andAbx _ _ | .andAby _ _ | .andIzx _ | .andIzy _ => .and
  | .adcImm _ | .adcZp _ | .adcZpx _ | .adcAbs _ _ | .adcAbx _ _ | .adcAby _ _ | .adcIzx _ | .adcIzy _ => .adc
  | .sbcImm _ | .sbcZp _ | .sbcZpx _ | .sbcAbs _ _ | .sbcAbx _ _ | .sbcAby _ _ | .sbcIzx _ | .sbcIzy _ => .sbc
  | .clc => .clc
  | .sec => .sec
  | .cli => .cli
  | .sei => .sei
  | .clv => .clv
  | .cld => .cld
  | .sed => .sed
  | .bpl _ => .bpl
  | .bmi _ => .bmi
  | .bvc _ => .bvc
  | .bvs _ => .bvs
  | .bcc _ => .bcc
  | .bcs _ => .bcs
  | .bne _ => .bne
  | .beq _ => .beq
  | .jmp _ _ => .jmp
  | .jsr _ _ => .jsr
  | .rts => .rts
  | .pha => .pha
  | .php => .php
  | .pla => .pla
  | .plp => .plp
  | .nop => .nop

/-- The addressing mode of an instruction: it selects the resolver (R76). -/
def Instr.mode : Instr → Mode
  | .ldaImm _ | .ldxImm _ | .ldyImm _ | .andImm _ | .adcImm _ | .sbcImm _ => .immediate
  | .ldaZp _ | .ldxZp _ | .ldyZp _ | .staZp _ | .stxZp _ | .styZp _ | .andZp _ | .adcZp _ | .sbcZp _ => .zeropage
  | .ldaZpx _ | .ldyZpx _ | .staZpx _ | .styZpx _ | .andZpx _ | .adcZpx _ | .sbcZpx _ => .zeropageX
  | .ldaAbs _ _ | .ldxAbs _ _ | .ldyAbs _ _ | .staAbs _ _ | .stxAbs _ _ | .styAbs _ _ | .andAbs _ _ | .adcAbs _ _
  | .sbcAbs _ _ | .jmp _ _ | .jsr _ _ => .absolute
  | .ldaAbx _ _ | .ldyAbx _ _ | .staAbx _ _ | .andAbx _ _ | .adcAbx _ _ | .sbcAbx _ _ => .absoluteX
  | .ldaAby _ _ | .ldxAby _ _ | .staAby _ _ | .andAby _ _ | .adcAby _ _ | .sbcAby _ _ => .absoluteY
  | .ldaIzx _ | .staIzx _ | .andIzx _ | .adcIzx _ | .sbcIzx _ => .indirectX
  | .ldaIzy _ | .staIzy _ | .andIzy _ | .adcIzy _ | .sbcIzy _ => .indirectY
  | .tax | .txa | .tay | .tya | .inx | .iny | .clc | .sec | .cli | .sei | .clv | .cld | .sed | .rts | .pha | .php
  | .pla | .plp | .nop => .implied
  | .bpl _ | .bmi _ | .bvc _ | .bvs _ | .bcc _ | .bcs _ | .bne _ | .beq _ => .relative

/-- The operand bytes of an instruction in fetch order (R71). -/
def Instr.operands : Instr → List Byte
  | .tax | .txa | .tay | .tya | .inx | .iny | .clc | .sec | .cli | .sei | .clv | .cld | .sed | .rts | .pha
  | .php | .pla | .plp | .nop => []
  | .ldaImm op8 | .ldaZp op8 | .ldaZpx op8 | .ldaIzx op8 | .ldaIzy op8 | .ldxImm op8 | .ldxZp op8
  | .ldyImm op8 | .ldyZp op8 | .ldyZpx op8 | .staZp op8 | .staZpx op8 | .staIzx op8 | .staIzy op8 | .stxZp op8
  | .styZp op8 | .styZpx op8 | .andImm op8 | .andZp op8 | .andZpx op8 | .andIzx op8 | .andIzy op8
  | .adcImm op8 | .adcZp op8 | .adcZpx op8 | .adcIzx op8 | .adcIzy op8 | .sbcImm op8 | .sbcZp op8
  | .sbcZpx op8 | .sbcIzx op8 | .sbcIzy op8 | .bpl op8 | .bmi op8 | .bvc op8 | .bvs op8 | .bcc op8 | .bcs op8
  | .bne op8 | .beq op8 => [op8]
  | .ldaAbs lo hi | .ldaAbx lo hi | .ldaAby lo hi | .ldxAbs lo hi | .ldxAby lo hi | .ldyAbs lo hi
  | .ldyAbx lo hi | .staAbs lo hi | .staAbx lo hi | .staAby lo hi | .stxAbs lo hi | .styAbs lo hi
  | .andAbs lo hi | .andAbx lo hi | .andAby lo hi | .adcAbs lo hi | .adcAbx lo hi | .adcAby lo hi
  | .sbcAbs lo hi | .sbcAbx lo hi | .sbcAby lo hi | .jmp lo hi | .jsr lo hi => [lo, hi]

/-- The descriptor an instruction is an occurrence of. -/
def Instr.descriptor (i : Instr) : Descriptor := ⟨i.mode, i.mnemonic⟩

/-- The first operand byte (`op8` or `lo`), 0 where the format has none. -/
def Instr.lo (i : Instr) : Byte := i.operands.getD 0 0

/-- The second operand byte (`hi`), 0 where the format has none. -/
def Instr.hi (i : Instr) : Byte := i.operands.getD 1 0

/-- How many operand bytes follow the opcode byte in each mode (R71). -/
def Mode.operandBytes : Mode → Nat
  | .implied => 0
  | .immediate | .relative | .zeropage | .zeropageX | .indirectX | .indirectY => 1
  | .absolute | .absoluteX | .absoluteY => 2

/-- The instruction a descriptor and its operand bytes make: the 82 pairs of mnemonic and mode of R75. -/
def assemble (d : Descriptor) (lo hi : Byte) : Option Instr :=
  match d.mnemonic, d.mode with
  | .lda, .immediate => some (.ldaImm lo)
  | .lda, .zeropage => some (.ldaZp lo)
  | .lda, .zeropageX => some (.ldaZpx lo)
  | .lda, .absolute => some (.ldaAbs lo hi)
  | .lda, .absoluteX => some (.ldaAbx lo hi)
  | .lda, .absoluteY => some (.ldaAby lo hi)
  | .lda, .indirectX => some (.ldaIzx lo)
  | .lda, .indirectY => some (.ldaIzy lo)
  | .ldx, .immediate => some (.ldxImm lo)
  | .ldx, .zeropage => some (.ldxZp lo)
  | .ldx, .absolute => some (.ldxAbs lo hi)
  | .ldx, .absoluteY => some (.ldxAby lo hi)
  | .ldy, .immediate => some (.ldyImm lo)
  | .ldy, .zeropage => some (.ldyZp lo)
  | .ldy, .zeropageX => some (.ldyZpx lo)
  | .ldy, .absolute => some (.ldyAbs lo hi)
  | .ldy, .absoluteX => some (.ldyAbx lo hi)
  | .sta, .zeropage => some (.staZp lo)
  | .sta, .zeropageX => some (.staZpx lo)
  | .sta, .absolute => some (.staAbs lo hi)
  | .sta, .absoluteX => some (.staAbx lo hi)
  | .sta, .absoluteY => some (.staAby lo hi)
  | .sta, .indirectX => some (.staIzx lo)
  | .sta, .indirectY => some (.staIzy lo)
  | .stx, .zeropage => some (.stxZp lo)
  | .stx, .absolute => some (.stxAbs lo hi)
  | .sty, .zeropage => some (.styZp lo)
  | .sty, .zeropageX => some (.styZpx lo)
  | .sty, .absolute => some (.styAbs lo hi)
  | .tax, .implied => some .tax
  | .txa, .implied => some .txa
  | .tay, .implied => some .tay
  | .tya, .implied => some .tya
  | .inx, .implied => some .inx
  | .iny, .implied => some .iny
  | .and, .immediate => some (.andImm lo)
  | .and, .zeropage => some (.andZp lo)
  | .and, .zeropageX => some (.andZpx lo)
  | .and, .absolute => some (.andAbs lo hi)
  | .and, .absoluteX => some (.andAbx lo hi)
  | .and, .absoluteY => some (.andAby lo hi)
  | .and, .indirectX => some (.andIzx lo)
  | .and, .indirectY => some (.andIzy lo)
  | .adc, .immediate => some (.adcImm lo)
  | .adc, .zeropage => some (.adcZp lo)
  | .adc, .zeropageX => some (.adcZpx lo)
  | .adc, .absolute => some (.adcAbs lo hi)
  | .adc, .absoluteX => some (.adcAbx lo hi)
  | .adc, .absoluteY => some (.adcAby lo hi)
  | .adc, .indirectX => some (.adcIzx lo)
  | .adc, .indirectY => some (.adcIzy lo)
  | .sbc, .immediate => some (.sbcImm lo)
  | .sbc, .zeropage => some (.sbcZp lo)
  | .sbc, .zeropageX => some (.sbcZpx lo)
  | .sbc, .absolute => some (.sbcAbs lo hi)
  | .sbc, .absoluteX => some (.sbcAbx lo hi)
  | .sbc, .absoluteY => some (.sbcAby lo hi)
  | .sbc, .indirectX => some (.sbcIzx lo)
  | .sbc, .indirectY => some (.sbcIzy lo)
  | .clc, .implied => some .clc
  | .sec, .implied => some .sec
  | .cli, .implied => some .cli
  | .sei, .implied => some .sei
  | .clv, .implied => some .clv
  | .cld, .implied => some .cld
  | .sed, .implied => some .sed
  | .bpl, .relative => some (.bpl lo)
  | .bmi, .relative => some (.bmi lo)
  | .bvc, .relative => some (.bvc lo)
  | .bvs, .relative => some (.bvs lo)
  | .bcc, .relative => some (.bcc lo)
  | .bcs, .relative => some (.bcs lo)
  | .bne, .relative => some (.bne lo)
  | .beq, .relative => some (.beq lo)
  | .jmp, .absolute => some (.jmp lo hi)
  | .jsr, .absolute => some (.jsr lo hi)
  | .rts, .implied => some .rts
  | .pha, .implied => some .pha
  | .php, .implied => some .php
  | .pla, .implied => some .pla
  | .plp, .implied => some .plp
  | .nop, .implied => some .nop
  | _, _ => none

/-! ## The decode table -/

/-- The descriptor registered for an opcode byte, `none` for the invalid sentinel: one table index by the whole byte (R73). -/
def DecodeTable.lookup (t : DecodeTable) (op : Byte) : Option Descriptor :=
  (t.getD (op.toNat / 16) []).getD (op.toNat % 16) none

/-- `register` (R74): binds one byte; "last registration for a given byte wins". -/
def DecodeTable.register (t : DecodeTable) (op : Byte) (d : Descriptor) : DecodeTable :=
  t.set (op.toNat / 16) ((t.getD (op.toNat / 16) []).set (op.toNat % 16) (some d))

/-- The table before any registration: all 256 slots hold the invalid sentinel (R74). -/
def DecodeTable.empty : DecodeTable := List.replicate 16 (List.replicate 16 none)

/-- The table construction builds from a list of registrations in order (R74, R250 steps 3 and 4). -/
def DecodeTable.construct (rs : List (Byte × Descriptor)) : DecodeTable :=
  rs.foldl (fun t r => t.register r.1 r.2) DecodeTable.empty

/-- A registered entry of a table row. -/
def entry (m : Mnemonic) (mode : Mode) : Option Descriptor := some ⟨mode, m⟩

/-- Row 0 of R75's table. -/
def decodeRow0 : List (Option Descriptor) :=
  [none, none, none, none, none, none, none, none, entry .php .implied, none, none, none, none, none, none, none]

/-- Row 1 of R75's table. -/
def decodeRow1 : List (Option Descriptor) :=
  [entry .bpl .relative, none, none, none, none, none, none, none, entry .clc .implied, none, none, none, none,
   none, none, none]

/-- Row 2 of R75's table. -/
def decodeRow2 : List (Option Descriptor) :=
  [entry .jsr .absolute, entry .and .indirectX, none, none, none, entry .and .zeropage, none, none,
   entry .plp .implied, entry .and .immediate, none, none, none, entry .and .absolute, none, none]

/-- Row 3 of R75's table. -/
def decodeRow3 : List (Option Descriptor) :=
  [entry .bmi .relative, entry .and .indirectY, none, none, none, entry .and .zeropageX, none, none,
   entry .sec .implied, entry .and .absoluteY, none, none, none, entry .and .absoluteX, none, none]

/-- Row 4 of R75's table. -/
def decodeRow4 : List (Option Descriptor) :=
  [none, none, none, none, none, none, none, none, entry .pha .implied, none, none, none, entry .jmp .absolute,
   none, none, none]

/-- Row 5 of R75's table. -/
def decodeRow5 : List (Option Descriptor) :=
  [entry .bvc .relative, none, none, none, none, none, none, none, entry .cli .implied, none, none, none, none,
   none, none, none]

/-- Row 6 of R75's table. -/
def decodeRow6 : List (Option Descriptor) :=
  [entry .rts .implied, entry .adc .indirectX, none, none, none, entry .adc .zeropage, none, none,
   entry .pla .implied, entry .adc .immediate, none, none, none, entry .adc .absolute, none, none]

/-- Row 7 of R75's table. -/
def decodeRow7 : List (Option Descriptor) :=
  [entry .bvs .relative, entry .adc .indirectY, none, none, none, entry .adc .zeropageX, none, none,
   entry .sei .implied, entry .adc .absoluteY, none, none, none, entry .adc .absoluteX, none, none]

/-- Row 8 of R75's table. -/
def decodeRow8 : List (Option Descriptor) :=
  [none, entry .sta .indirectX, none, none, entry .sty .zeropage, entry .sta .zeropage, entry .stx .zeropage, none,
   none, none, entry .txa .implied, none, entry .sty .absolute, entry .sta .absolute, entry .stx .absolute, none]

/-- Row 9 of R75's table. -/
def decodeRow9 : List (Option Descriptor) :=
  [entry .bcc .relative, entry .sta .indirectY, none, none, entry .sty .zeropageX, entry .sta .zeropageX, none,
   none, entry .tya .implied, entry .sta .absoluteY, none, none, none, entry .sta .absoluteX, none, none]

/-- Row A of R75's table. -/
def decodeRowA : List (Option Descriptor) :=
  [entry .ldy .immediate, entry .lda .indirectX, entry .ldx .immediate, none, entry .ldy .zeropage,
   entry .lda .zeropage, entry .ldx .zeropage, none, entry .tay .implied, entry .lda .immediate,
   entry .tax .implied, none, entry .ldy .absolute, entry .lda .absolute, entry .ldx .absolute, none]

/-- Row B of R75's table. -/
def decodeRowB : List (Option Descriptor) :=
  [entry .bcs .relative, entry .lda .indirectY, none, none, entry .ldy .zeropageX, entry .lda .zeropageX, none,
   none, entry .clv .implied, entry .lda .absoluteY, none, none, entry .ldy .absoluteX, entry .lda .absoluteX,
   entry .ldx .absoluteY, none]

/-- Row C of R75's table. -/
def decodeRowC : List (Option Descriptor) :=
  [none, none, none, none, none, none, none, none, entry .iny .implied, none, none, none, none, none, none, none]

/-- Row D of R75's table. -/
def decodeRowD : List (Option Descriptor) :=
  [entry .bne .relative, none, none, none, none, none, none, none, entry .cld .implied, none, none, none, none,
   none, none, none]

/-- Row E of R75's table. -/
def decodeRowE : List (Option Descriptor) :=
  [none, entry .sbc .indirectX, none, none, none, entry .sbc .zeropage, none, none, entry .inx .implied,
   entry .sbc .immediate, entry .nop .implied, none, none, entry .sbc .absolute, none, none]

/-- Row F of R75's table. -/
def decodeRowF : List (Option Descriptor) :=
  [entry .beq .relative, entry .sbc .indirectY, none, none, none, entry .sbc .zeropageX, none, none,
   entry .sed .implied, entry .sbc .absoluteY, none, none, none, entry .sbc .absoluteX, none, none]

/-- The default `P_DECODE_TABLE`: the grid of R75 (the spec's choice, D1). -/
def defaultTable : DecodeTable :=
  [decodeRow0, decodeRow1, decodeRow2, decodeRow3, decodeRow4, decodeRow5, decodeRow6, decodeRow7,
   decodeRow8, decodeRow9, decodeRowA, decodeRowB, decodeRowC, decodeRowD, decodeRowE, decodeRowF]

/-- The registrations that give the default table, by R75's list "Per mnemonic". -/
def defaultRegistrations : List (Byte × Descriptor) :=
  [(0xA9, ⟨.immediate, .lda⟩), (0xA5, ⟨.zeropage, .lda⟩), (0xB5, ⟨.zeropageX, .lda⟩), (0xAD, ⟨.absolute, .lda⟩),
      (0xBD, ⟨.absoluteX, .lda⟩), (0xB9, ⟨.absoluteY, .lda⟩), (0xA1, ⟨.indirectX, .lda⟩), (0xB1, ⟨.indirectY, .lda⟩)]
  ++ [(0xA2, ⟨.immediate, .ldx⟩), (0xA6, ⟨.zeropage, .ldx⟩), (0xAE, ⟨.absolute, .ldx⟩), (0xBE, ⟨.absoluteY, .ldx⟩)]
  ++ [(0xA0, ⟨.immediate, .ldy⟩), (0xA4, ⟨.zeropage, .ldy⟩), (0xB4, ⟨.zeropageX, .ldy⟩),
      (0xAC, ⟨.absolute, .ldy⟩), (0xBC, ⟨.absoluteX, .ldy⟩)]
  ++ [(0x85, ⟨.zeropage, .sta⟩), (0x95, ⟨.zeropageX, .sta⟩), (0x8D, ⟨.absolute, .sta⟩),
      (0x9D, ⟨.absoluteX, .sta⟩), (0x99, ⟨.absoluteY, .sta⟩), (0x81, ⟨.indirectX, .sta⟩), (0x91, ⟨.indirectY, .sta⟩)]
  ++ [(0x86, ⟨.zeropage, .stx⟩), (0x8E, ⟨.absolute, .stx⟩)]
  ++ [(0x84, ⟨.zeropage, .sty⟩), (0x94, ⟨.zeropageX, .sty⟩), (0x8C, ⟨.absolute, .sty⟩)]
  ++ [(0xAA, ⟨.implied, .tax⟩), (0x8A, ⟨.implied, .txa⟩), (0xA8, ⟨.implied, .tay⟩), (0x98, ⟨.implied, .tya⟩),
      (0xE8, ⟨.implied, .inx⟩), (0xC8, ⟨.implied, .iny⟩)]
  ++ [(0x29, ⟨.immediate, .and⟩), (0x25, ⟨.zeropage, .and⟩), (0x35, ⟨.zeropageX, .and⟩),
      (0x2D, ⟨.absolute, .and⟩), (0x3D, ⟨.absoluteX, .and⟩), (0x39, ⟨.absoluteY, .and⟩),
      (0x21, ⟨.indirectX, .and⟩), (0x31, ⟨.indirectY, .and⟩)]
  ++ [(0x69, ⟨.immediate, .adc⟩), (0x65, ⟨.zeropage, .adc⟩), (0x75, ⟨.zeropageX, .adc⟩),
      (0x6D, ⟨.absolute, .adc⟩), (0x7D, ⟨.absoluteX, .adc⟩), (0x79, ⟨.absoluteY, .adc⟩),
      (0x61, ⟨.indirectX, .adc⟩), (0x71, ⟨.indirectY, .adc⟩)]
  ++ [(0xE9, ⟨.immediate, .sbc⟩), (0xE5, ⟨.zeropage, .sbc⟩), (0xF5, ⟨.zeropageX, .sbc⟩),
      (0xED, ⟨.absolute, .sbc⟩), (0xFD, ⟨.absoluteX, .sbc⟩), (0xF9, ⟨.absoluteY, .sbc⟩),
      (0xE1, ⟨.indirectX, .sbc⟩), (0xF1, ⟨.indirectY, .sbc⟩)]
  ++ [(0x18, ⟨.implied, .clc⟩), (0x38, ⟨.implied, .sec⟩), (0x58, ⟨.implied, .cli⟩), (0x78, ⟨.implied, .sei⟩),
      (0xB8, ⟨.implied, .clv⟩), (0xD8, ⟨.implied, .cld⟩), (0xF8, ⟨.implied, .sed⟩)]
  ++ [(0x10, ⟨.relative, .bpl⟩), (0x30, ⟨.relative, .bmi⟩), (0x50, ⟨.relative, .bvc⟩),
      (0x70, ⟨.relative, .bvs⟩), (0x90, ⟨.relative, .bcc⟩), (0xB0, ⟨.relative, .bcs⟩),
      (0xD0, ⟨.relative, .bne⟩), (0xF0, ⟨.relative, .beq⟩)]
  ++ [(0x4C, ⟨.absolute, .jmp⟩), (0x20, ⟨.absolute, .jsr⟩), (0x60, ⟨.implied, .rts⟩), (0x48, ⟨.implied, .pha⟩),
      (0x08, ⟨.implied, .php⟩), (0x68, ⟨.implied, .pla⟩), (0x28, ⟨.implied, .plp⟩), (0xEA, ⟨.implied, .nop⟩)]

/-! ## The decoder -/

/-- Why bytes are no instruction. -/
inductive DecodeError where
  /-- There is no byte to read an opcode from. -/
  | noOpcode
  /-- The opcode byte is not registered: the core's fault (R77, R221). -/
  | invalidOpcode (op : Byte)
  /-- The operand bytes of this descriptor are not all there. -/
  | truncated (d : Descriptor)
  /-- The table registers a pair that is not one of the 82 rows of R75 (log entry 11). -/
  | outsideTable (d : Descriptor)
  deriving DecidableEq, Repr

/-- The operand bytes of a mode at the head of a byte list, with the rest (R70, R71); an absent byte of the format is 0. -/
def takeOperands (n : Nat) (bytes : List Byte) : Option (Byte × Byte × List Byte) :=
  match n, bytes with
  | 0, rest => some (0, 0, rest)
  | 1, lo :: rest => some (lo, 0, rest)
  | 2, lo :: hi :: rest => some (lo, hi, rest)
  | _, _ => none

/-- Decoding a byte stream with a given table (R70, R73): the instruction and the bytes after it, or the reason there is none. -/
def decode (t : DecodeTable) (bytes : List Byte) : Except DecodeError (Instr × List Byte) :=
  match bytes with
  | [] => .error .noOpcode
  | op :: more =>
    match t.lookup op with
    | none => .error (.invalidOpcode op)
    | some d =>
      match takeOperands d.mode.operandBytes more with
      | none => .error (.truncated d)
      | some (lo, hi, rest) =>
        match assemble d lo hi with
        | none => .error (.outsideTable d)
        | some i => .ok (i, rest)

/-! ## The encoder -/

/-- The opcode byte of an instruction, from R75's list "Per mnemonic". -/
def Instr.opcode : Instr → Byte
  | .ldaImm _ => 0xA9 | .ldaZp _ => 0xA5 | .ldaZpx _ => 0xB5 | .ldaAbs _ _ => 0xAD | .ldaAbx _ _ => 0xBD
  | .ldaAby _ _ => 0xB9 | .ldaIzx _ => 0xA1 | .ldaIzy _ => 0xB1
  | .ldxImm _ => 0xA2 | .ldxZp _ => 0xA6 | .ldxAbs _ _ => 0xAE | .ldxAby _ _ => 0xBE
  | .ldyImm _ => 0xA0 | .ldyZp _ => 0xA4 | .ldyZpx _ => 0xB4 | .ldyAbs _ _ => 0xAC | .ldyAbx _ _ => 0xBC
  | .staZp _ => 0x85 | .staZpx _ => 0x95 | .staAbs _ _ => 0x8D | .staAbx _ _ => 0x9D | .staAby _ _ => 0x99
  | .staIzx _ => 0x81 | .staIzy _ => 0x91
  | .stxZp _ => 0x86 | .stxAbs _ _ => 0x8E
  | .styZp _ => 0x84 | .styZpx _ => 0x94 | .styAbs _ _ => 0x8C
  | .tax => 0xAA
  | .txa => 0x8A
  | .tay => 0xA8
  | .tya => 0x98
  | .inx => 0xE8
  | .iny => 0xC8
  | .andImm _ => 0x29 | .andZp _ => 0x25 | .andZpx _ => 0x35 | .andAbs _ _ => 0x2D | .andAbx _ _ => 0x3D
  | .andAby _ _ => 0x39 | .andIzx _ => 0x21 | .andIzy _ => 0x31
  | .adcImm _ => 0x69 | .adcZp _ => 0x65 | .adcZpx _ => 0x75 | .adcAbs _ _ => 0x6D | .adcAbx _ _ => 0x7D
  | .adcAby _ _ => 0x79 | .adcIzx _ => 0x61 | .adcIzy _ => 0x71
  | .sbcImm _ => 0xE9 | .sbcZp _ => 0xE5 | .sbcZpx _ => 0xF5 | .sbcAbs _ _ => 0xED | .sbcAbx _ _ => 0xFD
  | .sbcAby _ _ => 0xF9 | .sbcIzx _ => 0xE1 | .sbcIzy _ => 0xF1
  | .clc => 0x18
  | .sec => 0x38
  | .cli => 0x58
  | .sei => 0x78
  | .clv => 0xB8
  | .cld => 0xD8
  | .sed => 0xF8
  | .bpl _ => 0x10
  | .bmi _ => 0x30
  | .bvc _ => 0x50
  | .bvs _ => 0x70
  | .bcc _ => 0x90
  | .bcs _ => 0xB0
  | .bne _ => 0xD0
  | .beq _ => 0xF0
  | .jmp _ _ => 0x4C
  | .jsr _ _ => 0x20
  | .rts => 0x60
  | .pha => 0x48
  | .php => 0x08
  | .pla => 0x68
  | .plp => 0x28
  | .nop => 0xEA

/-- The bytes of an instruction at ascending addresses (R70, R71). -/
def encode (i : Instr) : List Byte := i.opcode :: i.operands

/-! ## The table's words -/

/-- The three bytes at ascending addresses of a word numbered as the opcode table numbers it (byte k is bits 8k+7 to 8k),
every bit from `nbits` up being 0. -/
def wordBytes (nbits w : Nat) : List Byte :=
  [BitVec.ofNat 8 (w % 2 ^ nbits), BitVec.ofNat 8 (w % 2 ^ nbits / 256), BitVec.ofNat 8 (w % 2 ^ nbits / 65536)]

/-- What the decoder reads from a word of the opcode table under the default table. -/
def decodeTableWord (nbits w : Nat) : Option Instr :=
  match decode defaultTable (wordBytes nbits w) with
  | .ok (i, _) => some i
  | .error _ => none

end Sys2Proof
end

