-- ==== Sys2Proof/WellFormed.lean ====
section
/-! DEFINITION. What is well formed: a descriptor whose executor finds the fields it reads (40_execution_engine.md R99), a
decode table of 256 entries (10_state.md R34, R42), and an instruction that the table in force can produce (R74, R77). -/

namespace Sys2Proof

/-- Does the resolver of this mode hand the executor a value to use: latched, or to be read at the effective address? -/
def Mode.givesValue : Mode → Bool
  | .implied => false
  | .immediate | .relative | .zeropage | .zeropageX | .absolute | .absoluteX | .absoluteY | .indirectX | .indirectY => true

/-- Does the resolver of this mode fill the effective address (R101 to R110)? -/
def Mode.givesEa : Mode → Bool
  | .implied | .immediate => false
  | .relative | .zeropage | .zeropageX | .absolute | .absoluteX | .absoluteY | .indirectX | .indirectY => true

/-- Does the executor of this mnemonic use the operand's value? -/
def Mnemonic.usesValue : Mnemonic → Bool
  | .lda | .ldx | .ldy | .and | .adc | .sbc => true
  | .sta | .stx | .sty | .tax | .txa | .tay | .tya | .inx | .iny | .clc | .sec | .cli | .sei | .clv | .cld | .sed
  | .bpl | .bmi | .bvc | .bvs | .bcc | .bcs | .bne | .beq | .jmp | .jsr | .rts | .pha | .php | .pla | .plp | .nop => false

/-- Does the executor of this mnemonic use the effective address? -/
def Mnemonic.usesEa : Mnemonic → Bool
  | .sta | .stx | .sty | .bpl | .bmi | .bvc | .bvs | .bcc | .bcs | .bne | .beq | .jmp | .jsr => true
  | .lda | .ldx | .ldy | .and | .adc | .sbc | .tax | .txa | .tay | .tya | .inx | .iny
  | .clc | .sec | .cli | .sei | .clv | .cld | .sed | .rts | .pha | .php | .pla | .plp | .nop => false

/-- "An executor reads only fields its mode fills" (R99). -/
def Descriptor.wf (d : Descriptor) : Bool :=
  (!d.mnemonic.usesValue || d.mode.givesValue) && (!d.mnemonic.usesEa || d.mode.givesEa)

/-- A table row's registered entries are well formed. -/
def rowWf (row : List (Option Descriptor)) : Bool :=
  row.all fun e => match e with
    | none => true
    | some d => d.wf

/-- The decode table has exactly 256 entries (R34, R42): 16 rows of 16. -/
def DecodeTable.sized (t : DecodeTable) : Bool :=
  t.length == 16 && t.all fun row => row.length == 16

/-- A decode table the spec admits: 256 entries (93_implementation_defined.md U3), every registered entry well formed. -/
def DecodeTable.wf (t : DecodeTable) : Bool := t.sized && t.all rowWf

/-- An instruction is well formed under a table when the table registers its opcode byte for it (R74): otherwise no bytes
of the machine are this instruction. -/
abbrev Instr.wf (t : DecodeTable) (i : Instr) : Prop := t.lookup i.opcode = some i.descriptor

end Sys2Proof
end

