-- ==== Sys2Proof/Machine/State.lean ====
section
/-! DEFINITION. The state of the machine as plain data (10_state.md R20, R41), the faults and refusals of a step, and the
state right after reset, which on this core is construction (70_reset_and_hazards.md R250). -/

namespace Sys2Proof.Machine

/-- The parameters of 00_scope.md R8 that a step reads. No step changes them (log entry 1). -/
structure Params where
  /-- `P_DECODE_TABLE` (R34). -/
  table    : DecodeTable
  /-- `P_EA_READ` (R111). -/
  eaRead   : EaRead
  /-- `P_INDX_HIGH` (R109, R113). -/
  indxHigh : IndxHigh
  /-- `P_INDY_PTR` (R110, R114). -/
  indyPtr  : IndyPtr
  /-- `P_SBC_V` (R154). -/
  sbcV     : SbcV
  /-- `P_BUS`, the read function: the first window that holds an address decides; elsewhere its own cell (log entry 3). -/
  readMap  : List BusWindow
  /-- `P_BUS`, the write function, in the same form. -/
  writeMap : List BusWindow
  deriving DecidableEq, Repr

/-- The storage behind the bus, in one canonical form: cells strictly rising, no entry equal to what an unlisted cell reads as
(log entry 2). Cells 0 to 65535 are the plain memory, one for each address; further cells are only a banked bus's. -/
abbrev Memory := List Host.Cell

/-- Why the core has halted (10_state.md R35): its one fault, with the offending byte. -/
inductive HaltReason where
  | invalidOpcode (op : Byte)
  deriving DecidableEq, Repr

/-- The state: the tuple of R20, what is behind the bus and the host port, and the parameters. -/
structure State where
  /-- Accumulator (R21). -/
  a       : Byte
  /-- Index register (R22). -/
  x       : Byte
  /-- Index register (R23). -/
  y       : Byte
  /-- Program counter, the next byte to fetch (R25). -/
  pc      : Word
  /-- Stack pointer into page 1, the next free byte (R26). -/
  sp      : Byte
  /-- Status register `P` (R27): C Z I D B 1 V N from bit 0 up. -/
  p       : Byte
  /-- Cycle counter, unbounded (R32). -/
  cycles  : Nat
  /-- The fault state (R35). -/
  halted  : Option HaltReason
  /-- Memory behind the bus (R38). -/
  mem     : Memory
  /-- The debug flag the host sets (R36). -/
  debug   : Bool
  /-- The trace line the last step produced, if it produced one (30_encoding.md R80). -/
  trace   : Option (List Char)
  /-- The bus transactions of the last step, in order (20_memory.md R62). -/
  busLog  : List BusAccess
  /-- The model's own: every bus transaction since construction, newest first, on which the free values depend (log entry 4). -/
  history : List BusAccess
  /-- The parameters. -/
  params  : Params
  deriving DecidableEq, Repr

/-- How a step stops with a fault. -/
inductive Fault where
  /-- Raised by `step` when the byte fetched as an opcode is not registered (R92, R221). `left` is the state the fault leaves:
  `halted` set, `PC` past the opcode byte (R222). SAFE: it is the core's own fault. -/
  | invalidOpcode (op : Byte) (left : State)
  /-- Answered by `step` in a halted state: the core takes no step (R98). SAFE: the core is stopped for good. -/
  | coreHalted (reason : HaltReason)
  deriving DecidableEq, Repr

/-- How a step or a launch is refused. -/
inductive Refusal where
  /-- Raised by `exec` for an instruction that has no meaning yet; no arm of this model does. SAFE. -/
  | notModelled (mnemonic : String)
  /-- Raised by an executor whose resolver filled no field for it to read: only a decode table outside `DecodeTable.wf` does
  (R99, log entry 11). SAFE: no instruction of the opcode table ends so. -/
  | operandMissing
  /-- Raised by `launch` for a decode table that is not well formed (93_implementation_defined.md U3). SAFE. -/
  | badDecodeTable
  /-- Raised by `launch` for a state that breaks R42 or is halted (93_implementation_defined.md U11, R254). SAFE. -/
  | badLaunchState
  deriving DecidableEq, Repr

/-- What a meaning answers. -/
abbrev Result := Host.Outcome State Fault Refusal

/-- The defaults of 00_scope.md R8. -/
def Params.default : Params where
  table    := defaultTable
  eaRead   := .always
  indxHigh := .zero
  indyPtr  := .one
  sbcV     := .literal
  readMap  := []
  writeMap := []

/-- The state after construction (R41, R250): "initializes `A=X=Y=0`, `PC=0`, `SP=0xFF`, `Status=0x20`, cycle counter = 0".
Memory, the debug flag, the outputs and the model's own history are log entries 2, 9, 7, 8 and 4. -/
def State.reset : State where
  a       := 0x00
  x       := 0x00
  y       := 0x00
  pc      := 0x0000
  sp      := 0xFF
  p       := 0x20
  cycles  := 0
  halted  := none
  mem     := []
  debug   := false
  trace   := none
  busLog  := []
  history := []
  params  := Params.default

end Sys2Proof.Machine
end

