-- ==== Sys2Proof/Machine/Ops.lean ====
section
/-! DEFINITION. The named operations: byte order, memory, the bus port, register writes, fetching, the stack primitives,
taking the core's one fault, and the host's operations on the machine. -/

namespace Sys2Proof.Machine

/-! ## Byte order and addresses -/

/-- `hi:lo`, the 16-bit value of two bytes (00_scope.md R9, 20_memory.md R53). -/
def joinBytes (hi lo : Byte) : Word := hi ++ lo

/-- Bits 15-8 of a 16-bit value. -/
def highByte (w : Word) : Byte := w.extractLsb' 8 8

/-- Bits 7-0 of a 16-bit value. -/
def lowByte (w : Word) : Byte := w.extractLsb' 0 8

/-- `zext_16` (00_scope.md R10). -/
def zext16 (b : Byte) : Word := b.setWidth 16

/-- `sext_16` (00_scope.md R10). -/
def sext16 (b : Byte) : Word := b.signExtend 16

/-- The address of a stack slot: `0x0100 + SP` (10_state.md R26). -/
def stackAddr (sp : Byte) : Word := joinBytes 0x01 sp

/-! ## Memory -/

/-- What an address that the list does not name reads as (log entry 2). -/
def Memory.background : Byte := 0x00

/-- The byte at an address. -/
def Memory.read : Memory → Nat → Byte
  | [], _ => Memory.background
  | (k, b) :: rest, addr => if addr = k then b else Memory.read rest addr

/-- The cell of an address in canonical form: none where it holds the background value. -/
def Memory.cell (addr : Nat) (v : Byte) : Memory := if v = Memory.background then [] else [(addr, v)]

/-- Setting the byte at an address, canonical form kept. -/
def Memory.write : Memory → Nat → Byte → Memory
  | [], addr, v => Memory.cell addr v
  | (k, b) :: rest, addr, v =>
    if addr < k then Memory.cell addr v ++ (k, b) :: rest
    else if addr = k then Memory.cell addr v ++ rest
    else (k, b) :: Memory.write rest addr v

/-- Canonical from a cell on: cells at least `lo`, strictly rising, and no entry holding the background value. -/
def Memory.wfFrom : Nat → Memory → Bool
  | _, [] => true
  | lo, (k, b) :: rest => decide (lo ≤ k) && !(b == Memory.background) && Memory.wfFrom (k + 1) rest

/-- The canonical form of memory. -/
def Memory.wf (m : Memory) : Bool := Memory.wfFrom 0 m

/-! ## The bus port -/

/-- Where the bus takes an access. -/
inductive Place where
  | cell (number : Nat)
  | nothing (value : Byte)
  | device (number : Nat)
  deriving DecidableEq, Repr

/-- Does the window hold this address? -/
def windowHolds (w : BusWindow) (addr : Word) : Bool := decide (w.first ≤ addr) && decide (addr ≤ w.last)

/-- The first cell of the bank a window shows; 0 where it is not banked. -/
def bankStart (bank : Option BankSwitch) (mem : Memory) : Nat :=
  match bank with
  | none => 0
  | some b => (mem.read b.latch).toNat * b.size

/-- Where a window takes an access to one of its addresses. -/
def windowPlace (w : BusWindow) (mem : Memory) (addr : Word) : Place :=
  match w.target with
  | .storage base mask bank => .cell (base + ((addr - w.first) &&& mask).toNat + bankStart bank mem)
  | .nothing value => .nothing value
  | .device number => .device number

/-- Where the bus takes an access: the first window that holds the address decides, and outside all windows it is the address's
own cell, as the default `P_BUS` has it (20_memory.md R50, R51; log entry 3). -/
def placeIn (windows : List BusWindow) (mem : Memory) (addr : Word) : Place :=
  match windows with
  | [] => .cell addr.toNat
  | w :: rest => if windowHolds w addr then windowPlace w mem addr else placeIn rest mem addr

/-- Where this machine's bus takes a read. -/
def State.readPlace (s : State) (addr : Word) : Place := placeIn s.params.readMap s.mem addr

/-- Where this machine's bus takes a write. -/
def State.writePlace (s : State) (addr : Word) : Place := placeIn s.params.writeMap s.mem addr

/-- The byte the bus answers a read of `addr` with after the transactions `past`, newest first: a cell's byte, the open-bus
value, or any byte where a device answers (20_memory.md R50, R52). -/
def State.busByteAfter (s : State) (past : List BusAccess) (addr : Word) : Byte :=
  match s.readPlace addr with
  | .cell c => s.mem.read c
  | .nothing value => value
  | .device k => Config.deviceByte k past addr

/-- The byte the bus answers a read of `addr` with now. -/
def State.busByte (s : State) (addr : Word) : Byte := s.busByteAfter s.history addr

/-- `MemRead(addr, 1)` (20_memory.md R50): one bus transaction. -/
def State.busRead (s : State) (addr : Word) : Byte × State :=
  (s.busByte addr,
   { s with busLog := s.busLog ++ [.read addr (s.busByte addr)], history := .read addr (s.busByte addr) :: s.history })

/-- The storage after a bus write: only a cell takes it (20_memory.md R51, R58). -/
def State.memAfterWrite (s : State) (addr : Word) (v : Byte) : Memory :=
  match s.writePlace addr with
  | .cell c => s.mem.write c v
  | .nothing _ => s.mem
  | .device _ => s.mem

/-- `MemWrite(addr, 1, v)` (20_memory.md R51): one bus transaction. -/
def State.busWrite (s : State) (addr : Word) (v : Byte) : State :=
  { s with mem := s.memAfterWrite addr v, busLog := s.busLog ++ [.write addr v], history := .write addr v :: s.history }

/-! ## Register writes and the cycle counter -/

/-- `A <- v`. -/
def State.setA (s : State) (v : Byte) : State := { s with a := v }

/-- `X <- v`. -/
def State.setX (s : State) (v : Byte) : State := { s with x := v }

/-- `Y <- v`. -/
def State.setY (s : State) (v : Byte) : State := { s with y := v }

/-- `SP <- v`. -/
def State.setSp (s : State) (v : Byte) : State := { s with sp := v }

/-- `PC <- v`. -/
def State.setPc (s : State) (v : Word) : State := { s with pc := v }

/-- `P <- v`, the whole status byte. -/
def State.setP (s : State) (v : Byte) : State := { s with p := v }

/-- `cycles <- cycles + n` (10_state.md R32). -/
def State.charge (s : State) (n : Nat) : State := { s with cycles := s.cycles + n }

/-! ## Fetching -/

/-- `Fetch8` (41_addressing_modes.md, R91): reads the byte at `PC` and advances `PC` by 1 modulo 2^16. -/
def State.fetch8 (s : State) : Byte × State :=
  ((s.busRead s.pc).1, (s.busRead s.pc).2.setPc (s.pc + 1))

/-- The operand bytes of an instruction and the state after fetching them, `PC` past the last one. -/
structure Fetched where
  lo : Byte
  hi : Byte
  st : State
  deriving DecidableEq, Repr

/-- Fetches the operand bytes of a mode, low to high (20_memory.md R62, R100); an absent byte of the format is 0. -/
def fetchOperands (n : Nat) (s : State) : Fetched :=
  match n with
  | 0 => ⟨0, 0, s⟩
  | 1 => ⟨s.fetch8.1, 0, s.fetch8.2⟩
  | _ => ⟨s.fetch8.1, s.fetch8.2.fetch8.1, s.fetch8.2.fetch8.2⟩

/-! ## The stack -/

/-- `Push(v)` (45_jump_stack_misc.md R190): writes at `0x0100 + SP`, then decrements `SP` modulo 256. -/
def State.push (s : State) (v : Byte) : State := (s.busWrite (stackAddr s.sp) v).setSp (s.sp - 1)

/-- `Pull()` (45_jump_stack_misc.md R191): increments `SP` modulo 256, then reads `0x0100 + SP`. -/
def State.pull (s : State) : Byte × State := (s.setSp (s.sp + 1)).busRead (stackAddr (s.sp + 1))

/-! ## The fault -/

/-- `raise InvalidOpcode(op)` (60_exceptions.md R221, R222): sets `halted` and ends the step. Nothing is saved, no vector is
read, and there is no return from it (R227, R228). -/
def raiseInvalidOpcode (op : Byte) (s : State) : Result :=
  .fault (.invalidOpcode op { s with halted := some (.invalidOpcode op) })

/-! ## The host port -/

/-- Construction with a bus (70_reset_and_hazards.md R250): the reset state with the host's parameters and memory. -/
def construct (params : Params) (mem : Memory) : State := { State.reset with params := params, mem := mem }

/-- The host sets the debug flag (10_state.md R40). -/
def State.setDebug (s : State) (b : Bool) : State := { s with debug := b }

/-- Is this a launch state `P_LAUNCH` admits (70_reset_and_hazards.md R254)? Bit 5 of `P` is 1 and the core is not halted; the
memory list is in canonical form, which is the model's own demand (log entry 15). -/
def State.launchOk (s : State) : Bool := s.p.getLsbD 5 && s.halted == none && s.mem.wf

/-- The host starts the core from a state, or the configuration is refused (93_implementation_defined.md U3, U11). -/
def launch (s : State) : Result :=
  if !s.params.table.wf then .refused .badDecodeTable
  else if !s.launchOk then .refused .badLaunchState
  else .next s

/-- The outputs of the last step are gone when a step begins (log entries 7 and 8). -/
def State.beginStep (s : State) : State := { s with trace := none, busLog := [] }

end Sys2Proof.Machine
end

