-- ==== Sys2Proof/Machine/Flags.lean ====
section
/-! DEFINITION. The status register (10_state.md R27 to R31): the seven flags, the two accessors, the shared flag rule, and the
flag computations of ADC and SBC (43_alu.md R153, R154). -/

namespace Sys2Proof.Machine

/-- The seven flags of `P` (R27). -/
inductive Flag where
  | c
  | z
  | i
  | d
  | b
  | v
  | n
  deriving DecidableEq, Repr

/-- The mask of a flag: Carry 0x01, Zero 0x02, Interrupt-disable 0x04, Decimal 0x08, Break 0x10, Overflow 0x40, Sign 0x80. -/
def Flag.mask : Flag → Byte
  | .c => 0x01
  | .z => 0x02
  | .i => 0x04
  | .d => 0x08
  | .b => 0x10
  | .v => 0x40
  | .n => 0x80

/-- `getFlag(mask)` (R28). -/
def getFlag (p : Byte) (f : Flag) : Bool := (p &&& f.mask) != 0

/-- `setFlag(mask, b)` (R28): `P | mask` or `P & ~mask`. -/
def setFlag (p : Byte) (f : Flag) (b : Bool) : Byte := if b then p ||| f.mask else p &&& ~~~f.mask

/-- `flag(F)` of a state. -/
def State.flag (s : State) (f : Flag) : Bool := getFlag s.p f

/-- `flag(F) <- b`. -/
def State.setFlag (s : State) (f : Flag) (b : Bool) : State := s.setP (Sys2Proof.Machine.setFlag s.p f b)

/-- The shared flag rule `setZN(v)` (R29): Z from `v = 0`, N from bit 7. -/
def State.setZN (s : State) (v : Byte) : State := (s.setFlag .z (v == 0)).setFlag .n (v.getLsbD 7)

/-! ## ADC (R153) -/

/-- `a + v + ci` as an integer in 0..511. -/
def adcSum (a v : Byte) (carry : Bool) : Nat := a.toNat + v.toNat + carry.toNat

/-- The sum narrowed to 8 bits. -/
def adcResult (a v : Byte) (carry : Bool) : Byte := BitVec.ofNat 8 (adcSum a v carry)

/-- Carry out: the sum exceeds 255. -/
def adcCarry (a v : Byte) (carry : Bool) : Bool := decide (255 < adcSum a v carry)

/-- The overflow formula: `((a ^ r) & (v ^ r) & 0x80) != 0`. -/
def overflowFormula (a v r : Byte) : Bool := ((a ^^^ r) &&& (v ^^^ r) &&& 0x80) != 0

/-! ## SBC (R154) -/

/-- `a - v - bw` as an integer in -256..255; "Carry clear means borrow". -/
def sbcDiff (a v : Byte) (carry : Bool) : Int := (a.toNat : Int) - (v.toNat : Int) - (if carry then 0 else 1)

/-- The difference narrowed to 8 bits, two's complement. -/
def sbcResult (a v : Byte) (carry : Bool) : Byte := BitVec.ofInt 8 (sbcDiff a v carry)

/-- Carry out: no borrow occurred. -/
def sbcCarry (a v : Byte) (carry : Bool) : Bool := decide (0 ≤ sbcDiff a v carry ∧ sbcDiff a v carry ≤ 255)

/-- The operand of SBC's overflow formula under `P_SBC_V`. -/
def sbcOverflowOperand (k : SbcV) (v : Byte) : Byte :=
  match k with
  | .literal => v
  | .complement => ~~~v

end Sys2Proof.Machine
end

