-- ==== Sys2Proof/Machine/Operands.lean ====
section
/-! DEFINITION. The ten addressing-mode resolvers (41_addressing_modes.md R100 to R115). A resolver takes the operand bytes,
which the sequencer has fetched (`PC` is past them), and answers the decoded operand and the state after its bus reads and
its cycle charge. -/

namespace Sys2Proof.Machine

/-- The decoded operand a resolver hands the executor (40_execution_engine.md R99). -/
structure Opnd where
  value   : Option Byte
  ea      : Option Word
  crossed : Bool
  deriving DecidableEq, Repr

/-- What a resolver answers. -/
abbrev Resolved := Opnd × State

/-! ## Addresses -/

/-- The branch target: `trunc_16(PC_after_operand + sext_16(off))` (R103). -/
def relativeTarget (pc : Word) (off : Byte) : Word := pc + sext16 off

/-- A zero-page sum: it wraps modulo 256 (R105, R109). -/
def zeropageSum (base index : Byte) : Word := zext16 (base + index)

/-- An indexed address: `trunc_16(base + zext_16(index))` (R107, R108, R110). -/
def indexed (base : Word) (index : Byte) : Word := base + zext16 index

/-- The page crossing of absolute,X and absolute,Y: the high byte changes (R112). -/
def pageCrossed (base ea : Word) : Bool := highByte ea != highByte base

/-! ## Latching a memory operand -/

/-- The read at the effective address (R111): with `P_EA_READ = always` the byte is read and latched, whatever the mnemonic. -/
def latchMemory (ea : Word) (crossed : Bool) (cost : Nat) (s : State) : Resolved :=
  match s.params.eaRead with
  | .always => (⟨some (s.busRead ea).1, some ea, crossed⟩, (s.busRead ea).2.charge cost)
  | .onUse => (⟨none, some ea, crossed⟩, s.charge cost)

/-- The high byte of the (indirect,X) effective address under `P_INDX_HIGH` (R109, R113). -/
def State.indxHighByte (s : State) : Byte :=
  match s.params.indxHigh with
  | .zero => 0
  | .draw => Config.indxHighByte s.history

/-- The base of (indirect),Y and the state after the pointer reads (R110; R114 when the pointer has two bytes). -/
def indirectYBase (op8 : Byte) (s : State) : Word × State :=
  match s.params.indyPtr with
  | .one => (zext16 (s.busRead (zext16 op8)).1, (s.busRead (zext16 op8)).2)
  | .two =>
    let low := s.busRead (zext16 op8)
    let high := low.2.busRead (zeropageSum op8 1)
    (joinBytes high.1 low.1, high.2)

/-! ## The resolvers -/

/-- implied (R101). -/
def resolveImplied (s : State) : Resolved := (⟨none, none, false⟩, s.charge 2)

/-- immediate (R102). -/
def resolveImmediate (op8 : Byte) (s : State) : Resolved := (⟨some op8, none, false⟩, s.charge 2)

/-- relative (R103). -/
def resolveRelative (op8 : Byte) (s : State) : Resolved := (⟨some op8, some (relativeTarget s.pc op8), false⟩, s.charge 2)

/-- zeropage (R104). -/
def resolveZeropage (op8 : Byte) (s : State) : Resolved := latchMemory (zext16 op8) false 3 s

/-- zeropage,X (R105). -/
def resolveZeropageX (op8 : Byte) (s : State) : Resolved := latchMemory (zeropageSum op8 s.x) false 3 s

/-- absolute (R106). -/
def resolveAbsolute (lo hi : Byte) (s : State) : Resolved := latchMemory (joinBytes hi lo) false 4 s

/-- The common part of absolute,X and absolute,Y: the +1 is charged for every mnemonic (R107, R108). -/
def resolveAbsoluteIndexed (lo hi index : Byte) (s : State) : Resolved :=
  let base := joinBytes hi lo
  let ea := indexed base index
  latchMemory ea (pageCrossed base ea) (4 + (pageCrossed base ea).toNat) s

/-- absolute,X (R107). -/
def resolveAbsoluteX (lo hi : Byte) (s : State) : Resolved := resolveAbsoluteIndexed lo hi s.x s

/-- absolute,Y (R108). -/
def resolveAbsoluteY (lo hi : Byte) (s : State) : Resolved := resolveAbsoluteIndexed lo hi s.y s

/-- (indirect,X) (R109): the pointer is one zero-page byte; the byte after it is not read. -/
def resolveIndirectX (op8 : Byte) (s : State) : Resolved :=
  let pointer := s.busRead (zeropageSum op8 s.x)
  latchMemory (joinBytes s.indxHighByte pointer.1) false 2 pointer.2

/-- (indirect),Y (R110): the +1 is charged when the sum's high byte is not zero. -/
def resolveIndirectY (op8 : Byte) (s : State) : Resolved :=
  let base := indirectYBase op8 s
  let ea := indexed base.1 s.y
  let crossed := highByte ea != 0
  latchMemory ea crossed (2 + crossed.toNat) base.2

/-- The resolver a mode selects (R76, R93). -/
def resolve (mode : Mode) (lo hi : Byte) (s : State) : Resolved :=
  match mode with
  | .implied => resolveImplied s
  | .immediate => resolveImmediate lo s
  | .relative => resolveRelative lo s
  | .zeropage => resolveZeropage lo s
  | .zeropageX => resolveZeropageX lo s
  | .absolute => resolveAbsolute lo hi s
  | .absoluteX => resolveAbsoluteX lo hi s
  | .absoluteY => resolveAbsoluteY lo hi s
  | .indirectX => resolveIndirectX lo s
  | .indirectY => resolveIndirectY lo s

/-! ## What an executor reads -/

/-- The operand's value and the state after getting it: the latched byte, or the byte at the effective address, which the
executor reads as its first action when the resolver did not (R111, `P_EA_READ = on_use`). -/
def operandValue (r : Resolved) : Option (Byte × State) :=
  match r.1.value with
  | some v => some (v, r.2)
  | none =>
    match r.1.ea with
    | some ea => some (r.2.busRead ea)
    | none => none

/-- Runs an executor that uses the operand's value. -/
def withValue (r : Resolved) (k : Byte → State → Result) : Result :=
  match operandValue r with
  | some (v, s) => k v s
  | none => .refused .operandMissing

/-- Runs an executor that uses the effective address. -/
def withEa (r : Resolved) (k : Word → State → Result) : Result :=
  match r.1.ea with
  | some ea => k ea r.2
  | none => .refused .operandMissing

end Sys2Proof.Machine
end

