-- ==== Sys2Proof/Machine/Alu.lean ====
section
/-! DEFINITION. ALU instructions (43_alu.md R150 to R156). ADC and SBC are binary at every value of the D flag (R156). -/

namespace Sys2Proof.Machine

/-! ## The executors -/

/-- INX (R150): `X + 1` modulo 256. -/
def executeInx (r : Resolved) : Result := .next ((r.2.setX (r.2.x + 1)).setZN (r.2.x + 1))

/-- INY (R151): `Y + 1` modulo 256. -/
def executeIny (r : Resolved) : Result := .next ((r.2.setY (r.2.y + 1)).setZN (r.2.y + 1))

/-- AND (R152): `A <- A & value`. -/
def executeAnd (r : Resolved) : Result := withValue r fun v s => .next ((s.setA (s.a &&& v)).setZN (s.a &&& v))

/-- Writes an ADC or SBC result: C, then `A` with Z and N, then V, in the order of R153 and R154. -/
def State.setArith (s : State) (result : Byte) (carry overflow : Bool) : State :=
  (((s.setFlag .c carry).setA result).setZN result).setFlag .v overflow

/-- ADC (R153). -/
def executeAdc (r : Resolved) : Result :=
  withValue r fun v s =>
    let result := adcResult s.a v (s.flag .c)
    .next (s.setArith result (adcCarry s.a v (s.flag .c)) (overflowFormula s.a v result))

/-- SBC (R154), with the overflow operand of `P_SBC_V`. -/
def executeSbc (r : Resolved) : Result :=
  withValue r fun v s =>
    let result := sbcResult s.a v (s.flag .c)
    .next (s.setArith result (sbcCarry s.a v (s.flag .c))
      (overflowFormula s.a (sbcOverflowOperand s.params.sbcV v) result))

/-! ## The instructions -/

/-- INX, implied: R150. -/
def execInx (s : State) : Result := executeInx (resolveImplied s)

/-- INY, implied: R151. -/
def execIny (s : State) : Result := executeIny (resolveImplied s)

/-- AND, immediate: R152. -/
def execAndImm (op8 : Byte) (s : State) : Result := executeAnd (resolveImmediate op8 s)

/-- AND, zeropage: R152. -/
def execAndZp (op8 : Byte) (s : State) : Result := executeAnd (resolveZeropage op8 s)

/-- AND, zeropage,X: R152. -/
def execAndZpx (op8 : Byte) (s : State) : Result := executeAnd (resolveZeropageX op8 s)

/-- AND, absolute: R152. -/
def execAndAbs (lo hi : Byte) (s : State) : Result := executeAnd (resolveAbsolute lo hi s)

/-- AND, absolute,X: R152. -/
def execAndAbx (lo hi : Byte) (s : State) : Result := executeAnd (resolveAbsoluteX lo hi s)

/-- AND, absolute,Y: R152. -/
def execAndAby (lo hi : Byte) (s : State) : Result := executeAnd (resolveAbsoluteY lo hi s)

/-- AND, (indirect,X): R152. -/
def execAndIzx (op8 : Byte) (s : State) : Result := executeAnd (resolveIndirectX op8 s)

/-- AND, (indirect),Y: R152. -/
def execAndIzy (op8 : Byte) (s : State) : Result := executeAnd (resolveIndirectY op8 s)

/-- ADC, immediate: R153. -/
def execAdcImm (op8 : Byte) (s : State) : Result := executeAdc (resolveImmediate op8 s)

/-- ADC, zeropage: R153. -/
def execAdcZp (op8 : Byte) (s : State) : Result := executeAdc (resolveZeropage op8 s)

/-- ADC, zeropage,X: R153. -/
def execAdcZpx (op8 : Byte) (s : State) : Result := executeAdc (resolveZeropageX op8 s)

/-- ADC, absolute: R153. -/
def execAdcAbs (lo hi : Byte) (s : State) : Result := executeAdc (resolveAbsolute lo hi s)

/-- ADC, absolute,X: R153. -/
def execAdcAbx (lo hi : Byte) (s : State) : Result := executeAdc (resolveAbsoluteX lo hi s)

/-- ADC, absolute,Y: R153. -/
def execAdcAby (lo hi : Byte) (s : State) : Result := executeAdc (resolveAbsoluteY lo hi s)

/-- ADC, (indirect,X): R153. -/
def execAdcIzx (op8 : Byte) (s : State) : Result := executeAdc (resolveIndirectX op8 s)

/-- ADC, (indirect),Y: R153. -/
def execAdcIzy (op8 : Byte) (s : State) : Result := executeAdc (resolveIndirectY op8 s)

/-- SBC, immediate: R154. -/
def execSbcImm (op8 : Byte) (s : State) : Result := executeSbc (resolveImmediate op8 s)

/-- SBC, zeropage: R154. -/
def execSbcZp (op8 : Byte) (s : State) : Result := executeSbc (resolveZeropage op8 s)

/-- SBC, zeropage,X: R154. -/
def execSbcZpx (op8 : Byte) (s : State) : Result := executeSbc (resolveZeropageX op8 s)

/-- SBC, absolute: R154. -/
def execSbcAbs (lo hi : Byte) (s : State) : Result := executeSbc (resolveAbsolute lo hi s)

/-- SBC, absolute,X: R154. -/
def execSbcAbx (lo hi : Byte) (s : State) : Result := executeSbc (resolveAbsoluteX lo hi s)

/-- SBC, absolute,Y: R154. -/
def execSbcAby (lo hi : Byte) (s : State) : Result := executeSbc (resolveAbsoluteY lo hi s)

/-- SBC, (indirect,X): R154. -/
def execSbcIzx (op8 : Byte) (s : State) : Result := executeSbc (resolveIndirectX op8 s)

/-- SBC, (indirect),Y: R154. -/
def execSbcIzy (op8 : Byte) (s : State) : Result := executeSbc (resolveIndirectY op8 s)

end Sys2Proof.Machine
end

