-- ==== Sys2Proof/Machine/Branch.lean ====
section
/-! DEFINITION. Conditional branches (44_flags_and_branches.md R177 to R185). -/

namespace Sys2Proof.Machine

/-! ## The executors -/

/-- A conditional branch (R177): when the tested flag has the wanted value, `PC` takes the resolver's target and one cycle is
charged; otherwise nothing more happens. -/
def branchWhen (f : Flag) (wanted : Bool) (r : Resolved) : Result :=
  withEa r fun ea s => .next (if s.flag f == wanted then (s.setPc ea).charge 1 else s)

/-- BPL (R178): N clear. -/
def executeBpl (r : Resolved) : Result := branchWhen .n false r

/-- BMI (R179): N set. -/
def executeBmi (r : Resolved) : Result := branchWhen .n true r

/-- BVC (R180): V clear. -/
def executeBvc (r : Resolved) : Result := branchWhen .v false r

/-- BVS (R181): V set. -/
def executeBvs (r : Resolved) : Result := branchWhen .v true r

/-- BCC (R182): C clear. -/
def executeBcc (r : Resolved) : Result := branchWhen .c false r

/-- BCS (R183): C set. -/
def executeBcs (r : Resolved) : Result := branchWhen .c true r

/-- BNE (R184): Z clear. -/
def executeBne (r : Resolved) : Result := branchWhen .z false r

/-- BEQ (R185): Z set. -/
def executeBeq (r : Resolved) : Result := branchWhen .z true r

/-! ## The instructions -/

/-- BPL, relative: R178. -/
def execBpl (op8 : Byte) (s : State) : Result := executeBpl (resolveRelative op8 s)

/-- BMI, relative: R179. -/
def execBmi (op8 : Byte) (s : State) : Result := executeBmi (resolveRelative op8 s)

/-- BVC, relative: R180. -/
def execBvc (op8 : Byte) (s : State) : Result := executeBvc (resolveRelative op8 s)

/-- BVS, relative: R181. -/
def execBvs (op8 : Byte) (s : State) : Result := executeBvs (resolveRelative op8 s)

/-- BCC, relative: R182. -/
def execBcc (op8 : Byte) (s : State) : Result := executeBcc (resolveRelative op8 s)

/-- BCS, relative: R183. -/
def execBcs (op8 : Byte) (s : State) : Result := executeBcs (resolveRelative op8 s)

/-- BNE, relative: R184. -/
def execBne (op8 : Byte) (s : State) : Result := executeBne (resolveRelative op8 s)

/-- BEQ, relative: R185. -/
def execBeq (op8 : Byte) (s : State) : Result := executeBeq (resolveRelative op8 s)

end Sys2Proof.Machine
end

