-- ==== Sys2Proof/Machine/FlagOps.lean ====
section
/-! DEFINITION. Flag instructions (44_flags_and_branches.md R170 to R176): "set or clear exactly one named flag; no other state touched". -/

namespace Sys2Proof.Machine

/-! ## The executors -/

/-- CLC (R170). -/
def executeClc (r : Resolved) : Result := .next (r.2.setFlag .c false)

/-- SEC (R171). -/
def executeSec (r : Resolved) : Result := .next (r.2.setFlag .c true)

/-- CLI (R172). -/
def executeCli (r : Resolved) : Result := .next (r.2.setFlag .i false)

/-- SEI (R173). -/
def executeSei (r : Resolved) : Result := .next (r.2.setFlag .i true)

/-- CLV (R174). -/
def executeClv (r : Resolved) : Result := .next (r.2.setFlag .v false)

/-- CLD (R175). -/
def executeCld (r : Resolved) : Result := .next (r.2.setFlag .d false)

/-- SED (R176). -/
def executeSed (r : Resolved) : Result := .next (r.2.setFlag .d true)

/-! ## The instructions -/

/-- CLC, implied: R170. -/
def execClc (s : State) : Result := executeClc (resolveImplied s)

/-- SEC, implied: R171. -/
def execSec (s : State) : Result := executeSec (resolveImplied s)

/-- CLI, implied: R172. -/
def execCli (s : State) : Result := executeCli (resolveImplied s)

/-- SEI, implied: R173. -/
def execSei (s : State) : Result := executeSei (resolveImplied s)

/-- CLV, implied: R174. -/
def execClv (s : State) : Result := executeClv (resolveImplied s)

/-- CLD, implied: R175. -/
def execCld (s : State) : Result := executeCld (resolveImplied s)

/-- SED, implied: R176. -/
def execSed (s : State) : Result := executeSed (resolveImplied s)

end Sys2Proof.Machine
end

