-- ==== Sys2Proof/Machine/JumpStack.lean ====
section
/-! DEFINITION. Jump, subroutine, stack and no-op instructions (45_jump_stack_misc.md R190 to R200). -/

namespace Sys2Proof.Machine

/-! ## The executors -/

/-- JMP (R192): `PC <- opnd.ea`. -/
def executeJmp (r : Resolved) : Result := withEa r fun ea s => .next (s.setPc ea)

/-- JSR (R193): writes `PC - 1` high byte at `SP`, then low byte at `SP - 1` within the stack page, `SP - 2`, jumps, 2 cycles. -/
def executeJsr (r : Resolved) : Result :=
  withEa r fun ea s =>
    let ret := s.pc - 1
    let pushed := (s.busWrite (stackAddr s.sp) (highByte ret)).busWrite (stackAddr (s.sp - 1)) (lowByte ret)
    .next (((pushed.setSp (s.sp - 2)).setPc ea).charge 2)

/-- RTS (R194): pulls the low byte, then the high byte, `PC <- hi:lo + 1`, 4 cycles. -/
def executeRts (r : Resolved) : Result :=
  let lo := r.2.pull
  let hi := lo.2.pull
  .next ((hi.2.setPc (joinBytes hi.1 lo.1 + 1)).charge 4)

/-- PHA (R195). -/
def executePha (r : Resolved) : Result := .next ((r.2.push r.2.a).charge 1)

/-- PHP (R196): pushes `P` as it stands. -/
def executePhp (r : Resolved) : Result := .next ((r.2.push r.2.p).charge 1)

/-- PLA (R197): the shared flag rule applies to the pulled byte. -/
def executePla (r : Resolved) : Result :=
  let pulled := r.2.pull
  .next (((pulled.2.setA pulled.1).setZN pulled.1).charge 2)

/-- PLP (R198): `P <- pulled | 0x20`; the shared flag rule does not apply. -/
def executePlp (r : Resolved) : Result :=
  let pulled := r.2.pull
  .next ((pulled.2.setP (pulled.1 ||| 0x20)).charge 2)

/-- NOP (R199): nothing. -/
def executeNop (r : Resolved) : Result := .next r.2

/-! ## The instructions -/

/-- JMP, absolute: R192. -/
def execJmp (lo hi : Byte) (s : State) : Result := executeJmp (resolveAbsolute lo hi s)

/-- JSR, absolute: R193. -/
def execJsr (lo hi : Byte) (s : State) : Result := executeJsr (resolveAbsolute lo hi s)

/-- RTS, implied: R194. -/
def execRts (s : State) : Result := executeRts (resolveImplied s)

/-- PHA, implied: R195. -/
def execPha (s : State) : Result := executePha (resolveImplied s)

/-- PHP, implied: R196. -/
def execPhp (s : State) : Result := executePhp (resolveImplied s)

/-- PLA, implied: R197. -/
def execPla (s : State) : Result := executePla (resolveImplied s)

/-- PLP, implied: R198. -/
def execPlp (s : State) : Result := executePlp (resolveImplied s)

/-- NOP, implied: R199. -/
def execNop (s : State) : Result := executeNop (resolveImplied s)

end Sys2Proof.Machine
end

