-- ==== Sys2Proof/Machine/LoadStore.lean ====
section
/-! DEFINITION. Loads and stores (42_load_store_transfer.md R130 to R135): one executor per mnemonic (R76), one meaning per opcode, which
is its resolver followed by its executor. -/

namespace Sys2Proof.Machine

/-! ## The executors -/

/-- LDA (R130): copies the operand's value into `A` and applies the shared flag rule. -/
def executeLda (r : Resolved) : Result := withValue r fun v s => .next ((s.setA v).setZN v)

/-- LDX (R131). -/
def executeLdx (r : Resolved) : Result := withValue r fun v s => .next ((s.setX v).setZN v)

/-- LDY (R132). -/
def executeLdy (r : Resolved) : Result := withValue r fun v s => .next ((s.setY v).setZN v)

/-- STA (R133): writes `A` at the effective address. -/
def executeSta (r : Resolved) : Result := withEa r fun ea s => .next (s.busWrite ea s.a)

/-- STX (R134). -/
def executeStx (r : Resolved) : Result := withEa r fun ea s => .next (s.busWrite ea s.x)

/-- STY (R135). -/
def executeSty (r : Resolved) : Result := withEa r fun ea s => .next (s.busWrite ea s.y)

/-! ## The instructions -/

/-- LDA, immediate: R130. -/
def execLdaImm (op8 : Byte) (s : State) : Result := executeLda (resolveImmediate op8 s)

/-- LDA, zeropage: R130. -/
def execLdaZp (op8 : Byte) (s : State) : Result := executeLda (resolveZeropage op8 s)

/-- LDA, zeropage,X: R130. -/
def execLdaZpx (op8 : Byte) (s : State) : Result := executeLda (resolveZeropageX op8 s)

/-- LDA, absolute: R130. -/
def execLdaAbs (lo hi : Byte) (s : State) : Result := executeLda (resolveAbsolute lo hi s)

/-- LDA, absolute,X: R130. -/
def execLdaAbx (lo hi : Byte) (s : State) : Result := executeLda (resolveAbsoluteX lo hi s)

/-- LDA, absolute,Y: R130. -/
def execLdaAby (lo hi : Byte) (s : State) : Result := executeLda (resolveAbsoluteY lo hi s)

/-- LDA, (indirect,X): R130. -/
def execLdaIzx (op8 : Byte) (s : State) : Result := executeLda (resolveIndirectX op8 s)

/-- LDA, (indirect),Y: R130. -/
def execLdaIzy (op8 : Byte) (s : State) : Result := executeLda (resolveIndirectY op8 s)

/-- LDX, immediate: R131. -/
def execLdxImm (op8 : Byte) (s : State) : Result := executeLdx (resolveImmediate op8 s)

/-- LDX, zeropage: R131. -/
def execLdxZp (op8 : Byte) (s : State) : Result := executeLdx (resolveZeropage op8 s)

/-- LDX, absolute: R131. -/
def execLdxAbs (lo hi : Byte) (s : State) : Result := executeLdx (resolveAbsolute lo hi s)

/-- LDX, absolute,Y: R131. -/
def execLdxAby (lo hi : Byte) (s : State) : Result := executeLdx (resolveAbsoluteY lo hi s)

/-- LDY, immediate: R132. -/
def execLdyImm (op8 : Byte) (s : State) : Result := executeLdy (resolveImmediate op8 s)

/-- LDY, zeropage: R132. -/
def execLdyZp (op8 : Byte) (s : State) : Result := executeLdy (resolveZeropage op8 s)

/-- LDY, zeropage,X: R132. -/
def execLdyZpx (op8 : Byte) (s : State) : Result := executeLdy (resolveZeropageX op8 s)

/-- LDY, absolute: R132. -/
def execLdyAbs (lo hi : Byte) (s : State) : Result := executeLdy (resolveAbsolute lo hi s)

/-- LDY, absolute,X: R132. -/
def execLdyAbx (lo hi : Byte) (s : State) : Result := executeLdy (resolveAbsoluteX lo hi s)

/-- STA, zeropage: R133. -/
def execStaZp (op8 : Byte) (s : State) : Result := executeSta (resolveZeropage op8 s)

/-- STA, zeropage,X: R133. -/
def execStaZpx (op8 : Byte) (s : State) : Result := executeSta (resolveZeropageX op8 s)

/-- STA, absolute: R133. -/
def execStaAbs (lo hi : Byte) (s : State) : Result := executeSta (resolveAbsolute lo hi s)

/-- STA, absolute,X: R133. -/
def execStaAbx (lo hi : Byte) (s : State) : Result := executeSta (resolveAbsoluteX lo hi s)

/-- STA, absolute,Y: R133. -/
def execStaAby (lo hi : Byte) (s : State) : Result := executeSta (resolveAbsoluteY lo hi s)

/-- STA, (indirect,X): R133. -/
def execStaIzx (op8 : Byte) (s : State) : Result := executeSta (resolveIndirectX op8 s)

/-- STA, (indirect),Y: R133. -/
def execStaIzy (op8 : Byte) (s : State) : Result := executeSta (resolveIndirectY op8 s)

/-- STX, zeropage: R134. -/
def execStxZp (op8 : Byte) (s : State) : Result := executeStx (resolveZeropage op8 s)

/-- STX, absolute: R134. -/
def execStxAbs (lo hi : Byte) (s : State) : Result := executeStx (resolveAbsolute lo hi s)

/-- STY, zeropage: R135. -/
def execStyZp (op8 : Byte) (s : State) : Result := executeSty (resolveZeropage op8 s)

/-- STY, zeropage,X: R135. -/
def execStyZpx (op8 : Byte) (s : State) : Result := executeSty (resolveZeropageX op8 s)

/-- STY, absolute: R135. -/
def execStyAbs (lo hi : Byte) (s : State) : Result := executeSty (resolveAbsolute lo hi s)

end Sys2Proof.Machine
end

