-- ==== Sys2Proof/Machine/Transfer.lean ====
section
/-! DEFINITION. Register transfers (42_load_store_transfer.md R136 to R139). -/

namespace Sys2Proof.Machine

/-! ## The executors -/

/-- TAX (R136): `X <- A`, shared flag rule on the destination. -/
def executeTax (r : Resolved) : Result := .next ((r.2.setX r.2.a).setZN r.2.a)

/-- TXA (R137): `A <- X`. -/
def executeTxa (r : Resolved) : Result := .next ((r.2.setA r.2.x).setZN r.2.x)

/-- TAY (R138): `Y <- A`. -/
def executeTay (r : Resolved) : Result := .next ((r.2.setY r.2.a).setZN r.2.a)

/-- TYA (R139): `A <- Y`. -/
def executeTya (r : Resolved) : Result := .next ((r.2.setA r.2.y).setZN r.2.y)

/-! ## The instructions -/

/-- TAX, implied: R136. -/
def execTax (s : State) : Result := executeTax (resolveImplied s)

/-- TXA, implied: R137. -/
def execTxa (s : State) : Result := executeTxa (resolveImplied s)

/-- TAY, implied: R138. -/
def execTay (s : State) : Result := executeTay (resolveImplied s)

/-- TYA, implied: R139. -/
def execTya (s : State) : Result := executeTya (resolveImplied s)

end Sys2Proof.Machine
end

