-- ==== Sys2Proof/Machine/Execute.lean ====
section
/-! DEFINITION. The executor a mnemonic selects (30_encoding.md R76), for any descriptor a decode table can register. -/

namespace Sys2Proof.Machine

/-- "One routine per mnemonic (not per opcode)" (R76). -/
def execute (m : Mnemonic) (r : Resolved) : Result :=
  match m with
  | .lda => executeLda r
  | .ldx => executeLdx r
  | .ldy => executeLdy r
  | .sta => executeSta r
  | .stx => executeStx r
  | .sty => executeSty r
  | .tax => executeTax r
  | .txa => executeTxa r
  | .tay => executeTay r
  | .tya => executeTya r
  | .inx => executeInx r
  | .iny => executeIny r
  | .and => executeAnd r
  | .adc => executeAdc r
  | .sbc => executeSbc r
  | .clc => executeClc r
  | .sec => executeSec r
  | .cli => executeCli r
  | .sei => executeSei r
  | .clv => executeClv r
  | .cld => executeCld r
  | .sed => executeSed r
  | .bpl => executeBpl r
  | .bmi => executeBmi r
  | .bvc => executeBvc r
  | .bvs => executeBvs r
  | .bcc => executeBcc r
  | .bcs => executeBcs r
  | .bne => executeBne r
  | .beq => executeBeq r
  | .jmp => executeJmp r
  | .jsr => executeJsr r
  | .rts => executeRts r
  | .pha => executePha r
  | .php => executePhp r
  | .pla => executePla r
  | .plp => executePlp r
  | .nop => executeNop r

/-- A descriptor's semantics: its resolver's rule followed by its mnemonic's rule (R76, R93, R94). -/
def runDescriptor (d : Descriptor) (lo hi : Byte) (s : State) : Result := execute d.mnemonic (resolve d.mode lo hi s)

end Sys2Proof.Machine
end

