-- ==== Sys2Proof/Machine/Dispatch.lean ====
section
/-! DEFINITION. `exec`: one arm per constructor of `Instr`, each one call of its meaning. -/

namespace Sys2Proof.Machine

def exec (i : Instr) (s : State) : Host.Outcome State Fault Refusal :=
  match i with
  | .ldaImm op8 => Sys2Proof.Machine.execLdaImm op8 s
  | .ldaZp op8 => Sys2Proof.Machine.execLdaZp op8 s
  | .ldaZpx op8 => Sys2Proof.Machine.execLdaZpx op8 s
  | .ldaAbs lo hi => Sys2Proof.Machine.execLdaAbs lo hi s
  | .ldaAbx lo hi => Sys2Proof.Machine.execLdaAbx lo hi s
  | .ldaAby lo hi => Sys2Proof.Machine.execLdaAby lo hi s
  | .ldaIzx op8 => Sys2Proof.Machine.execLdaIzx op8 s
  | .ldaIzy op8 => Sys2Proof.Machine.execLdaIzy op8 s
  | .ldxImm op8 => Sys2Proof.Machine.execLdxImm op8 s
  | .ldxZp op8 => Sys2Proof.Machine.execLdxZp op8 s
  | .ldxAbs lo hi => Sys2Proof.Machine.execLdxAbs lo hi s
  | .ldxAby lo hi => Sys2Proof.Machine.execLdxAby lo hi s
  | .ldyImm op8 => Sys2Proof.Machine.execLdyImm op8 s
  | .ldyZp op8 => Sys2Proof.Machine.execLdyZp op8 s
  | .ldyZpx op8 => Sys2Proof.Machine.execLdyZpx op8 s
  | .ldyAbs lo hi => Sys2Proof.Machine.execLdyAbs lo hi s
  | .ldyAbx lo hi => Sys2Proof.Machine.execLdyAbx lo hi s
  | .staZp op8 => Sys2Proof.Machine.execStaZp op8 s
  | .staZpx op8 => Sys2Proof.Machine.execStaZpx op8 s
  | .staAbs lo hi => Sys2Proof.Machine.execStaAbs lo hi s
  | .staAbx lo hi => Sys2Proof.Machine.execStaAbx lo hi s
  | .staAby lo hi => Sys2Proof.Machine.execStaAby lo hi s
  | .staIzx op8 => Sys2Proof.Machine.execStaIzx op8 s
  | .staIzy op8 => Sys2Proof.Machine.execStaIzy op8 s
  | .stxZp op8 => Sys2Proof.Machine.execStxZp op8 s
  | .stxAbs lo hi => Sys2Proof.Machine.execStxAbs lo hi s
  | .styZp op8 => Sys2Proof.Machine.execStyZp op8 s
  | .styZpx op8 => Sys2Proof.Machine.execStyZpx op8 s
  | .styAbs lo hi => Sys2Proof.Machine.execStyAbs lo hi s
  | .tax => Sys2Proof.Machine.execTax s
  | .txa => Sys2Proof.Machine.execTxa s
  | .tay => Sys2Proof.Machine.execTay s
  | .tya => Sys2Proof.Machine.execTya s
  | .inx => Sys2Proof.Machine.execInx s
  | .iny => Sys2Proof.Machine.execIny s
  | .andImm op8 => Sys2Proof.Machine.execAndImm op8 s
  | .andZp op8 => Sys2Proof.Machine.execAndZp op8 s
  | .andZpx op8 => Sys2Proof.Machine.execAndZpx op8 s
  | .andAbs lo hi => Sys2Proof.Machine.execAndAbs lo hi s
  | .andAbx lo hi => Sys2Proof.Machine.execAndAbx lo hi s
  | .andAby lo hi => Sys2Proof.Machine.execAndAby lo hi s
  | .andIzx op8 => Sys2Proof.Machine.execAndIzx op8 s
  | .andIzy op8 => Sys2Proof.Machine.execAndIzy op8 s
  | .adcImm op8 => Sys2Proof.Machine.execAdcImm op8 s
  | .adcZp op8 => Sys2Proof.Machine.execAdcZp op8 s
  | .adcZpx op8 => Sys2Proof.Machine.execAdcZpx op8 s
  | .adcAbs lo hi => Sys2Proof.Machine.execAdcAbs lo hi s
  | .adcAbx lo hi => Sys2Proof.Machine.execAdcAbx lo hi s
  | .adcAby lo hi => Sys2Proof.Machine.execAdcAby lo hi s
  | .adcIzx op8 => Sys2Proof.Machine.execAdcIzx op8 s
  | .adcIzy op8 => Sys2Proof.Machine.execAdcIzy op8 s
  | .sbcImm op8 => Sys2Proof.Machine.execSbcImm op8 s
  | .sbcZp op8 => Sys2Proof.Machine.execSbcZp op8 s
  | .sbcZpx op8 => Sys2Proof.Machine.execSbcZpx op8 s
  | .sbcAbs lo hi => Sys2Proof.Machine.execSbcAbs lo hi s
  | .sbcAbx lo hi => Sys2Proof.Machine.execSbcAbx lo hi s
  | .sbcAby lo hi => Sys2Proof.Machine.execSbcAby lo hi s
  | .sbcIzx op8 => Sys2Proof.Machine.execSbcIzx op8 s
  | .sbcIzy op8 => Sys2Proof.Machine.execSbcIzy op8 s
  | .clc => Sys2Proof.Machine.execClc s
  | .sec => Sys2Proof.Machine.execSec s
  | .cli => Sys2Proof.Machine.execCli s
  | .sei => Sys2Proof.Machine.execSei s
  | .clv => Sys2Proof.Machine.execClv s
  | .cld => Sys2Proof.Machine.execCld s
  | .sed => Sys2Proof.Machine.execSed s
  | .bpl op8 => Sys2Proof.Machine.execBpl op8 s
  | .bmi op8 => Sys2Proof.Machine.execBmi op8 s
  | .bvc op8 => Sys2Proof.Machine.execBvc op8 s
  | .bvs op8 => Sys2Proof.Machine.execBvs op8 s
  | .bcc op8 => Sys2Proof.Machine.execBcc op8 s
  | .bcs op8 => Sys2Proof.Machine.execBcs op8 s
  | .bne op8 => Sys2Proof.Machine.execBne op8 s
  | .beq op8 => Sys2Proof.Machine.execBeq op8 s
  | .jmp lo hi => Sys2Proof.Machine.execJmp lo hi s
  | .jsr lo hi => Sys2Proof.Machine.execJsr lo hi s
  | .rts => Sys2Proof.Machine.execRts s
  | .pha => Sys2Proof.Machine.execPha s
  | .php => Sys2Proof.Machine.execPhp s
  | .pla => Sys2Proof.Machine.execPla s
  | .plp => Sys2Proof.Machine.execPlp s
  | .nop => Sys2Proof.Machine.execNop s

end Sys2Proof.Machine
end

