-- ==== Sys2Proof/Machine/Trace.lean ====
section
/-! DEFINITION. The trace line (30_encoding.md R78 to R80): the mnemonic in upper case, one space, the operand rendering of its
mode; the mnemonic alone for implied mode. A line is a list of characters. -/

namespace Sys2Proof.Machine

/-- The mnemonic text, upper case (R80, D21). -/
def mnemonicText : Mnemonic → List Char
  | .lda => ['L', 'D', 'A']
  | .ldx => ['L', 'D', 'X']
  | .ldy => ['L', 'D', 'Y']
  | .sta => ['S', 'T', 'A']
  | .stx => ['S', 'T', 'X']
  | .sty => ['S', 'T', 'Y']
  | .tax => ['T', 'A', 'X']
  | .txa => ['T', 'X', 'A']
  | .tay => ['T', 'A', 'Y']
  | .tya => ['T', 'Y', 'A']
  | .inx => ['I', 'N', 'X']
  | .iny => ['I', 'N', 'Y']
  | .and => ['A', 'N', 'D']
  | .adc => ['A', 'D', 'C']
  | .sbc => ['S', 'B', 'C']
  | .clc => ['C', 'L', 'C']
  | .sec => ['S', 'E', 'C']
  | .cli => ['C', 'L', 'I']
  | .sei => ['S', 'E', 'I']
  | .clv => ['C', 'L', 'V']
  | .cld => ['C', 'L', 'D']
  | .sed => ['S', 'E', 'D']
  | .bpl => ['B', 'P', 'L']
  | .bmi => ['B', 'M', 'I']
  | .bvc => ['B', 'V', 'C']
  | .bvs => ['B', 'V', 'S']
  | .bcc => ['B', 'C', 'C']
  | .bcs => ['B', 'C', 'S']
  | .bne => ['B', 'N', 'E']
  | .beq => ['B', 'E', 'Q']
  | .jmp => ['J', 'M', 'P']
  | .jsr => ['J', 'S', 'R']
  | .rts => ['R', 'T', 'S']
  | .pha => ['P', 'H', 'A']
  | .php => ['P', 'H', 'P']
  | .pla => ['P', 'L', 'A']
  | .plp => ['P', 'L', 'P']
  | .nop => ['N', 'O', 'P']

/-- One upper-case hexadecimal digit (R79). -/
def hexDigit (n : Nat) : Char :=
  ['0', '1', '2', '3', '4', '5', '6', '7', '8', '9', 'A', 'B', 'C', 'D', 'E', 'F'].getD (n % 16) '0'

/-- `$XX`: a byte, zero-padded to two digits (R79). -/
def hex8 (b : Byte) : List Char := ['$', hexDigit (b.toNat / 16), hexDigit b.toNat]

/-- `$XXXX`: a 16-bit value, zero-padded to four digits (R79). -/
def hex16 (w : Word) : List Char :=
  ['$', hexDigit (w.toNat / 4096), hexDigit (w.toNat / 256), hexDigit (w.toNat / 16), hexDigit w.toNat]

/-- The operand rendering of a mode (R78); `pcAfter` is the address after the operand, from which a relative operand's
resolved target is computed. -/
def renderOperand (mode : Mode) (lo hi : Byte) (pcAfter : Word) : List Char :=
  match mode with
  | .implied => []
  | .immediate => '#' :: hex8 lo
  | .relative => hex16 (relativeTarget pcAfter lo)
  | .zeropage => hex8 lo
  | .zeropageX => hex8 lo ++ [',', 'X']
  | .absolute => hex16 (joinBytes hi lo)
  | .absoluteX => hex16 (joinBytes hi lo) ++ [',', 'X']
  | .absoluteY => hex16 (joinBytes hi lo) ++ [',', 'Y']
  | .indirectX => '(' :: hex8 lo ++ [',', 'X', ')']
  | .indirectY => '(' :: hex8 lo ++ [')', ',', 'Y']

/-- The trace line of a decoded instruction (R80). -/
def renderLine (d : Descriptor) (lo hi : Byte) (pcAfter : Word) : List Char :=
  match d.mode with
  | .implied => mnemonicText d.mnemonic
  | _ => mnemonicText d.mnemonic ++ ' ' :: renderOperand d.mode lo hi pcAfter

/-- The end of a step (40_execution_engine.md R90, R97): when the debug flag is on the trace line is produced, else none is. -/
def finishStep (d : Descriptor) (lo hi : Byte) (pcAfter : Word) (r : Result) : Result :=
  match r with
  | .next t => .next { t with trace := if t.debug then some (renderLine d lo hi pcAfter) else none }
  | .fault f => .fault f
  | .refused f => .refused f

end Sys2Proof.Machine
end

