-- ==== Sys2Proof/Machine/Engine.lean ====
section
/-! DEFINITION. The parts of the sequencer (40_execution_engine.md R90 to R94) that `step` calls. -/

namespace Sys2Proof.Machine

/-- Resolve and execute a decoded descriptor (R93, R94): `exec` of the instruction it makes. A pair that a decode table
registers outside the 82 of R75 runs by the same resolvers and executors (log entry 11). -/
def runDecoded (d : Descriptor) (lo hi : Byte) (s : State) : Result :=
  match assemble d lo hi with
  | some i => exec i s
  | none => runDescriptor d lo hi s

/-- Everything of a step after the descriptor is selected: operand bytes, resolver, executor, trace line (R90). -/
def runFetched (d : Descriptor) (s : State) : Result :=
  let o := fetchOperands d.mode.operandBytes s
  finishStep d o.lo o.hi o.st.pc (runDecoded d o.lo o.hi o.st)

/-- One whole step of a core that is not halted (R90): opcode fetch, table lookup, then the instruction or the fault. -/
def stepRunning (s : State) : Result :=
  let f := s.beginStep.fetch8
  match f.2.params.table.lookup f.1 with
  | none => raiseInvalidOpcode f.1 f.2
  | some d => runFetched d f.2

/-- The storage with a byte put where the bus reads `addr`, if that is a cell. -/
def State.memWithByte (s : State) (addr : Word) (b : Byte) : Memory :=
  match s.readPlace addr with
  | .cell c => s.mem.write c b
  | .nothing _ => s.mem
  | .device _ => s.mem

/-- The host loads bytes at ascending addresses, from a 16-bit address on (it wraps), each where the bus reads its address
(70_reset_and_hazards.md R253). -/
def State.load (s : State) (addr : Word) : List Byte → State
  | [] => s
  | b :: rest => State.load { s with mem := s.memWithByte addr b } (addr + 1) rest

end Sys2Proof.Machine
end

