-- ==== Sys2Proof/Machine/Step.lean ====
section
/-! DEFINITION. `step()` (40_execution_engine.md R90): one whole instruction, or the fault; a halted core takes no step (R98). -/

namespace Sys2Proof.Machine

/-- One call of `step()` (R90). -/
def step (s : State) : Host.Outcome State Fault Refusal :=
  match s.halted with
  | some reason => .fault (.coreHalted reason)
  | none => stepRunning s

/-- `s` with the bytes of a word of the opcode table stored where the next step fetches: where the bus reads from `PC` on. -/
def State.withFetchWord (s : State) (nbits w : Nat) : State := s.load s.pc (wordBytes nbits w)

end Sys2Proof.Machine
end

