-- ==== Sys2Proof/Safety.lean ====
section
/-! DEFINITION. The terms in which claims are stated: what a launched machine keeps, which part of the state an instruction
leaves alone, the operand of an instruction as the resolvers compute it, the bus traffic and the cycle cost the spec gives
an instruction (written apart from the meanings), and a run up to the host's stop condition. -/

namespace Sys2Proof.Machine

/-! ## The invariant -/

/-- What holds of the machine between steps (10_state.md R42): bit 5 of `P` is 1 and the decode table has 256 entries; the core
is not halted (R98). That each entry's executor finds its operand and that memory is canonical is the model's own (log 15). -/
abbrev Inv (s : State) : Prop :=
  s.p.getLsbD 5 = true ∧ s.params.table.wf = true ∧ s.halted = none ∧ s.mem.wf = true

/-! ## Frames -/

/-- The parts of the state a frame speaks of. The bus log and the bus history, which every bus access moves, are stated apart.
-/
inductive Loc where
  | a
  | x
  | y
  | sp
  | pc
  | flag (f : Flag)
  | statusBit5
  | cycles
  | halted
  | memory
  | debug
  | trace
  | params
  deriving DecidableEq, Repr

/-- This part of the state is the same in both states; memory cell by cell, through the model's read of one. -/
def Loc.same (l : Loc) (s t : State) : Prop :=
  match l with
  | .a => t.a = s.a
  | .x => t.x = s.x
  | .y => t.y = s.y
  | .sp => t.sp = s.sp
  | .pc => t.pc = s.pc
  | .flag f => t.flag f = s.flag f
  | .statusBit5 => t.p.getLsbD 5 = s.p.getLsbD 5
  | .cycles => t.cycles = s.cycles
  | .halted => t.halted = s.halted
  | .memory => ∀ c : Nat, t.mem.read c = s.mem.read c
  | .debug => t.debug = s.debug
  | .trace => t.trace = s.trace
  | .params => t.params = s.params

/-- From `s` to `t` nothing changes but the parts named. -/
def keeps (written : List Loc) (s t : State) : Prop := ∀ l : Loc, l ∉ written → l.same s t

/-- Every cell of memory outside those named reads as before. -/
def memoryOutside (stored : List Nat) (s t : State) : Prop := ∀ c : Nat, c ∉ stored → t.mem.read c = s.mem.read c

/-- The cell a bus write to an address stores to; none where the bus ignores the write or a device takes it. -/
def State.storedCells (s : State) (addr : Word) : List Nat :=
  match s.writePlace addr with
  | .cell c => [c]
  | .nothing _ | .device _ => []

/-- The bus takes every access to this address to the address's own cell, whatever memory holds. -/
abbrev plainAt (s : State) (addr : Word) : Prop := ∀ w ∈ s.params.readMap ++ s.params.writeMap, windowHolds w addr = false

/-- The bus is a plain memory at every address: the default `P_BUS`. -/
def plainBus (s : State) : Prop :=
  ∀ addr : Word, s.readPlace addr = .cell addr.toNat ∧ s.writePlace addr = .cell addr.toNat

/-- No window of the read function is a device's. -/
def noDevice (s : State) : Prop := ∀ w ∈ s.params.readMap, ∀ number, w.target ≠ .device number

/-! ## The operand of an instruction -/

/-- What the resolver of an instruction's mode answers in a state whose `PC` is past the instruction. -/
def resolved (i : Instr) (s : State) : Resolved := resolve i.mode i.lo i.hi s

/-- The effective address of an instruction. -/
def eaOf (i : Instr) (s : State) : Option Word := (resolved i s).1.ea

/-- The byte an instruction's executor finds as its operand's value. -/
def operandOf (i : Instr) (s : State) : Option Byte := (operandValue (resolved i s)).map Prod.fst

/-- A resolver with the fetch of its operand bytes, from a state whose `PC` is at the first of them (41_addressing_modes.md). -/
def fetchAndResolve (m : Mode) (s : State) : Resolved :=
  let o := fetchOperands m.operandBytes s
  resolve m o.lo o.hi o.st

/-- The register a store writes to memory (R133 to R135). -/
def storedRegister (m : Mnemonic) (s : State) : Option Byte :=
  match m with
  | .sta => some s.a
  | .stx => some s.x
  | .sty => some s.y
  | _ => none

/-! ## Bus traffic -/

/-- The reads of these addresses in order, the first being made after the transactions `past`, newest first. -/
def readsAfter (s : State) : List BusAccess → List Word → List BusAccess
  | _, [] => []
  | past, addr :: rest =>
    .read addr (s.busByteAfter past addr) :: readsAfter s (.read addr (s.busByteAfter past addr) :: past) rest

/-- The reads of these addresses in order, from this state. -/
def State.reads (s : State) (addrs : List Word) : List BusAccess := readsAfter s s.history addrs

/-- The state after reading these addresses in order: only the bus log and the bus history move. -/
def State.afterReads (s : State) (addrs : List Word) : State :=
  { s with busLog := s.busLog ++ s.reads addrs, history := (s.reads addrs).reverse ++ s.history }

/-- The state after fetching the opcode byte and `n` operand bytes of the next instruction (R90 to R93). -/
def State.afterFetch (s : State) (n : Nat) : State :=
  { s.beginStep.afterReads ((List.range (n + 1)).map fun k => s.pc + BitVec.ofNat 16 k) with pc := s.pc + BitVec.ofNat 16 (n + 1) }

/-- The three bytes the bus has for the next instruction: at `PC`, `PC + 1` and `PC + 2`, read in this order. -/
def State.nextBytes (s : State) : List Byte :=
  [s.busByte s.pc, (s.afterReads [s.pc]).busByte (s.pc + 1), (s.afterReads [s.pc, s.pc + 1]).busByte (s.pc + 2)]

/-- The seven memory modes (41_addressing_modes.md R111). -/
def isMemoryMode : Mode → Bool
  | .implied | .immediate | .relative => false
  | .zeropage | .zeropageX | .absolute | .absoluteX | .absoluteY | .indirectX | .indirectY => true

/-- The addresses of the pointer bytes an indirect mode reads (R109, R110, R114). -/
def pointerAddrs (i : Instr) (s : State) : List Word :=
  match i.mode with
  | .indirectX => [zext16 (i.lo + s.x)]
  | .indirectY =>
    match s.params.indyPtr with
    | .one => [zext16 i.lo]
    | .two => [zext16 i.lo, zext16 (i.lo + 1)]
  | .implied | .immediate | .relative | .zeropage | .zeropageX | .absolute | .absoluteX | .absoluteY => []

/-- The read at the effective address (R111): every memory mode under `always`, only the users of the value under `on_use`. -/
def operandAddrs (i : Instr) (s : State) : List Word :=
  if isMemoryMode i.mode && (s.params.eaRead == .always || i.mnemonic.usesValue) then (eaOf i s).toList else []

/-- The executor's own bus accesses in the order its rule lists them, made after the reads `before` (R130 to R199). -/
def executorAccesses (i : Instr) (s : State) (before : List Word) : List BusAccess :=
  match i.mnemonic with
  | .sta => (eaOf i s).toList.map fun ea => .write ea s.a
  | .stx => (eaOf i s).toList.map fun ea => .write ea s.x
  | .sty => (eaOf i s).toList.map fun ea => .write ea s.y
  | .pha => [.write (stackAddr s.sp) s.a]
  | .php => [.write (stackAddr s.sp) s.p]
  | .jsr => [.write (stackAddr s.sp) (highByte (s.pc - 1)), .write (stackAddr (s.sp - 1)) (lowByte (s.pc - 1))]
  | .pla | .plp => (s.afterReads before).reads [stackAddr (s.sp + 1)]
  | .rts => (s.afterReads before).reads [stackAddr (s.sp + 1), stackAddr (s.sp + 2)]
  | .lda | .ldx | .ldy | .tax | .txa | .tay | .tya | .inx | .iny | .and | .adc | .sbc | .clc | .sec | .cli | .sei | .clv
  | .cld | .sed | .bpl | .bmi | .bvc | .bvs | .bcc | .bcs | .bne | .beq | .jmp | .nop => []

/-- The bus accesses of an instruction after its bytes are fetched: pointer, effective address, executor (20_memory.md R62). -/
def instrAccesses (i : Instr) (s : State) : List BusAccess :=
  let before := pointerAddrs i s ++ operandAddrs i s
  s.reads before ++ executorAccesses i s before

/-- The decoded operand and the state that a memory mode gives: `operands` operand bytes at `PC` are fetched, then the pointer
addresses are read, then, with `P_EA_READ = always`, the effective address; the byte there is latched. -/
def resolvesTo (m : Mode) (s : State) (pointers : List Word) (ea : Word) (crossed : Bool) (cost : Nat) : Prop :=
  let fetches := (List.range m.operandBytes).map fun k => s.pc + BitVec.ofNat 16 k
  let before := fetches ++ pointers
  let after := fun reads => ((s.afterReads reads).setPc (s.pc + BitVec.ofNat 16 m.operandBytes)).charge cost
  match s.params.eaRead with
  | .always => fetchAndResolve m s =
      (⟨some ((s.afterReads before).busByte ea), some ea, crossed⟩, after (before ++ [ea]))
  | .onUse => fetchAndResolve m s = (⟨none, some ea, crossed⟩, after before)

/-! ## Flag instructions, branch tests and cycle costs -/

/-- The flag instructions, the flag each writes and the value it writes (44_flags_and_branches.md R170 to R176). -/
def flagInstructions : List (Instr × Flag × Bool) :=
  [(.clc, .c, false), (.sec, .c, true), (.cli, .i, false), (.sei, .i, true), (.clv, .v, false), (.cld, .d, false), (.sed, .d, true)]

/-- The flag each branch tests and the value it is taken on (44_flags_and_branches.md R178 to R185). -/
def branchTests : List (Mnemonic × Flag × Bool) :=
  [(.bpl, .n, false), (.bmi, .n, true), (.bvc, .v, false), (.bvs, .v, true),
   (.bcc, .c, false), (.bcs, .c, true), (.bne, .z, false), (.beq, .z, true)]

/-- The cost of each opcode without its extras (70_reset_and_hazards.md R259's table). -/
def cycleTable : List (Byte × Nat) :=
  [(0xA9, 2), (0xA5, 3), (0xB5, 3), (0xAD, 4), (0xBD, 4), (0xB9, 4), (0xA1, 2), (0xB1, 2), (0xA2, 2)]
  ++ [(0xA6, 3), (0xAE, 4), (0xBE, 4), (0xA0, 2), (0xA4, 3), (0xB4, 3), (0xAC, 4), (0xBC, 4), (0x85, 3)]
  ++ [(0x95, 3), (0x8D, 4), (0x9D, 4), (0x99, 4), (0x81, 2), (0x91, 2), (0x86, 3), (0x8E, 4), (0x84, 3)]
  ++ [(0x94, 3), (0x8C, 4), (0xAA, 2), (0x8A, 2), (0xA8, 2), (0x98, 2), (0xE8, 2), (0xC8, 2), (0x29, 2)]
  ++ [(0x25, 3), (0x35, 3), (0x2D, 4), (0x3D, 4), (0x39, 4), (0x21, 2), (0x31, 2), (0x69, 2), (0x65, 3)]
  ++ [(0x75, 3), (0x6D, 4), (0x7D, 4), (0x79, 4), (0x61, 2), (0x71, 2), (0xE9, 2), (0xE5, 3), (0xF5, 3)]
  ++ [(0xED, 4), (0xFD, 4), (0xF9, 4), (0xE1, 2), (0xF1, 2), (0x18, 2), (0x38, 2), (0x58, 2), (0x78, 2)]
  ++ [(0xB8, 2), (0xD8, 2), (0xF8, 2), (0x10, 2), (0x30, 2), (0x50, 2), (0x70, 2), (0x90, 2), (0xB0, 2)]
  ++ [(0xD0, 2), (0xF0, 2), (0x4C, 4), (0x20, 6), (0x60, 6), (0x48, 3), (0x08, 3), (0x68, 4), (0x28, 4)]
  ++ [(0xEA, 2)]

/-- The cost a resolver charges without the page cross (41_addressing_modes.md R100's table). -/
def baseCost : Mode → Nat
  | .implied | .immediate | .relative | .indirectX | .indirectY => 2
  | .zeropage | .zeropageX => 3
  | .absolute | .absoluteX | .absoluteY => 4

/-- "+1 on page cross" (R112): adding the index carries out of the low byte; for (indirect),Y the sum's high byte is not zero. -/
def crossingExtra (i : Instr) (s : State) : Nat :=
  match i.mode with
  | .absoluteX => if 256 ≤ i.lo.toNat + s.x.toNat then 1 else 0
  | .absoluteY => if 256 ≤ i.lo.toNat + s.y.toNat then 1 else 0
  | .indirectY => if (eaOf i s).any (fun ea => decide (256 ≤ ea.toNat)) then 1 else 0
  | .implied | .immediate | .relative | .zeropage | .zeropageX | .absolute | .indirectX => 0

/-- "+1 if taken" (R177). -/
def takenExtra (i : Instr) (s : State) : Nat :=
  if branchTests.any (fun b => b.1 == i.mnemonic && s.flag b.2.1 == b.2.2) then 1 else 0

/-- The cycle cost of an instruction in a state (R259). -/
def cycleCost (i : Instr) (s : State) : Nat :=
  ((cycleTable.lookup i.opcode).getD 0) + crossingExtra i s + takenExtra i s

/-! ## Bytes that are no opcode -/

/-- The 174 invalid bytes of the default table, as 30_encoding.md R77 lists them. -/
def invalidBytes : List Byte :=
  [0x00, 0x01, 0x02, 0x03, 0x04, 0x05, 0x06, 0x07, 0x09, 0x0A, 0x0B, 0x0C, 0x0D, 0x0E, 0x0F, 0x11, 0x12, 0x13, 0x14, 0x15]
  ++ [0x16, 0x17, 0x19, 0x1A, 0x1B, 0x1C, 0x1D, 0x1E, 0x1F, 0x22, 0x23, 0x24, 0x26, 0x27, 0x2A, 0x2B, 0x2C, 0x2E, 0x2F, 0x32]
  ++ [0x33, 0x34, 0x36, 0x37, 0x3A, 0x3B, 0x3C, 0x3E, 0x3F, 0x40, 0x41, 0x42, 0x43, 0x44, 0x45, 0x46, 0x47, 0x49, 0x4A, 0x4B]
  ++ [0x4D, 0x4E, 0x4F, 0x51, 0x52, 0x53, 0x54, 0x55, 0x56, 0x57, 0x59, 0x5A, 0x5B, 0x5C, 0x5D, 0x5E, 0x5F, 0x62, 0x63, 0x64]
  ++ [0x66, 0x67, 0x6A, 0x6B, 0x6C, 0x6E, 0x6F, 0x72, 0x73, 0x74, 0x76, 0x77, 0x7A, 0x7B, 0x7C, 0x7E, 0x7F, 0x80, 0x82, 0x83]
  ++ [0x87, 0x88, 0x89, 0x8B, 0x8F, 0x92, 0x93, 0x96, 0x97, 0x9A, 0x9B, 0x9C, 0x9E, 0x9F, 0xA3, 0xA7, 0xAB, 0xAF, 0xB2, 0xB3]
  ++ [0xB6, 0xB7, 0xBA, 0xBB, 0xBF, 0xC0, 0xC1, 0xC2, 0xC3, 0xC4, 0xC5, 0xC6, 0xC7, 0xC9, 0xCA, 0xCB, 0xCC, 0xCD, 0xCE, 0xCF]
  ++ [0xD1, 0xD2, 0xD3, 0xD4, 0xD5, 0xD6, 0xD7, 0xD9, 0xDA, 0xDB, 0xDC, 0xDD, 0xDE, 0xDF, 0xE0, 0xE2, 0xE3, 0xE4, 0xE6, 0xE7]
  ++ [0xEB, 0xEC, 0xEE, 0xEF, 0xF2, 0xF3, 0xF4, 0xF6, 0xF7, 0xFA, 0xFB, 0xFC, 0xFE, 0xFF]

/-! ## Runs -/

/-- How a run up to the host's stop condition ends (70_reset_and_hazards.md R255): stopped, or by the fault, which is no normal
end, or refused, or not yet. -/
inductive RunEnd where
  | stopped (s : State)
  | faulted (f : Fault)
  | refused (r : Refusal)
  | running (s : State)
  deriving DecidableEq, Repr

/-- The host calls `step()` at most `n` times, until its stop condition `P_STOP` holds after a step (R255). -/
def runUntil (stop : State → Bool) : Nat → State → RunEnd
  | 0, s => .running s
  | n + 1, s =>
    match step s with
    | .next t => if stop t then .stopped t else runUntil stop n t
    | .fault f => .faulted f
    | .refused r => .refused r

end Sys2Proof.Machine
end

