-- ==== Sys2Proof/Certificates/Slice0/Obligations.lean ====
section
/-! DEFINITION. The statements for the provers. Each docstring names the rule of spec/ it formalises. -/

open Sys2Proof Sys2Proof.Machine

/-! ## Reset, launch and the machine's invariant -/

/-- R41, R250: construction leaves the stated value in every register, whatever the host's parameters and memory. The debug flag
off (log entry 9), the memory of the reset state with nothing listed (log entry 2) and the default table, the one the
registrations of R75 build (the spec's own choice D1, log entry 16), are choices. -/
def Obligations.ConstructionValues : Prop :=
  (∀ (params : Params) (mem : Memory), ∃ s, construct params mem = s ∧
    s.a = 0x00 ∧ s.x = 0x00 ∧ s.y = 0x00 ∧ s.pc = 0x0000 ∧ s.sp = 0xFF ∧ s.p = 0x20 ∧ s.cycles = 0 ∧ s.halted = none ∧
    s.debug = false ∧ s.params = params ∧ s.mem = mem ∧
    (∀ f : Flag, s.flag f = false) ∧ s.p.getLsbD 5 = true) ∧
  State.reset = construct Params.default [] ∧
  Params.default.table = DecodeTable.construct defaultRegistrations

/-- The invariant holds of the reset state (its memory, nothing listed, is log entry 2; the invariant's own demands are log entry
15). -/
def Obligations.ResetMeetsInvariant : Prop := Inv State.reset

/-- Every step keeps the invariant: bit 5 of `P` set, 256 table entries, not halted (10_state.md); that the entries are well
formed and memory is canonical is the model's own (log entry 15). -/
def Obligations.StepKeepsInvariant : Prop :=
  ∀ s t : State, Inv s → step s = .next t → Inv t

/-- R42: in every state reached from any admitted launch state bit 5 of `P` is 1, every register is in its range and the table
has 256 entries, and `cycles` is no less than in any earlier state of the run; the halted state a fault leaves is one of them. -/
def Obligations.ReachableStatesMeetR42 : Prop :=
  ∀ s s₀ t u : State, ∀ m n : Nat, launch s = .next s₀ →
    Sys2Proof.core.run m s₀ = .next t → Sys2Proof.core.run n t = .next u →
    u.p.getLsbD 5 = true ∧ u.a.toNat ≤ 255 ∧ u.x.toNat ≤ 255 ∧ u.y.toNat ≤ 255 ∧ u.sp.toNat ≤ 255 ∧ u.pc.toNat ≤ 65535 ∧
    u.params.table.sized = true ∧ t.cycles ≤ u.cycles ∧
    ∀ op left, step u = .fault (.invalidOpcode op left) →
      left.p.getLsbD 5 = true ∧ left.params.table.sized = true ∧ u.cycles ≤ left.cycles

/-- R254 (and 93_implementation_defined.md U3, U11): the host's launch is accepted exactly for a state that meets the invariant,
and starts from that very state: bit 5 of `P` set, `halted = none`, a table of 256 entries. That each entry is well formed and
that the memory list is canonical is the model's own demand (log entry 15). -/
def Obligations.LaunchAdmitsExactlyTheInvariant : Prop :=
  ∀ s t : State, launch s = .next t ↔ t = s ∧ Inv s

/-- No step changes the parameters or the debug flag. Of the decode table the spec says so (10_state.md R34); of the other
parameters and of the flag, which the host sets, the model says it (log entry 1). -/
def Obligations.StepKeepsParameters : Prop :=
  ∀ s t : State, step s = .next t → t.params = s.params ∧ t.debug = s.debug

/-! ## The sequencer and the fault -/

/-- R90 to R94: when the bytes at `PC` decode, under the table in force, to an instruction, the step completes and is `exec` of it
in the state whose `PC` is past its bytes and whose bus log holds their fetches; the trace line is set after it and nothing else
is added. That `exec` begins after the operand fetches is log entry 10. -/
def Obligations.StepRunsDecodedInstruction : Prop :=
  ∀ (s : State) (i : Instr) (rest : List Byte), s.halted = none → decode s.params.table s.nextBytes = .ok (i, rest) →
    ∃ t, exec i (s.afterFetch i.mode.operandBytes) = .next t ∧
      step s = .next { t with
        trace := if t.debug then
          some (renderLine i.descriptor i.lo i.hi (s.pc + BitVec.ofNat 16 (1 + i.mode.operandBytes))) else none }

/-- R92, R222: a step whose opcode byte is not registered raises the fault with that byte; the state it leaves has `halted =
InvalidOpcode(op)` and `PC` past the opcode byte, one bus read has happened, and nothing else has changed (the spec's own choice
D11; that the fault carries the state is the model's, log entry 5). -/
def Obligations.InvalidOpcodeHaltsTheCore : Prop :=
  ∀ s : State, s.halted = none → s.params.table.lookup (s.busByte s.pc) = none →
    ∃ left : State, step s = .fault (.invalidOpcode (s.busByte s.pc) left) ∧
      left.halted = some (.invalidOpcode (s.busByte s.pc)) ∧ left.pc = s.pc + 1 ∧
      left.busLog = [.read s.pc (s.busByte s.pc)] ∧ left.trace = none ∧ left.mem = s.mem ∧
      keeps [.pc, .halted, .trace] s left

/-- R98 (the spec's own choice D11): a halted core takes no step; that its step answers a fault is log entry 6. -/
def Obligations.HaltedCoreTakesNoStep : Prop :=
  ∀ (s : State) (reason : HaltReason), s.halted = some reason →
    step s = .fault (.coreHalted reason) ∧ ∀ t, step s ≠ .next t

/-- R220: with a well-formed table a running core's step is refused never, and faults only for an unregistered opcode byte. -/
def Obligations.OnlyAnInvalidOpcodeFaults : Prop :=
  ∀ s : State, s.halted = none → s.params.table.wf = true →
    ((∃ t, step s = .next t) ↔ s.params.table.lookup (s.busByte s.pc) ≠ none) ∧
    ((∃ left, step s = .fault (.invalidOpcode (s.busByte s.pc) left)) ↔
      s.params.table.lookup (s.busByte s.pc) = none)

/-- R230 (the spec's own choice D15): every admitted instruction may run in every state, and completes. -/
def Obligations.EveryInstructionCompletes : Prop :=
  ∀ (i : Instr) (s : State), ∃ t, exec i s = .next t

/-- R76: an instruction is its mode's resolver followed by its mnemonic's executor. -/
def Obligations.InstructionIsResolverThenExecutor : Prop :=
  ∀ (i : Instr) (s : State), exec i s = execute i.mnemonic (resolve i.mode i.lo i.hi s)

/-- R25, R70, R71: an instruction that is no branch, jump, call or return moves `PC` past its own bytes, wrapping. -/
def Obligations.SequentialInstructionsAdvancePc : Prop :=
  ∀ (s t : State) (i : Instr) (rest : List Byte), s.halted = none → decode s.params.table s.nextBytes = .ok (i, rest) →
    step s = .next t →
    i.mnemonic ∉ [.bpl, .bmi, .bvc, .bvs, .bcc, .bcs, .bne, .beq, .jmp, .jsr, .rts] →
    t.pc.toNat = (s.pc.toNat + (encode i).length) % 65536

/-- R255 (the spec's own choice D20; `runUntil` is log entry 17): a run of at most `n` steps is ended by the stop condition
exactly in the first state after a step in which the condition holds, reached by steps that all completed; it has not ended
exactly when `n` steps have completed and the condition held after none; it has faulted exactly when a step faults before `n`
steps and the condition held after none before it, and then it has not ended normally: no longer and no shorter run of it ever
stops. -/
def Obligations.RunStopsWhereTheHostStops : Prop :=
  ∀ (stop : State → Bool) (n : Nat) (s : State),
    (∀ t, runUntil stop n s = .stopped t ↔
      stop t = true ∧ ∃ k, k < n ∧ Sys2Proof.core.run (k + 1) s = .next t ∧
        ∀ j u, j < k → Sys2Proof.core.run (j + 1) s = .next u → stop u = false) ∧
    (∀ t, runUntil stop n s = .running t ↔
      Sys2Proof.core.run n s = .next t ∧ ∀ j u, j < n → Sys2Proof.core.run (j + 1) s = .next u → stop u = false) ∧
    (∀ f, runUntil stop n s = .faulted f ↔
      ∃ k u, k < n ∧ Sys2Proof.core.run k s = .next u ∧ step u = .fault f ∧
        ∀ j v, j < k → Sys2Proof.core.run (j + 1) s = .next v → stop v = false) ∧
    (∀ f, runUntil stop n s = .faulted f → ∀ m t, runUntil stop m s ≠ .stopped t)

/-! ## Encoding -/

/-- R77 (30_encoding.md section 4; the spec's own choice D1): under the default table the bytes with no descriptor are exactly the 174 the rule lists. -/
def Obligations.InvalidBytesAreTheListed : Prop :=
  invalidBytes.length = 174 ∧ ∀ op : Byte, defaultTable.lookup op = none ↔ op ∈ invalidBytes

/-- R74: all slots start invalid; a registration binds its byte, whatever was registered before, and no other byte. -/
def Obligations.LastRegistrationWins : Prop :=
  (∀ op : Byte, (DecodeTable.construct []).lookup op = none) ∧
  ∀ (rs : List (Byte × Descriptor)) (op : Byte) (d : Descriptor),
    (DecodeTable.construct (rs ++ [(op, d)])).lookup op = some d ∧
    ∀ op' : Byte, op' ≠ op → (DecodeTable.construct (rs ++ [(op, d)])).lookup op' = (DecodeTable.construct rs).lookup op'

/-- R70, R71: decoding the bytes of a well-formed instruction gives it back, with every operand bit, and leaves what follows. -/
def Obligations.DecodeEncodeRoundTrip : Prop :=
  ∀ (t : DecodeTable) (i : Instr) (rest : List Byte), i.wf t → decode t (encode i ++ rest) = .ok (i, rest)

/-- Under the default table (its bytes but A9 and 20 are the spec's own choice D1, log entry 16) every instruction is well formed,
and bytes that decode are the encoding of what they decode to: no two byte strings are one instruction. -/
def Obligations.EncodeDecodeRoundTrip : Prop :=
  (∀ i : Instr, i.wf defaultTable) ∧
  ∀ (bytes rest : List Byte) (i : Instr), decode defaultTable bytes = .ok (i, rest) → bytes = encode i ++ rest

/-- Words written out from R75's table, one or more of every family (the opcode bytes but A9 and 20 are the spec's choice, D1).
-/
def Obligations.SampleWordsDecode : Prop :=
  decodeTableWord 16 0b0000010110101001 = some (.ldaImm 0x05) ∧
  decodeTableWord 24 0b000100100011010010111110 = some (.ldxAby 0x34 0x12) ∧
  decodeTableWord 16 0b1111111110010100 = some (.styZpx 0xFF) ∧
  decodeTableWord 8 0b10001010 = some .txa ∧
  decodeTableWord 16 0b1000011001110001 = some (.adcIzy 0x86) ∧
  decodeTableWord 24 0b000100101111000011111101 = some (.sbcAbx 0xF0 0x12) ∧
  decodeTableWord 8 0b10111000 = some .clv ∧
  decodeTableWord 16 0b1111000010110000 = some (.bcs 0xF0) ∧
  decodeTableWord 24 0b000100100011010000100000 = some (.jsr 0x34 0x12) ∧
  decodeTableWord 8 0b00101000 = some .plp ∧
  decodeTableWord 8 0b00000000 = none

/-! ## The bus -/

/-- R51 (the default bus is the spec's own choice D17): a write sets the byte at its address and changes no other byte. -/
def Obligations.BusWriteSetsOneByte : Prop :=
  ∀ (s : State) (addr : Word) (v : Byte), plainBus s → s.mem.wf = true →
    (s.busWrite addr v).mem.read addr.toNat = v ∧ memoryOutside [addr.toNat] s (s.busWrite addr v)

/-- R50: a bus read is defined at every address; on the default bus (the spec's own choice D17) it returns memory's byte; it
changes no register and no byte. -/
def Obligations.BusReadReturnsTheByte : Prop :=
  ∀ (s : State) (addr : Word), plainBus s →
    (s.busRead addr).1 = s.mem.read addr.toNat ∧ keeps [] s (s.busRead addr).2 ∧
    (s.busRead addr).2.busLog = s.busLog ++ [.read addr (s.mem.read addr.toNat)]

/-- `P_BUS` in the model's form (log entry 3, after R58 and 93_implementation_defined.md U5): a cell answers its byte and takes a
write; where nothing answers a read gives the open-bus value and a write changes nothing; a device keeps a write to itself and
answers any byte, free for each device and for everything the bus has done before (log entry 4); and every transaction, read or
write, is added to that history, so that no two reads of a device meet the same history. -/
def Obligations.BusWindowsOutsideRam : Prop :=
  ∀ (s : State) (addr : Word) (v : Byte),
    (∀ c, s.readPlace addr = .cell c → (s.busRead addr).1 = s.mem.read c) ∧
    (∀ b, s.readPlace addr = .nothing b → (s.busRead addr).1 = b) ∧
    (∀ k, s.readPlace addr = .device k → (s.busRead addr).1 = Config.deviceByte k s.history addr) ∧
    (∀ c, s.writePlace addr = .cell c → (s.busWrite addr v).mem = s.mem.write c v) ∧
    ((∀ c, s.writePlace addr ≠ .cell c) → (s.busWrite addr v).mem = s.mem) ∧
    (s.busRead addr).2.history = .read addr (s.busRead addr).1 :: s.history ∧
    (s.busWrite addr v).history = .write addr v :: s.history

/-- R62 (the place of the pointer read and of the executor's accesses is the spec's own reading D18): the bus accesses of a step
are, in order, the opcode fetch, the operand bytes low to high, the pointer read, the read at the effective address, and the
executor's accesses as its rule lists them; each of them joins the bus history, the model's own field (log entry 4). -/
def Obligations.BusAccessOrder : Prop :=
  ∀ (s t : State) (i : Instr) (rest : List Byte), s.halted = none → decode s.params.table s.nextBytes = .ok (i, rest) →
    step s = .next t →
    t.busLog = (s.afterFetch i.mode.operandBytes).busLog ++ instrAccesses i (s.afterFetch i.mode.operandBytes) ∧
    t.history = t.busLog.reverse ++ s.history

/-- R111 (the spec's own choice D3): on a bus without devices the two choices of `P_EA_READ` give the same state but for the bus
traffic. -/
def Obligations.EaReadChoiceMovesOnlyTraffic : Prop :=
  ∀ (i : Instr) (s : State), noDevice s →
    ∃ t u : State, exec i { s with params := { s.params with eaRead := .always } } = .next t ∧
      exec i { s with params := { s.params with eaRead := .onUse } } = .next u ∧
      u = { t with busLog := u.busLog, history := u.history, params := { t.params with eaRead := .onUse } }

/-- R65: a byte that an STA stores in a cell is what a later fetch at its address gets, if that fetch reads that cell (as it does
on the default bus, D17; other buses are log entry 3). -/
def Obligations.FetchSeesStoredByte : Prop :=
  ∀ (i : Instr) (s : State) (ea : Word) (c : Nat), i.mnemonic = .sta → eaOf i s = some ea → s.writePlace ea = .cell c →
    s.mem.wf = true →
    ∃ t, exec i s = .next t ∧
      (t.readPlace ea = .cell c → (t.setPc ea).fetch8.1 = s.a ∧ (t.setPc ea).fetch8.2.pc = ea + 1) ∧
      (plainAt s ea → t.readPlace ea = .cell c)

/-! ## The resolvers -/

/-- R100: a resolver, with the fetch of its operand bytes, only reads the bus; it writes no `A`, `X`, `Y`, `SP`, `P` and no
memory, moves `PC` past its operand bytes, and charges its mode's base cost, plus one exactly where the operand it hands on is
marked as crossing a page, which only absolute,X, absolute,Y and (indirect),Y can be. -/
def Obligations.ResolversOnlyReadTheBus : Prop :=
  ∀ (m : Mode) (s : State), ∃ reads : List Word,
    (fetchAndResolve m s).2 = { s.afterReads reads with
      pc := s.pc + BitVec.ofNat 16 m.operandBytes,
      cycles := s.cycles + baseCost m + (fetchAndResolve m s).1.crossed.toNat } ∧
    ((fetchAndResolve m s).1.crossed = true → m ∈ [.absoluteX, .absoluteY, .indirectY])

/-- R101, R102, R103: implied latches nothing, immediate the operand byte, relative the target `PC_after_operand + offset`
modulo 2^16 with the offset signed; each charges 2. -/
def Obligations.ResolveWithoutMemory : Prop :=
  ∀ s : State,
    fetchAndResolve .implied s = (⟨none, none, false⟩, s.charge 2) ∧
    fetchAndResolve .immediate s =
      (⟨some (s.busByte s.pc), none, false⟩, ((s.afterReads [s.pc]).setPc (s.pc + 1)).charge 2) ∧
    ∃ target : Word,
      (target.toNat : Int) = ((s.pc + 1).toNat + (s.busByte s.pc).toInt) % 65536 ∧
      fetchAndResolve .relative s =
        (⟨some (s.busByte s.pc), some target, false⟩, ((s.afterReads [s.pc]).setPc (s.pc + 1)).charge 2)

/-- R104, R105: the zero-page modes. The sum with `X` wraps modulo 256; no crossing is ever charged. -/
def Obligations.ResolveZeropageModes : Prop :=
  ∀ s : State, ∃ zp zpx : Word,
    zp.toNat = (s.busByte s.pc).toNat ∧ resolvesTo .zeropage s [] zp false 3 ∧
    zpx.toNat = ((s.busByte s.pc).toNat + s.x.toNat) % 256 ∧ resolvesTo .zeropageX s [] zpx false 3

/-- R106, R107, R108 (their wrap at `0xFFFF` is the spec's own reading D8): the absolute modes. The operand is little-endian,
the indexed sum wraps modulo 2^16, and the +1 is charged, for every mnemonic, exactly when adding the index carries out of the
low byte, so that the high byte changes (R112). -/
def Obligations.ResolveAbsoluteModes : Prop :=
  ∀ (s : State) (lo hi : Byte), lo = s.busByte s.pc → hi = (s.afterReads [s.pc]).busByte (s.pc + 1) →
    ∃ ea eax eay : Word,
      ea.toNat = lo.toNat + 256 * hi.toNat ∧ resolvesTo .absolute s [] ea false 4 ∧
      eax.toNat = (lo.toNat + 256 * hi.toNat + s.x.toNat) % 65536 ∧
      resolvesTo .absoluteX s [] eax (decide (256 ≤ lo.toNat + s.x.toNat)) (if 256 ≤ lo.toNat + s.x.toNat then 5 else 4) ∧
      eay.toNat = (lo.toNat + 256 * hi.toNat + s.y.toNat) % 65536 ∧
      resolvesTo .absoluteY s [] eay (decide (256 ≤ lo.toNat + s.y.toNat)) (if 256 ≤ lo.toNat + s.y.toNat then 5 else 4)

/-- R109, R113 (the spec's own reading D4): (indirect,X). The pointer address wraps in the zero page, one pointer byte is read
and gives the low byte; the high byte is zero, so that the address stays in the zero page, or under `draw` any byte; the charge
is 2. -/
def Obligations.ResolveIndirectX : Prop :=
  ∀ (s : State) (op8 : Byte), op8 = s.busByte s.pc →
    ∃ ptr ea : Word, ptr.toNat = (op8.toNat + s.x.toNat) % 256 ∧
      resolvesTo .indirectX s [ptr] ea false 2 ∧
      (s.params.indxHigh = .zero → ea.toNat = ((s.afterReads [s.pc]).busByte ptr).toNat) ∧
      (s.params.indxHigh = .draw →
        ea.toNat = 256 * (Config.indxHighByte (s.afterReads [s.pc]).history).toNat + ((s.afterReads [s.pc]).busByte ptr).toNat)

/-- R110, R114 (the spec's own reading D5): (indirect),Y. The base is the one byte at the operand, or under `P_INDY_PTR = 2` the
two bytes there, the second address wrapping in the zero page, low byte first; `Y` is added modulo 2^16; the +1 is charged
exactly when the sum's high byte is not zero. -/
def Obligations.ResolveIndirectY : Prop :=
  ∀ (s : State) (op8 : Byte), op8 = s.busByte s.pc →
    ∃ p₀ p₁ ea : Word, p₀.toNat = op8.toNat ∧ p₁.toNat = (op8.toNat + 1) % 256 ∧
      (s.params.indyPtr = .one →
        ea.toNat = ((s.afterReads [s.pc]).busByte p₀).toNat + s.y.toNat ∧
        resolvesTo .indirectY s [p₀] ea (decide (256 ≤ ea.toNat)) (if 256 ≤ ea.toNat then 3 else 2)) ∧
      (s.params.indyPtr = .two →
        ea.toNat = (((s.afterReads [s.pc]).busByte p₀).toNat + 256 * ((s.afterReads [s.pc, p₀]).busByte p₁).toNat +
          s.y.toNat) % 65536 ∧
        resolvesTo .indirectY s [p₀, p₁] ea (decide (256 ≤ ea.toNat)) (if 256 ≤ ea.toNat then 3 else 2))

/-- R111 (with the spec's own choice D3; log entry 12): the value an executor uses is the immediate byte, or in a memory mode
the byte the bus gives at the effective address, after the pointer reads, whatever `P_EA_READ` is. -/
def Obligations.OperandValueIsTheByteAtTheAddress : Prop :=
  ∀ (i : Instr) (s : State), i.mnemonic ∈ [.lda, .ldx, .ldy, .and, .adc, .sbc] →
    (i.mode = .immediate ∧ operandOf i s = some i.lo) ∨
    (isMemoryMode i.mode = true ∧ ∃ ea, eaOf i s = some ea ∧
      operandOf i s = some ((s.afterReads (pointerAddrs i s)).busByte ea))

/-! ## Loads, stores and transfers -/

/-- R130, R131, R132: a load copies the operand's value into its register; Z and N follow it; the cost is the table's; nothing
else changes. -/
def Obligations.LoadsCopyTheOperand : Prop :=
  ∀ (i : Instr) (s : State),
    (i.mnemonic = .lda → ∃ t v, operandOf i s = some v ∧ exec i s = .next t ∧ t.a = v ∧
      t.flag .z = decide (v = 0) ∧ t.flag .n = v.getLsbD 7 ∧ t.cycles = s.cycles + cycleCost i s ∧
      keeps [.a, .flag .z, .flag .n, .cycles] s t) ∧
    (i.mnemonic = .ldx → ∃ t v, operandOf i s = some v ∧ exec i s = .next t ∧ t.x = v ∧
      t.flag .z = decide (v = 0) ∧ t.flag .n = v.getLsbD 7 ∧ t.cycles = s.cycles + cycleCost i s ∧
      keeps [.x, .flag .z, .flag .n, .cycles] s t) ∧
    (i.mnemonic = .ldy → ∃ t v, operandOf i s = some v ∧ exec i s = .next t ∧ t.y = v ∧
      t.flag .z = decide (v = 0) ∧ t.flag .n = v.getLsbD 7 ∧ t.cycles = s.cycles + cycleCost i s ∧
      keeps [.y, .flag .z, .flag .n, .cycles] s t)

/-- R133, R134, R135: a store ends with the bus write of its register at its effective address; the cell the bus takes that write
to (the address's own on the default bus, D17; other buses, ROM and devices among them, are log entry 3) reads as the register,
and every other byte as before; the cost is the table's with the page-cross +1, and no register or flag changes. -/
def Obligations.StoresWriteTheRegister : Prop :=
  ∀ (i : Instr) (s : State) (v : Byte), storedRegister i.mnemonic s = some v → s.mem.wf = true →
    ∃ t ea, eaOf i s = some ea ∧ exec i s = .next t ∧
      t.busLog.getLast? = some (.write ea v) ∧ t.cycles = s.cycles + cycleCost i s ∧
      (∀ c, s.writePlace ea = .cell c → t.mem.read c = v) ∧
      (plainAt s ea → s.writePlace ea = .cell ea.toNat) ∧
      memoryOutside (s.storedCells ea) s t ∧ keeps [.memory, .cycles] s t

/-- R136 to R139: a transfer copies its source into its destination; Z and N follow it; two cycles; nothing else changes. -/
def Obligations.TransfersCopyARegister : Prop :=
  ∀ s : State,
    (∃ t, exec .tax s = .next t ∧ t.x = s.a ∧ t.flag .z = decide (s.a = 0) ∧ t.flag .n = s.a.getLsbD 7 ∧
      t.cycles = s.cycles + 2 ∧ keeps [.x, .flag .z, .flag .n, .cycles] s t) ∧
    (∃ t, exec .txa s = .next t ∧ t.a = s.x ∧ t.flag .z = decide (s.x = 0) ∧ t.flag .n = s.x.getLsbD 7 ∧
      t.cycles = s.cycles + 2 ∧ keeps [.a, .flag .z, .flag .n, .cycles] s t) ∧
    (∃ t, exec .tay s = .next t ∧ t.y = s.a ∧ t.flag .z = decide (s.a = 0) ∧ t.flag .n = s.a.getLsbD 7 ∧
      t.cycles = s.cycles + 2 ∧ keeps [.y, .flag .z, .flag .n, .cycles] s t) ∧
    (∃ t, exec .tya s = .next t ∧ t.a = s.y ∧ t.flag .z = decide (s.y = 0) ∧ t.flag .n = s.y.getLsbD 7 ∧
      t.cycles = s.cycles + 2 ∧ keeps [.a, .flag .z, .flag .n, .cycles] s t)

/-! ## ALU -/

/-- R150, R151: INX and INY add 1 modulo 256; Z and N follow the result; two cycles; nothing else changes. -/
def Obligations.IncrementsWrap : Prop :=
  ∀ s : State,
    (∃ t, exec .inx s = .next t ∧ t.x.toNat = (s.x.toNat + 1) % 256 ∧ t.flag .z = decide (s.x = 0xFF) ∧
      t.flag .n = decide (128 ≤ t.x.toNat) ∧ t.cycles = s.cycles + 2 ∧ keeps [.x, .flag .z, .flag .n, .cycles] s t) ∧
    (∃ t, exec .iny s = .next t ∧ t.y.toNat = (s.y.toNat + 1) % 256 ∧ t.flag .z = decide (s.y = 0xFF) ∧
      t.flag .n = decide (128 ≤ t.y.toNat) ∧ t.cycles = s.cycles + 2 ∧ keeps [.y, .flag .z, .flag .n, .cycles] s t)

/-- R152: AND writes the bitwise and of `A` and the operand; Z and N follow it; the cost is the table's; nothing else changes. -/
def Obligations.AndIsBitwise : Prop :=
  ∀ (i : Instr) (s : State), i.mnemonic = .and →
    ∃ t v, operandOf i s = some v ∧ exec i s = .next t ∧
      (∀ k : Nat, t.a.getLsbD k = (s.a.getLsbD k && v.getLsbD k)) ∧
      t.flag .z = decide (t.a = 0) ∧ t.flag .n = t.a.getLsbD 7 ∧ t.cycles = s.cycles + cycleCost i s ∧
      keeps [.a, .flag .z, .flag .n, .cycles] s t

/-- R153: ADC writes `A + value + C` modulo 256; C is set when the sum exceeds 255, Z and N follow the result, V is set iff the
signs of both operands differ from the sign of the result; the cost is the table's; nothing else changes. -/
def Obligations.AdcAddsWithCarry : Prop :=
  ∀ (i : Instr) (s : State), i.mnemonic = .adc →
    ∃ t v, operandOf i s = some v ∧ exec i s = .next t ∧
      (∀ r : Nat, r = s.a.toNat + v.toNat + (if s.flag .c then 1 else 0) →
        t.a.toNat = r % 256 ∧ t.flag .c = decide (255 < r) ∧ t.flag .z = decide (r % 256 = 0) ∧
        t.flag .n = decide (128 ≤ r % 256)) ∧
      t.flag .v = (s.a.getLsbD 7 != t.a.getLsbD 7 && v.getLsbD 7 != t.a.getLsbD 7) ∧
      t.flag .v = (((s.a ^^^ t.a) &&& (v ^^^ t.a) &&& 0x80) != 0) ∧
      t.cycles = s.cycles + cycleCost i s ∧ keeps [.a, .flag .c, .flag .z, .flag .n, .flag .v, .cycles] s t

/-- R154 (the operand of the V formula is the spec's own choice D6): SBC writes `A - value - (1 - C)` modulo 256; C is set when
no borrow occurred, Z and N follow the result, V is the XOR formula with the value as fetched under `literal` and with its ones'
complement under `complement`; the cost is the table's; nothing else changes. -/
def Obligations.SbcSubtractsWithBorrow : Prop :=
  ∀ (i : Instr) (s : State), i.mnemonic = .sbc →
    ∃ t v, operandOf i s = some v ∧ exec i s = .next t ∧
      (∀ r : Int, r = (s.a.toNat : Int) - v.toNat - (if s.flag .c then 0 else 1) →
        (t.a.toNat : Int) = r % 256 ∧ t.flag .c = decide (0 ≤ r ∧ r ≤ 255) ∧ t.flag .z = decide (r % 256 = 0) ∧
        t.flag .n = decide (128 ≤ r % 256)) ∧
      (s.params.sbcV = .literal → t.flag .v = (((s.a ^^^ t.a) &&& (v ^^^ t.a) &&& 0x80) != 0)) ∧
      (s.params.sbcV = .complement → t.flag .v = (((s.a ^^^ t.a) &&& ((~~~v &&& 0xFF) ^^^ t.a) &&& 0x80) != 0)) ∧
      t.cycles = s.cycles + cycleCost i s ∧ keeps [.a, .flag .c, .flag .z, .flag .n, .flag .v, .cycles] s t

/-- V is signed overflow, the exact signed result not fitting in 8 bits, after ADC, and after SBC under `P_SBC_V = complement`
(92_eei_decisions.md D6); a consequence of the formulas of R153 and R154. -/
def Obligations.OverflowIsSignedOverflow : Prop :=
  ∀ (i : Instr) (s t : State) (v : Byte), operandOf i s = some v → exec i s = .next t →
    (i.mnemonic = .adc →
      t.flag .v = decide (¬ (-128 ≤ s.a.toInt + v.toInt + (if s.flag .c then 1 else 0) ∧
        s.a.toInt + v.toInt + (if s.flag .c then 1 else 0) ≤ 127))) ∧
    (i.mnemonic = .sbc → s.params.sbcV = .complement →
      t.flag .v = decide (¬ (-128 ≤ s.a.toInt - v.toInt - (if s.flag .c then 0 else 1) ∧
        s.a.toInt - v.toInt - (if s.flag .c then 0 else 1) ≤ 127)))

/-- R156 (the spec's own choice D16): ADC and SBC do the same at every value of D, which they leave as it is; SED and CLD change
only D. -/
def Obligations.DecimalModeIsIgnored : Prop :=
  (∀ (i : Instr) (s : State) (d : Bool), i.mnemonic ∈ [.adc, .sbc] →
    ∃ t, exec i s = .next t ∧ exec i (s.setFlag .d d) = .next (t.setFlag .d d)) ∧
  ∀ s : State,
    (∃ t, exec .sed s = .next t ∧ t.flag .d = true ∧ keeps [.flag .d, .cycles] s t) ∧
    (∃ t, exec .cld s = .next t ∧ t.flag .d = false ∧ keeps [.flag .d, .cycles] s t)

/-! ## Flags and branches -/

/-- R170 to R176: a flag instruction sets or clears exactly its flag, for two cycles; no other state is touched. -/
def Obligations.FlagInstructionsWriteOneFlag : Prop :=
  ∀ c ∈ flagInstructions, ∀ s : State,
    ∃ t, exec c.1 s = .next t ∧ t.flag c.2.1 = c.2.2 ∧ t.cycles = s.cycles + 2 ∧ t.busLog = s.busLog ∧
      keeps [.flag c.2.1, .cycles] s t

/-- R177 to R185 (the conditions of BPL, BMI, BVC, BVS and BNE are the spec's own choice D10): a branch whose flag has the
tested value sets `PC` to the address after it plus the signed offset modulo 2^16 and costs 3 cycles; otherwise `PC` stays past
the operand and it costs 2; no flag and nothing else changes. -/
def Obligations.BranchesTakenAndNotTaken : Prop :=
  ∀ c ∈ branchTests, ∀ (i : Instr) (s : State), i.mnemonic = c.1 →
    ∃ t, exec i s = .next t ∧ t.busLog = s.busLog ∧
      (s.flag c.2.1 = c.2.2 → (t.pc.toNat : Int) = (s.pc.toNat + i.lo.toInt) % 65536 ∧ t.cycles = s.cycles + 3) ∧
      (s.flag c.2.1 ≠ c.2.2 → t.pc = s.pc ∧ t.cycles = s.cycles + 2) ∧
      keeps [.pc, .cycles] s t

/-! ## Jump, subroutine, stack, no-op -/

/-- R192: JMP sets `PC` to its little-endian operand, for 4 cycles; nothing else changes. The resolver's read of the target is
the only bus access, and `on_use` skips it (R111). -/
def Obligations.JmpSetsPc : Prop :=
  ∀ (s : State) (lo hi : Byte),
    ∃ t, exec (.jmp lo hi) s = .next t ∧ t.pc.toNat = lo.toNat + 256 * hi.toNat ∧ t.cycles = s.cycles + 4 ∧
      (s.params.eaRead = .always → t.busLog = s.busLog ++ [.read t.pc (s.busByte t.pc)]) ∧
      (s.params.eaRead = .onUse → t.busLog = s.busLog) ∧
      keeps [.pc, .cycles] s t

/-- R193 (its wrap at `SP = 0x00` is the spec's own reading D7): JSR writes the address of its last byte, high byte at `0x0100 +
SP`, then low byte at `0x0100 + (SP - 1) mod 256`, subtracts 2 from `SP` modulo 256, and sets `PC` to its operand, for 6 cycles;
no other byte and nothing else changes. The cells are those the bus takes the two writes to, the slots' own on the default bus
(D17); other buses, ROM and devices among them, are log entry 3. -/
def Obligations.JsrPushesTheReturnAddress : Prop :=
  ∀ (s : State) (lo hi : Byte), s.mem.wf = true →
    ∃ t h l, exec (.jsr lo hi) s = .next t ∧
      h.toNat = 256 + s.sp.toNat ∧ l.toNat = 256 + (s.sp - 1).toNat ∧
      (∃ before, t.busLog = before ++ [.write h (highByte (s.pc - 1)), .write l (lowByte (s.pc - 1))]) ∧
      (∃ mid, mid = s.busWrite h (highByte (s.pc - 1)) ∧
        (∀ c, mid.writePlace l = .cell c → (t.mem.read c).toNat = (s.pc - 1).toNat % 256) ∧
        (∀ c, s.writePlace h = .cell c → mid.writePlace l ≠ .cell c → (t.mem.read c).toNat = (s.pc - 1).toNat / 256) ∧
        (plainAt s h → s.writePlace h = .cell h.toNat) ∧ (plainAt s l → mid.writePlace l = .cell l.toNat) ∧
        memoryOutside (s.storedCells h ++ mid.storedCells l) s t) ∧
      t.sp = s.sp - 2 ∧ t.pc.toNat = lo.toNat + 256 * hi.toNat ∧ t.cycles = s.cycles + 6 ∧
      keeps [.memory, .sp, .pc, .cycles] s t

/-- R194: RTS pulls the low byte, then the high byte, and sets `PC` to `hi:lo + 1` modulo 2^16, for 6 cycles; `SP` gains 2
modulo 256; no byte of memory and nothing else changes. -/
def Obligations.RtsPullsTheReturnAddress : Prop :=
  ∀ s : State, ∃ t l h lo hi, exec .rts s = .next t ∧
    l.toNat = 256 + (s.sp + 1).toNat ∧ h.toNat = 256 + (s.sp + 2).toNat ∧
    lo = s.busByte l ∧ hi = (s.afterReads [l]).busByte h ∧
    t.pc.toNat = (lo.toNat + 256 * hi.toNat + 1) % 65536 ∧
    t.busLog = s.busLog ++ [.read l lo, .read h hi] ∧
    t.sp = s.sp + 2 ∧ t.cycles = s.cycles + 6 ∧ keeps [.sp, .pc, .cycles] s t

/-- R190, R195, R196 (PHP's byte is the spec's own choice D9): PHA and PHP write `A`, or `P` as it stands, at `0x0100 + SP`,
then decrement `SP` modulo 256, for 3 cycles; no other byte and nothing else changes. The cell is the one the bus takes the
write to, the slot's own on the default bus (D17); other buses, ROM and devices among them, are log entry 3. -/
def Obligations.PushesStoreAndDecrement : Prop :=
  ∀ s : State, s.mem.wf = true → ∀ c ∈ [(Instr.pha, s.a), (Instr.php, s.p)],
    ∃ t slot, exec c.1 s = .next t ∧ slot.toNat = 256 + s.sp.toNat ∧ t.busLog = s.busLog ++ [.write slot c.2] ∧
      (∀ n, s.writePlace slot = .cell n → t.mem.read n = c.2) ∧
      (plainAt s slot → s.writePlace slot = .cell slot.toNat) ∧
      memoryOutside (s.storedCells slot) s t ∧ t.sp.toNat = (s.sp.toNat + 255) % 256 ∧ t.cycles = s.cycles + 3 ∧
      keeps [.memory, .sp, .cycles] s t

/-- R191, R197: PLA increments `SP` modulo 256, then reads `0x0100 + SP` into `A`; Z and N follow it; 4 cycles; nothing else. -/
def Obligations.PlaPullsTheAccumulator : Prop :=
  ∀ s : State, ∃ t slot v, exec .pla s = .next t ∧ slot.toNat = 256 + (s.sp.toNat + 1) % 256 ∧ v = s.busByte slot ∧
    t.busLog = s.busLog ++ [.read slot v] ∧ t.a = v ∧ t.flag .z = decide (v = 0) ∧ t.flag .n = v.getLsbD 7 ∧
    t.sp.toNat = (s.sp.toNat + 1) % 256 ∧ t.cycles = s.cycles + 4 ∧ keeps [.a, .sp, .flag .z, .flag .n, .cycles] s t

/-- R198 (the spec's own choice D9): PLP loads the pulled byte into `P`, all seven flags taking its bits and bit 5 being forced
to 1; 4 cycles; no other register, and no byte of memory, changes. -/
def Obligations.PlpLoadsTheStatus : Prop :=
  ∀ s : State, ∃ t slot v, exec .plp s = .next t ∧ slot.toNat = 256 + (s.sp.toNat + 1) % 256 ∧ v = s.busByte slot ∧
    t.busLog = s.busLog ++ [.read slot v] ∧ t.p = v ||| 0x20 ∧ (∀ f : Flag, t.flag f = getFlag v f) ∧ t.p.getLsbD 5 = true ∧
    t.sp.toNat = (s.sp.toNat + 1) % 256 ∧ t.cycles = s.cycles + 4 ∧
    keeps [.sp, .cycles, .statusBit5, .flag .c, .flag .z, .flag .i, .flag .d, .flag .b, .flag .v, .flag .n] s t

/-- R199: NOP adds two cycles and changes nothing else (the opcode fetch has advanced `PC`). -/
def Obligations.NopOnlyChargesCycles : Prop :=
  ∀ s : State, ∃ t, exec .nop s = .next t ∧ t = s.charge 2

/-- Push then pull of the same register gives its value back and `SP` its original value (95_test_vectors.md T3), whatever byte
the register was given in between: for PHA and PLA in every state, and for PHP and PLP where bit 5 of `P` is 1, if the bus reads
the stack slot where it wrote it (as on the default bus, D17; log entry 3). -/
def Obligations.PushPullRoundTrip : Prop :=
  ∀ (s : State) (c : Nat), s.mem.wf = true → s.writePlace (stackAddr s.sp) = .cell c →
    (∃ t, exec .pha s = .next t ∧ (t.readPlace (stackAddr s.sp) = .cell c → ∀ b : Byte, ∃ u,
      exec .pla (t.setA b) = .next u ∧ u.a = s.a ∧ u.sp = s.sp ∧ u.x = s.x ∧ u.y = s.y)) ∧
    (∃ t, exec .php s = .next t ∧ (s.p.getLsbD 5 = true → t.readPlace (stackAddr s.sp) = .cell c → ∀ b : Byte, ∃ u,
      exec .plp (t.setP b) = .next u ∧ u.p = s.p ∧ u.sp = s.sp ∧ u.a = s.a ∧ u.x = s.x ∧ u.y = s.y)) ∧
    (plainAt s (stackAddr s.sp) → ∀ i ∈ [Instr.pha, Instr.php], ∃ t, exec i s = .next t ∧
      t.readPlace (stackAddr s.sp) = .cell c)

/-- An RTS executed in the state a JSR leaves, wherever `PC` has gone in between, returns to the instruction after the JSR and
its operand, with `SP`, the registers and the flags as before the JSR (95_test_vectors.md T4; R193, R194, R200), if both stack
slots are plain memory (as on the default bus, D17; log entry 3). -/
def Obligations.RtsReturnsAfterJsr : Prop :=
  ∀ (s : State) (lo hi : Byte), s.mem.wf = true → plainAt s (stackAddr s.sp) → plainAt s (stackAddr (s.sp - 1)) →
    ∃ t, exec (.jsr lo hi) s = .next t ∧ ∀ q : Word, ∃ u, exec .rts (t.setPc q) = .next u ∧
      u.pc = s.pc ∧ u.sp = s.sp ∧ u.a = s.a ∧ u.x = s.x ∧ u.y = s.y ∧ u.p = s.p

/-! ## Rules of the whole machine -/

/-- R259 (its numbers are the source's, literal by the spec's own choice D2): the cycle cost of every opcode is the table's,
plus one on a page cross, plus one if a branch is taken. -/
def Obligations.CycleCostIsTheTables : Prop :=
  ∀ (i : Instr) (s : State), ∃ t, exec i s = .next t ∧ t.cycles = s.cycles + cycleCost i s

/-- R21, R22, R23, R26 (derived in the spec from the instruction rules): `A`, `X`, `Y` and `SP` change only by the instructions
those rules name. -/
def Obligations.RegistersHaveTheirWriters : Prop :=
  ∀ (i : Instr) (s t : State), exec i s = .next t →
    (t.a ≠ s.a → i.mnemonic ∈ [.lda, .txa, .tya, .and, .adc, .sbc, .pla]) ∧
    (t.x ≠ s.x → i.mnemonic ∈ [.ldx, .tax, .inx]) ∧
    (t.y ≠ s.y → i.mnemonic ∈ [.ldy, .tay, .iny]) ∧
    (t.sp ≠ s.sp → i.mnemonic ∈ [.jsr, .rts, .pha, .php, .pla, .plp])

/-- R27 (its writer column is derived in the spec from the instruction rules): each flag changes only by the instructions its
row of the table names; bit 5, once 1, stays 1. -/
def Obligations.FlagsHaveTheirWriters : Prop :=
  ∀ (i : Instr) (s t : State), exec i s = .next t →
    (t.flag .c ≠ s.flag .c → i.mnemonic ∈ [.sec, .clc, .adc, .sbc, .plp]) ∧
    (t.flag .z ≠ s.flag .z ∨ t.flag .n ≠ s.flag .n →
      i.mnemonic ∈ [.lda, .ldx, .ldy, .tax, .txa, .tay, .tya, .inx, .iny, .and, .adc, .sbc, .pla, .plp]) ∧
    (t.flag .i ≠ s.flag .i → i.mnemonic ∈ [.sei, .cli, .plp]) ∧
    (t.flag .d ≠ s.flag .d → i.mnemonic ∈ [.sed, .cld, .plp]) ∧
    (t.flag .b ≠ s.flag .b → i.mnemonic = .plp) ∧
    (t.flag .v ≠ s.flag .v → i.mnemonic ∈ [.adc, .sbc, .clv, .plp]) ∧
    (s.p.getLsbD 5 = true → t.p.getLsbD 5 = true)

/-- R59 with R133 to R135: memory changes only by a store, in the cell the bus takes its effective address to, or by PHA, PHP
and JSR, in a cell it takes an address of the stack page to (for JSR's second byte, in the memory its first has left). On the
default bus (D17) the cell of an address is its own; other buses are log entry 3. -/
def Obligations.MemoryHasItsWriters : Prop :=
  ∀ (i : Instr) (s t : State) (c : Nat), s.mem.wf = true → exec i s = .next t → t.mem.read c ≠ s.mem.read c →
    (i.mnemonic ∈ [.sta, .stx, .sty] ∧ ∃ ea, eaOf i s = some ea ∧ s.writePlace ea = .cell c) ∨
    (i.mnemonic ∈ [.pha, .php, .jsr] ∧ ∃ slot : Word, 0x0100 ≤ slot.toNat ∧ slot.toNat ≤ 0x01FF ∧
      (s.writePlace slot = .cell c ∨ i.mnemonic = .jsr ∧
        (s.busWrite (stackAddr s.sp) (highByte (s.pc - 1))).writePlace slot = .cell c))

/-- R31 (the spec's own choices D14 and D16): the flags I, D and B influence nothing: run with one of them forced to any value,
every instruction but PHP, which pushes `P`, gives the same state but for that flag. -/
def Obligations.UnreadFlagsHaveNoInfluence : Prop :=
  ∀ (i : Instr) (s : State) (f : Flag) (b : Bool), f ∈ [.i, .d, .b] → i ≠ .php →
    ∃ t u, exec i s = .next t ∧ exec i (s.setFlag f b) = .next u ∧ u = { t with p := u.p } ∧
      (∀ g : Flag, g ≠ f → u.flag g = t.flag g) ∧ u.p.getLsbD 5 = t.p.getLsbD 5

/-- R231, R259: no instruction reads `cycles`: from any other count it does the same and adds the same. -/
def Obligations.CycleCountHasNoInfluence : Prop :=
  ∀ (i : Instr) (s : State) (n : Nat), ∃ t, exec i s = .next t ∧ s.cycles ≤ t.cycles ∧
    exec i { s with cycles := n } = .next { t with cycles := n + (t.cycles - s.cycles) }

/-- R80, R97: the debug flag decides the trace line and nothing else. -/
def Obligations.DebugOnlyAddsTheTraceLine : Prop :=
  ∀ (s t : State), step s = .next t →
    (s.debug = false → t.trace = none) ∧ (s.debug = true → ∃ line, t.trace = some line) ∧
    ∀ b : Bool, ∃ u, step (s.setDebug b) = .next u ∧ u = { t with debug := b, trace := u.trace }

/-- R78, R79 (the mnemonic's case is the spec's own choice D21): the rendering of each mode, upper-case hexadecimal,
zero-padded, and for relative mode the resolved target. -/
def Obligations.TraceRendersEachMode : Prop :=
  renderLine ⟨.implied, .nop⟩ 0 0 0x0601 = ['N', 'O', 'P'] ∧
  renderLine ⟨.immediate, .lda⟩ 0x05 0 0x0602 = ['L', 'D', 'A', ' ', '#', '$', '0', '5'] ∧
  renderLine ⟨.zeropage, .stx⟩ 0x1F 0 0x0602 = ['S', 'T', 'X', ' ', '$', '1', 'F'] ∧
  renderLine ⟨.zeropageX, .sty⟩ 0xFF 0 0x0602 = ['S', 'T', 'Y', ' ', '$', 'F', 'F', ',', 'X'] ∧
  renderLine ⟨.absolute, .jsr⟩ 0x34 0x12 0x0603 = ['J', 'S', 'R', ' ', '$', '1', '2', '3', '4'] ∧
  renderLine ⟨.absoluteX, .adc⟩ 0xF0 0x0A 0x0603 = ['A', 'D', 'C', ' ', '$', '0', 'A', 'F', '0', ',', 'X'] ∧
  renderLine ⟨.absoluteY, .sbc⟩ 0x00 0xC0 0x0603 = ['S', 'B', 'C', ' ', '$', 'C', '0', '0', '0', ',', 'Y'] ∧
  renderLine ⟨.indirectX, .lda⟩ 0x20 0 0x0602 = ['L', 'D', 'A', ' ', '(', '$', '2', '0', ',', 'X', ')'] ∧
  renderLine ⟨.indirectY, .and⟩ 0x86 0 0x0602 = ['A', 'N', 'D', ' ', '(', '$', '8', '6', ')', ',', 'Y'] ∧
  renderLine ⟨.relative, .beq⟩ 0xFE 0 0x0602 = ['B', 'E', 'Q', ' ', '$', '0', '6', '0', '0']
end

