-- ==== Sys2Proof/Laws/PerInstr.lean ====
section
/-! SUPPORT. The family Encoding, per instruction (30_encoding.md R70, R71, R75): an instruction's bytes are its opcode and its
mode's operand bytes, its descriptor and operands make it again, and the default table registers its opcode for it. -/

namespace Sys2Proof.Laws.Encoding

/-- Length, reassembly and registration of one instruction. -/
def Statement (i : Instr) : Prop :=
  (encode i).length = 1 + i.mode.operandBytes ∧ assemble i.descriptor i.lo i.hi = some i ∧ i.wf defaultTable

theorem ldaImm (op8 : Byte) : Statement (.ldaImm op8) :=
  ⟨rfl, rfl, show defaultTable.lookup 0xA9 = some ⟨.immediate, .lda⟩ from rfl⟩
theorem ldaZp (op8 : Byte) : Statement (.ldaZp op8) :=
  ⟨rfl, rfl, show defaultTable.lookup 0xA5 = some ⟨.zeropage, .lda⟩ from rfl⟩
theorem ldaZpx (op8 : Byte) : Statement (.ldaZpx op8) :=
  ⟨rfl, rfl, show defaultTable.lookup 0xB5 = some ⟨.zeropageX, .lda⟩ from rfl⟩
theorem ldaAbs (lo hi : Byte) : Statement (.ldaAbs lo hi) :=
  ⟨rfl, rfl, show defaultTable.lookup 0xAD = some ⟨.absolute, .lda⟩ from rfl⟩
theorem ldaAbx (lo hi : Byte) : Statement (.ldaAbx lo hi) :=
  ⟨rfl, rfl, show defaultTable.lookup 0xBD = some ⟨.absoluteX, .lda⟩ from rfl⟩
theorem ldaAby (lo hi : Byte) : Statement (.ldaAby lo hi) :=
  ⟨rfl, rfl, show defaultTable.lookup 0xB9 = some ⟨.absoluteY, .lda⟩ from rfl⟩
theorem ldaIzx (op8 : Byte) : Statement (.ldaIzx op8) :=
  ⟨rfl, rfl, show defaultTable.lookup 0xA1 = some ⟨.indirectX, .lda⟩ from rfl⟩
theorem ldaIzy (op8 : Byte) : Statement (.ldaIzy op8) :=
  ⟨rfl, rfl, show defaultTable.lookup 0xB1 = some ⟨.indirectY, .lda⟩ from rfl⟩
theorem ldxImm (op8 : Byte) : Statement (.ldxImm op8) :=
  ⟨rfl, rfl, show defaultTable.lookup 0xA2 = some ⟨.immediate, .ldx⟩ from rfl⟩
theorem ldxZp (op8 : Byte) : Statement (.ldxZp op8) :=
  ⟨rfl, rfl, show defaultTable.lookup 0xA6 = some ⟨.zeropage, .ldx⟩ from rfl⟩
theorem ldxAbs (lo hi : Byte) : Statement (.ldxAbs lo hi) :=
  ⟨rfl, rfl, show defaultTable.lookup 0xAE = some ⟨.absolute, .ldx⟩ from rfl⟩
theorem ldxAby (lo hi : Byte) : Statement (.ldxAby lo hi) :=
  ⟨rfl, rfl, show defaultTable.lookup 0xBE = some ⟨.absoluteY, .ldx⟩ from rfl⟩
theorem ldyImm (op8 : Byte) : Statement (.ldyImm op8) :=
  ⟨rfl, rfl, show defaultTable.lookup 0xA0 = some ⟨.immediate, .ldy⟩ from rfl⟩
theorem ldyZp (op8 : Byte) : Statement (.ldyZp op8) :=
  ⟨rfl, rfl, show defaultTable.lookup 0xA4 = some ⟨.zeropage, .ldy⟩ from rfl⟩
theorem ldyZpx (op8 : Byte) : Statement (.ldyZpx op8) :=
  ⟨rfl, rfl, show defaultTable.lookup 0xB4 = some ⟨.zeropageX, .ldy⟩ from rfl⟩
theorem ldyAbs (lo hi : Byte) : Statement (.ldyAbs lo hi) :=
  ⟨rfl, rfl, show defaultTable.lookup 0xAC = some ⟨.absolute, .ldy⟩ from rfl⟩
theorem ldyAbx (lo hi : Byte) : Statement (.ldyAbx lo hi) :=
  ⟨rfl, rfl, show defaultTable.lookup 0xBC = some ⟨.absoluteX, .ldy⟩ from rfl⟩
theorem staZp (op8 : Byte) : Statement (.staZp op8) :=
  ⟨rfl, rfl, show defaultTable.lookup 0x85 = some ⟨.zeropage, .sta⟩ from rfl⟩
theorem staZpx (op8 : Byte) : Statement (.staZpx op8) :=
  ⟨rfl, rfl, show defaultTable.lookup 0x95 = some ⟨.zeropageX, .sta⟩ from rfl⟩
theorem staAbs (lo hi : Byte) : Statement (.staAbs lo hi) :=
  ⟨rfl, rfl, show defaultTable.lookup 0x8D = some ⟨.absolute, .sta⟩ from rfl⟩
theorem staAbx (lo hi : Byte) : Statement (.staAbx lo hi) :=
  ⟨rfl, rfl, show defaultTable.lookup 0x9D = some ⟨.absoluteX, .sta⟩ from rfl⟩
theorem staAby (lo hi : Byte) : Statement (.staAby lo hi) :=
  ⟨rfl, rfl, show defaultTable.lookup 0x99 = some ⟨.absoluteY, .sta⟩ from rfl⟩
theorem staIzx (op8 : Byte) : Statement (.staIzx op8) :=
  ⟨rfl, rfl, show defaultTable.lookup 0x81 = some ⟨.indirectX, .sta⟩ from rfl⟩
theorem staIzy (op8 : Byte) : Statement (.staIzy op8) :=
  ⟨rfl, rfl, show defaultTable.lookup 0x91 = some ⟨.indirectY, .sta⟩ from rfl⟩
theorem stxZp (op8 : Byte) : Statement (.stxZp op8) :=
  ⟨rfl, rfl, show defaultTable.lookup 0x86 = some ⟨.zeropage, .stx⟩ from rfl⟩
theorem stxAbs (lo hi : Byte) : Statement (.stxAbs lo hi) :=
  ⟨rfl, rfl, show defaultTable.lookup 0x8E = some ⟨.absolute, .stx⟩ from rfl⟩
theorem styZp (op8 : Byte) : Statement (.styZp op8) :=
  ⟨rfl, rfl, show defaultTable.lookup 0x84 = some ⟨.zeropage, .sty⟩ from rfl⟩
theorem styZpx (op8 : Byte) : Statement (.styZpx op8) :=
  ⟨rfl, rfl, show defaultTable.lookup 0x94 = some ⟨.zeropageX, .sty⟩ from rfl⟩
theorem styAbs (lo hi : Byte) : Statement (.styAbs lo hi) :=
  ⟨rfl, rfl, show defaultTable.lookup 0x8C = some ⟨.absolute, .sty⟩ from rfl⟩
theorem tax : Statement .tax :=
  ⟨rfl, rfl, show defaultTable.lookup 0xAA = some ⟨.implied, .tax⟩ from rfl⟩
theorem txa : Statement .txa :=
  ⟨rfl, rfl, show defaultTable.lookup 0x8A = some ⟨.implied, .txa⟩ from rfl⟩
theorem tay : Statement .tay :=
  ⟨rfl, rfl, show defaultTable.lookup 0xA8 = some ⟨.implied, .tay⟩ from rfl⟩
theorem tya : Statement .tya :=
  ⟨rfl, rfl, show defaultTable.lookup 0x98 = some ⟨.implied, .tya⟩ from rfl⟩
theorem inx : Statement .inx :=
  ⟨rfl, rfl, show defaultTable.lookup 0xE8 = some ⟨.implied, .inx⟩ from rfl⟩
theorem iny : Statement .iny :=
  ⟨rfl, rfl, show defaultTable.lookup 0xC8 = some ⟨.implied, .iny⟩ from rfl⟩
theorem andImm (op8 : Byte) : Statement (.andImm op8) :=
  ⟨rfl, rfl, show defaultTable.lookup 0x29 = some ⟨.immediate, .and⟩ from rfl⟩
theorem andZp (op8 : Byte) : Statement (.andZp op8) :=
  ⟨rfl, rfl, show defaultTable.lookup 0x25 = some ⟨.zeropage, .and⟩ from rfl⟩
theorem andZpx (op8 : Byte) : Statement (.andZpx op8) :=
  ⟨rfl, rfl, show defaultTable.lookup 0x35 = some ⟨.zeropageX, .and⟩ from rfl⟩
theorem andAbs (lo hi : Byte) : Statement (.andAbs lo hi) :=
  ⟨rfl, rfl, show defaultTable.lookup 0x2D = some ⟨.absolute, .and⟩ from rfl⟩
theorem andAbx (lo hi : Byte) : Statement (.andAbx lo hi) :=
  ⟨rfl, rfl, show defaultTable.lookup 0x3D = some ⟨.absoluteX, .and⟩ from rfl⟩
theorem andAby (lo hi : Byte) : Statement (.andAby lo hi) :=
  ⟨rfl, rfl, show defaultTable.lookup 0x39 = some ⟨.absoluteY, .and⟩ from rfl⟩
theorem andIzx (op8 : Byte) : Statement (.andIzx op8) :=
  ⟨rfl, rfl, show defaultTable.lookup 0x21 = some ⟨.indirectX, .and⟩ from rfl⟩
theorem andIzy (op8 : Byte) : Statement (.andIzy op8) :=
  ⟨rfl, rfl, show defaultTable.lookup 0x31 = some ⟨.indirectY, .and⟩ from rfl⟩
theorem adcImm (op8 : Byte) : Statement (.adcImm op8) :=
  ⟨rfl, rfl, show defaultTable.lookup 0x69 = some ⟨.immediate, .adc⟩ from rfl⟩
theorem adcZp (op8 : Byte) : Statement (.adcZp op8) :=
  ⟨rfl, rfl, show defaultTable.lookup 0x65 = some ⟨.zeropage, .adc⟩ from rfl⟩
theorem adcZpx (op8 : Byte) : Statement (.adcZpx op8) :=
  ⟨rfl, rfl, show defaultTable.lookup 0x75 = some ⟨.zeropageX, .adc⟩ from rfl⟩
theorem adcAbs (lo hi : Byte) : Statement (.adcAbs lo hi) :=
  ⟨rfl, rfl, show defaultTable.lookup 0x6D = some ⟨.absolute, .adc⟩ from rfl⟩
theorem adcAbx (lo hi : Byte) : Statement (.adcAbx lo hi) :=
  ⟨rfl, rfl, show defaultTable.lookup 0x7D = some ⟨.absoluteX, .adc⟩ from rfl⟩
theorem adcAby (lo hi : Byte) : Statement (.adcAby lo hi) :=
  ⟨rfl, rfl, show defaultTable.lookup 0x79 = some ⟨.absoluteY, .adc⟩ from rfl⟩
theorem adcIzx (op8 : Byte) : Statement (.adcIzx op8) :=
  ⟨rfl, rfl, show defaultTable.lookup 0x61 = some ⟨.indirectX, .adc⟩ from rfl⟩
theorem adcIzy (op8 : Byte) : Statement (.adcIzy op8) :=
  ⟨rfl, rfl, show defaultTable.lookup 0x71 = some ⟨.indirectY, .adc⟩ from rfl⟩
theorem sbcImm (op8 : Byte) : Statement (.sbcImm op8) :=
  ⟨rfl, rfl, show defaultTable.lookup 0xE9 = some ⟨.immediate, .sbc⟩ from rfl⟩
theorem sbcZp (op8 : Byte) : Statement (.sbcZp op8) :=
  ⟨rfl, rfl, show defaultTable.lookup 0xE5 = some ⟨.zeropage, .sbc⟩ from rfl⟩
theorem sbcZpx (op8 : Byte) : Statement (.sbcZpx op8) :=
  ⟨rfl, rfl, show defaultTable.lookup 0xF5 = some ⟨.zeropageX, .sbc⟩ from rfl⟩
theorem sbcAbs (lo hi : Byte) : Statement (.sbcAbs lo hi) :=
  ⟨rfl, rfl, show defaultTable.lookup 0xED = some ⟨.absolute, .sbc⟩ from rfl⟩
theorem sbcAbx (lo hi : Byte) : Statement (.sbcAbx lo hi) :=
  ⟨rfl, rfl, show defaultTable.lookup 0xFD = some ⟨.absoluteX, .sbc⟩ from rfl⟩
theorem sbcAby (lo hi : Byte) : Statement (.sbcAby lo hi) :=
  ⟨rfl, rfl, show defaultTable.lookup 0xF9 = some ⟨.absoluteY, .sbc⟩ from rfl⟩
theorem sbcIzx (op8 : Byte) : Statement (.sbcIzx op8) :=
  ⟨rfl, rfl, show defaultTable.lookup 0xE1 = some ⟨.indirectX, .sbc⟩ from rfl⟩
theorem sbcIzy (op8 : Byte) : Statement (.sbcIzy op8) :=
  ⟨rfl, rfl, show defaultTable.lookup 0xF1 = some ⟨.indirectY, .sbc⟩ from rfl⟩
theorem clc : Statement .clc :=
  ⟨rfl, rfl, show defaultTable.lookup 0x18 = some ⟨.implied, .clc⟩ from rfl⟩
theorem sec : Statement .sec :=
  ⟨rfl, rfl, show defaultTable.lookup 0x38 = some ⟨.implied, .sec⟩ from rfl⟩
theorem cli : Statement .cli :=
  ⟨rfl, rfl, show defaultTable.lookup 0x58 = some ⟨.implied, .cli⟩ from rfl⟩
theorem sei : Statement .sei :=
  ⟨rfl, rfl, show defaultTable.lookup 0x78 = some ⟨.implied, .sei⟩ from rfl⟩
theorem clv : Statement .clv :=
  ⟨rfl, rfl, show defaultTable.lookup 0xB8 = some ⟨.implied, .clv⟩ from rfl⟩
theorem cld : Statement .cld :=
  ⟨rfl, rfl, show defaultTable.lookup 0xD8 = some ⟨.implied, .cld⟩ from rfl⟩
theorem sed : Statement .sed :=
  ⟨rfl, rfl, show defaultTable.lookup 0xF8 = some ⟨.implied, .sed⟩ from rfl⟩
theorem bpl (op8 : Byte) : Statement (.bpl op8) :=
  ⟨rfl, rfl, show defaultTable.lookup 0x10 = some ⟨.relative, .bpl⟩ from rfl⟩
theorem bmi (op8 : Byte) : Statement (.bmi op8) :=
  ⟨rfl, rfl, show defaultTable.lookup 0x30 = some ⟨.relative, .bmi⟩ from rfl⟩
theorem bvc (op8 : Byte) : Statement (.bvc op8) :=
  ⟨rfl, rfl, show defaultTable.lookup 0x50 = some ⟨.relative, .bvc⟩ from rfl⟩
theorem bvs (op8 : Byte) : Statement (.bvs op8) :=
  ⟨rfl, rfl, show defaultTable.lookup 0x70 = some ⟨.relative, .bvs⟩ from rfl⟩
theorem bcc (op8 : Byte) : Statement (.bcc op8) :=
  ⟨rfl, rfl, show defaultTable.lookup 0x90 = some ⟨.relative, .bcc⟩ from rfl⟩
theorem bcs (op8 : Byte) : Statement (.bcs op8) :=
  ⟨rfl, rfl, show defaultTable.lookup 0xB0 = some ⟨.relative, .bcs⟩ from rfl⟩
theorem bne (op8 : Byte) : Statement (.bne op8) :=
  ⟨rfl, rfl, show defaultTable.lookup 0xD0 = some ⟨.relative, .bne⟩ from rfl⟩
theorem beq (op8 : Byte) : Statement (.beq op8) :=
  ⟨rfl, rfl, show defaultTable.lookup 0xF0 = some ⟨.relative, .beq⟩ from rfl⟩
theorem jmp (lo hi : Byte) : Statement (.jmp lo hi) :=
  ⟨rfl, rfl, show defaultTable.lookup 0x4C = some ⟨.absolute, .jmp⟩ from rfl⟩
theorem jsr (lo hi : Byte) : Statement (.jsr lo hi) :=
  ⟨rfl, rfl, show defaultTable.lookup 0x20 = some ⟨.absolute, .jsr⟩ from rfl⟩
theorem rts : Statement .rts :=
  ⟨rfl, rfl, show defaultTable.lookup 0x60 = some ⟨.implied, .rts⟩ from rfl⟩
theorem pha : Statement .pha :=
  ⟨rfl, rfl, show defaultTable.lookup 0x48 = some ⟨.implied, .pha⟩ from rfl⟩
theorem php : Statement .php :=
  ⟨rfl, rfl, show defaultTable.lookup 0x08 = some ⟨.implied, .php⟩ from rfl⟩
theorem pla : Statement .pla :=
  ⟨rfl, rfl, show defaultTable.lookup 0x68 = some ⟨.implied, .pla⟩ from rfl⟩
theorem plp : Statement .plp :=
  ⟨rfl, rfl, show defaultTable.lookup 0x28 = some ⟨.implied, .plp⟩ from rfl⟩
theorem nop : Statement .nop :=
  ⟨rfl, rfl, show defaultTable.lookup 0xEA = some ⟨.implied, .nop⟩ from rfl⟩

end Sys2Proof.Laws.Encoding
end

