-- ==== Sys2Proof/Laws/Decode.lean ====
section
/-! SUPPORT. The decode table under registration, and what reassembly of an instruction from its descriptor says. -/

namespace Sys2Proof

theorem DecodeTable.sized_iff {t : DecodeTable} :
    t.sized = true ↔ t.length = 16 ∧ ∀ row ∈ t, row.length = 16 := by
  simp [DecodeTable.sized]

theorem DecodeTable.sized_empty : DecodeTable.empty.sized = true := by decide

/-- Every row of a table of 256 entries has 16. -/
theorem DecodeTable.row_length {t : DecodeTable} (h : t.sized = true) (op : Byte) : (t.getD (op.toNat / 16) []).length = 16 := by
  rw [DecodeTable.sized_iff] at h
  rw [List.getD_eq_getElem _ _ (by omega : op.toNat / 16 < t.length)]
  exact h.2 _ (List.getElem_mem _)

/-- A registration keeps the 256 entries. -/
theorem DecodeTable.sized_register {t : DecodeTable} (h : t.sized = true) (op : Byte) (d : Descriptor) :
    (t.register op d).sized = true := by
  have hrow' := DecodeTable.row_length h op
  rw [DecodeTable.sized_iff] at h ⊢
  refine ⟨by simp [DecodeTable.register, h.1], fun row hrow => ?_⟩
  rcases List.mem_or_eq_of_mem_set hrow with hrow | rfl
  · exact h.2 row hrow
  · rw [List.length_set, hrow']

/-- A registration binds its byte and no other. -/
theorem DecodeTable.lookup_register {t : DecodeTable} (h : t.sized = true) (op op' : Byte) (d : Descriptor) :
    (t.register op d).lookup op' = if op' = op then some d else t.lookup op' := by
  have hrow := DecodeTable.row_length h op
  rw [DecodeTable.sized_iff] at h
  have hop : op.toNat / 16 < t.length := by omega
  unfold DecodeTable.lookup DecodeTable.register
  by_cases hhi : op.toNat / 16 = op'.toNat / 16
  · have hcol : op.toNat % 16 < (t.getD (op.toNat / 16) []).length := by omega
    by_cases hlo : op.toNat % 16 = op'.toNat % 16
    · have : op' = op := BitVec.eq_of_toNat_eq (by omega)
      subst this
      simp only [List.getD_eq_getElem?_getD, List.getElem?_set_self hop, if_pos, Option.getD_some] at hcol ⊢
      rw [List.getElem?_set_self hcol, Option.getD_some]
    · have : op' ≠ op := by rintro rfl; exact hlo rfl
      simp only [List.getD_eq_getElem?_getD, if_neg this]
      rw [← hhi]
      simp [hop, hlo]
  · have : op' ≠ op := by rintro rfl; exact hhi rfl
    simp only [List.getD_eq_getElem?_getD, if_neg this]
    simp [hhi]

/-- Construction builds a table of 256 entries (R250). -/
theorem DecodeTable.sized_construct (rs : List (Byte × Descriptor)) : (DecodeTable.construct rs).sized = true := by
  unfold DecodeTable.construct
  generalize hE : DecodeTable.empty = t
  have ht : t.sized = true := hE ▸ DecodeTable.sized_empty
  clear hE
  induction rs generalizing t with
  | nil => exact ht
  | cons r rest ih => exact ih _ (DecodeTable.sized_register ht _ _)

theorem DecodeTable.construct_append (rs : List (Byte × Descriptor)) (op : Byte) (d : Descriptor) :
    DecodeTable.construct (rs ++ [(op, d)]) = (DecodeTable.construct rs).register op d := by
  simp [DecodeTable.construct]

/-- The default table is the one R75's registrations construct. -/
theorem defaultTable_eq_construct : DecodeTable.construct defaultRegistrations = defaultTable := by decide

/-- An instruction assembled from a descriptor is an occurrence of it and has the mode's operand bytes. -/
theorem assemble_some {d : Descriptor} {lo hi : Byte} {i : Instr} (h : assemble d lo hi = some i) :
    i.descriptor = d ∧ i.operands = [lo, hi].take d.mode.operandBytes := by
  obtain ⟨mode, mn⟩ := d
  cases mn <;> cases mode <;> simp [assemble] at h <;> subst h <;> exact ⟨rfl, rfl⟩

theorem Instr.operands_length (i : Instr) : i.operands.length = i.mode.operandBytes := by cases i <;> rfl

theorem Mode.operandBytes_le (m : Mode) : m.operandBytes ≤ 2 := by cases m <;> decide

/-- The operand bytes taken from the head of a list are that head, and an absent byte is 0. -/
theorem takeOperands_some {n : Nat} {bytes rest : List Byte} {lo hi : Byte} (h : takeOperands n bytes = some (lo, hi, rest)) :
    bytes = [lo, hi].take n ++ rest ∧ (n ≤ 1 → hi = 0) ∧ (n = 0 → lo = 0) := by
  unfold takeOperands at h
  split at h <;> simp at h <;> obtain ⟨rfl, rfl, rfl⟩ := h <;> simp

/-- An assembled instruction whose absent operand bytes are 0 has exactly these operand bytes. -/
theorem assemble_operands {i : Instr} {lo hi : Byte} (h : assemble i.descriptor lo hi = some i)
    (h1 : i.mode.operandBytes ≤ 1 → hi = 0) (h0 : i.mode.operandBytes = 0 → lo = 0) : lo = i.lo ∧ hi = i.hi := by
  cases i <;> simp [assemble, Instr.descriptor, Instr.mode, Instr.mnemonic, Mode.operandBytes] at h h1 h0 <;>
    simp [*, Instr.lo, Instr.hi, Instr.operands]

/-- A decoding that gave an instruction: the head byte is registered for its descriptor, its operand bytes follow, then `rest`. -/
theorem decode_eq_ok {t : DecodeTable} {bytes rest : List Byte} {i : Instr} (h : decode t bytes = .ok (i, rest)) :
    ∃ op more, bytes = op :: more ∧ t.lookup op = some i.descriptor ∧
      takeOperands i.mode.operandBytes more = some (i.lo, i.hi, rest) := by
  unfold decode at h
  split at h
  · cases h
  · rename_i op more
    split at h
    · cases h
    · rename_i d hd
      split at h
      · cases h
      · rename_i lo hi rest' ht
        split at h
        · cases h
        · rename_i i' ha
          cases h
          obtain ⟨rfl, -⟩ := assemble_some ha
          obtain ⟨-, h1, h0⟩ := takeOperands_some ht
          obtain ⟨rfl, rfl⟩ := assemble_operands ha h1 h0
          exact ⟨op, more, rfl, hd, ht⟩

end Sys2Proof
end

