-- ==== Sys2Proof/Laws/State.lean ====
section
/-! SUPPORT. One lemma per field per update of the state, true by rfl, so that no proof unfolds a record update; and where the
bus takes an access and what it answers. -/

namespace Sys2Proof.Machine

@[simp] theorem State.setA_a (s : State) (v : Byte) : (s.setA v).a = v := rfl
@[simp] theorem State.setA_x (s : State) (v : Byte) : (s.setA v).x = s.x := rfl
@[simp] theorem State.setA_y (s : State) (v : Byte) : (s.setA v).y = s.y := rfl
@[simp] theorem State.setA_pc (s : State) (v : Byte) : (s.setA v).pc = s.pc := rfl
@[simp] theorem State.setA_sp (s : State) (v : Byte) : (s.setA v).sp = s.sp := rfl
@[simp] theorem State.setA_p (s : State) (v : Byte) : (s.setA v).p = s.p := rfl
@[simp] theorem State.setA_cycles (s : State) (v : Byte) : (s.setA v).cycles = s.cycles := rfl
@[simp] theorem State.setA_halted (s : State) (v : Byte) : (s.setA v).halted = s.halted := rfl
@[simp] theorem State.setA_mem (s : State) (v : Byte) : (s.setA v).mem = s.mem := rfl
@[simp] theorem State.setA_debug (s : State) (v : Byte) : (s.setA v).debug = s.debug := rfl
@[simp] theorem State.setA_trace (s : State) (v : Byte) : (s.setA v).trace = s.trace := rfl
@[simp] theorem State.setA_busLog (s : State) (v : Byte) : (s.setA v).busLog = s.busLog := rfl
@[simp] theorem State.setA_history (s : State) (v : Byte) : (s.setA v).history = s.history := rfl
@[simp] theorem State.setA_params (s : State) (v : Byte) : (s.setA v).params = s.params := rfl

@[simp] theorem State.setX_a (s : State) (v : Byte) : (s.setX v).a = s.a := rfl
@[simp] theorem State.setX_x (s : State) (v : Byte) : (s.setX v).x = v := rfl
@[simp] theorem State.setX_y (s : State) (v : Byte) : (s.setX v).y = s.y := rfl
@[simp] theorem State.setX_pc (s : State) (v : Byte) : (s.setX v).pc = s.pc := rfl
@[simp] theorem State.setX_sp (s : State) (v : Byte) : (s.setX v).sp = s.sp := rfl
@[simp] theorem State.setX_p (s : State) (v : Byte) : (s.setX v).p = s.p := rfl
@[simp] theorem State.setX_cycles (s : State) (v : Byte) : (s.setX v).cycles = s.cycles := rfl
@[simp] theorem State.setX_halted (s : State) (v : Byte) : (s.setX v).halted = s.halted := rfl
@[simp] theorem State.setX_mem (s : State) (v : Byte) : (s.setX v).mem = s.mem := rfl
@[simp] theorem State.setX_debug (s : State) (v : Byte) : (s.setX v).debug = s.debug := rfl
@[simp] theorem State.setX_trace (s : State) (v : Byte) : (s.setX v).trace = s.trace := rfl
@[simp] theorem State.setX_busLog (s : State) (v : Byte) : (s.setX v).busLog = s.busLog := rfl
@[simp] theorem State.setX_history (s : State) (v : Byte) : (s.setX v).history = s.history := rfl
@[simp] theorem State.setX_params (s : State) (v : Byte) : (s.setX v).params = s.params := rfl

@[simp] theorem State.setY_a (s : State) (v : Byte) : (s.setY v).a = s.a := rfl
@[simp] theorem State.setY_x (s : State) (v : Byte) : (s.setY v).x = s.x := rfl
@[simp] theorem State.setY_y (s : State) (v : Byte) : (s.setY v).y = v := rfl
@[simp] theorem State.setY_pc (s : State) (v : Byte) : (s.setY v).pc = s.pc := rfl
@[simp] theorem State.setY_sp (s : State) (v : Byte) : (s.setY v).sp = s.sp := rfl
@[simp] theorem State.setY_p (s : State) (v : Byte) : (s.setY v).p = s.p := rfl
@[simp] theorem State.setY_cycles (s : State) (v : Byte) : (s.setY v).cycles = s.cycles := rfl
@[simp] theorem State.setY_halted (s : State) (v : Byte) : (s.setY v).halted = s.halted := rfl
@[simp] theorem State.setY_mem (s : State) (v : Byte) : (s.setY v).mem = s.mem := rfl
@[simp] theorem State.setY_debug (s : State) (v : Byte) : (s.setY v).debug = s.debug := rfl
@[simp] theorem State.setY_trace (s : State) (v : Byte) : (s.setY v).trace = s.trace := rfl
@[simp] theorem State.setY_busLog (s : State) (v : Byte) : (s.setY v).busLog = s.busLog := rfl
@[simp] theorem State.setY_history (s : State) (v : Byte) : (s.setY v).history = s.history := rfl
@[simp] theorem State.setY_params (s : State) (v : Byte) : (s.setY v).params = s.params := rfl

@[simp] theorem State.setSp_a (s : State) (v : Byte) : (s.setSp v).a = s.a := rfl
@[simp] theorem State.setSp_x (s : State) (v : Byte) : (s.setSp v).x = s.x := rfl
@[simp] theorem State.setSp_y (s : State) (v : Byte) : (s.setSp v).y = s.y := rfl
@[simp] theorem State.setSp_pc (s : State) (v : Byte) : (s.setSp v).pc = s.pc := rfl
@[simp] theorem State.setSp_sp (s : State) (v : Byte) : (s.setSp v).sp = v := rfl
@[simp] theorem State.setSp_p (s : State) (v : Byte) : (s.setSp v).p = s.p := rfl
@[simp] theorem State.setSp_cycles (s : State) (v : Byte) : (s.setSp v).cycles = s.cycles := rfl
@[simp] theorem State.setSp_halted (s : State) (v : Byte) : (s.setSp v).halted = s.halted := rfl
@[simp] theorem State.setSp_mem (s : State) (v : Byte) : (s.setSp v).mem = s.mem := rfl
@[simp] theorem State.setSp_debug (s : State) (v : Byte) : (s.setSp v).debug = s.debug := rfl
@[simp] theorem State.setSp_trace (s : State) (v : Byte) : (s.setSp v).trace = s.trace := rfl
@[simp] theorem State.setSp_busLog (s : State) (v : Byte) : (s.setSp v).busLog = s.busLog := rfl
@[simp] theorem State.setSp_history (s : State) (v : Byte) : (s.setSp v).history = s.history := rfl
@[simp] theorem State.setSp_params (s : State) (v : Byte) : (s.setSp v).params = s.params := rfl

@[simp] theorem State.setPc_a (s : State) (v : Word) : (s.setPc v).a = s.a := rfl
@[simp] theorem State.setPc_x (s : State) (v : Word) : (s.setPc v).x = s.x := rfl
@[simp] theorem State.setPc_y (s : State) (v : Word) : (s.setPc v).y = s.y := rfl
@[simp] theorem State.setPc_pc (s : State) (v : Word) : (s.setPc v).pc = v := rfl
@[simp] theorem State.setPc_sp (s : State) (v : Word) : (s.setPc v).sp = s.sp := rfl
@[simp] theorem State.setPc_p (s : State) (v : Word) : (s.setPc v).p = s.p := rfl
@[simp] theorem State.setPc_cycles (s : State) (v : Word) : (s.setPc v).cycles = s.cycles := rfl
@[simp] theorem State.setPc_halted (s : State) (v : Word) : (s.setPc v).halted = s.halted := rfl
@[simp] theorem State.setPc_mem (s : State) (v : Word) : (s.setPc v).mem = s.mem := rfl
@[simp] theorem State.setPc_debug (s : State) (v : Word) : (s.setPc v).debug = s.debug := rfl
@[simp] theorem State.setPc_trace (s : State) (v : Word) : (s.setPc v).trace = s.trace := rfl
@[simp] theorem State.setPc_busLog (s : State) (v : Word) : (s.setPc v).busLog = s.busLog := rfl
@[simp] theorem State.setPc_history (s : State) (v : Word) : (s.setPc v).history = s.history := rfl
@[simp] theorem State.setPc_params (s : State) (v : Word) : (s.setPc v).params = s.params := rfl

@[simp] theorem State.setP_a (s : State) (v : Byte) : (s.setP v).a = s.a := rfl
@[simp] theorem State.setP_x (s : State) (v : Byte) : (s.setP v).x = s.x := rfl
@[simp] theorem State.setP_y (s : State) (v : Byte) : (s.setP v).y = s.y := rfl
@[simp] theorem State.setP_pc (s : State) (v : Byte) : (s.setP v).pc = s.pc := rfl
@[simp] theorem State.setP_sp (s : State) (v : Byte) : (s.setP v).sp = s.sp := rfl
@[simp] theorem State.setP_p (s : State) (v : Byte) : (s.setP v).p = v := rfl
@[simp] theorem State.setP_cycles (s : State) (v : Byte) : (s.setP v).cycles = s.cycles := rfl
@[simp] theorem State.setP_halted (s : State) (v : Byte) : (s.setP v).halted = s.halted := rfl
@[simp] theorem State.setP_mem (s : State) (v : Byte) : (s.setP v).mem = s.mem := rfl
@[simp] theorem State.setP_debug (s : State) (v : Byte) : (s.setP v).debug = s.debug := rfl
@[simp] theorem State.setP_trace (s : State) (v : Byte) : (s.setP v).trace = s.trace := rfl
@[simp] theorem State.setP_busLog (s : State) (v : Byte) : (s.setP v).busLog = s.busLog := rfl
@[simp] theorem State.setP_history (s : State) (v : Byte) : (s.setP v).history = s.history := rfl
@[simp] theorem State.setP_params (s : State) (v : Byte) : (s.setP v).params = s.params := rfl

@[simp] theorem State.charge_a (s : State) (n : Nat) : (s.charge n).a = s.a := rfl
@[simp] theorem State.charge_x (s : State) (n : Nat) : (s.charge n).x = s.x := rfl
@[simp] theorem State.charge_y (s : State) (n : Nat) : (s.charge n).y = s.y := rfl
@[simp] theorem State.charge_pc (s : State) (n : Nat) : (s.charge n).pc = s.pc := rfl
@[simp] theorem State.charge_sp (s : State) (n : Nat) : (s.charge n).sp = s.sp := rfl
@[simp] theorem State.charge_p (s : State) (n : Nat) : (s.charge n).p = s.p := rfl
@[simp] theorem State.charge_cycles (s : State) (n : Nat) : (s.charge n).cycles = s.cycles + n := rfl
@[simp] theorem State.charge_halted (s : State) (n : Nat) : (s.charge n).halted = s.halted := rfl
@[simp] theorem State.charge_mem (s : State) (n : Nat) : (s.charge n).mem = s.mem := rfl
@[simp] theorem State.charge_debug (s : State) (n : Nat) : (s.charge n).debug = s.debug := rfl
@[simp] theorem State.charge_trace (s : State) (n : Nat) : (s.charge n).trace = s.trace := rfl
@[simp] theorem State.charge_busLog (s : State) (n : Nat) : (s.charge n).busLog = s.busLog := rfl
@[simp] theorem State.charge_history (s : State) (n : Nat) : (s.charge n).history = s.history := rfl
@[simp] theorem State.charge_params (s : State) (n : Nat) : (s.charge n).params = s.params := rfl

@[simp] theorem State.setFlag_a (s : State) (f : Flag) (b : Bool) : (s.setFlag f b).a = s.a := rfl
@[simp] theorem State.setFlag_x (s : State) (f : Flag) (b : Bool) : (s.setFlag f b).x = s.x := rfl
@[simp] theorem State.setFlag_y (s : State) (f : Flag) (b : Bool) : (s.setFlag f b).y = s.y := rfl
@[simp] theorem State.setFlag_pc (s : State) (f : Flag) (b : Bool) : (s.setFlag f b).pc = s.pc := rfl
@[simp] theorem State.setFlag_sp (s : State) (f : Flag) (b : Bool) : (s.setFlag f b).sp = s.sp := rfl
@[simp] theorem State.setFlag_p (s : State) (f : Flag) (b : Bool) : (s.setFlag f b).p = Sys2Proof.Machine.setFlag s.p f b := rfl
@[simp] theorem State.setFlag_cycles (s : State) (f : Flag) (b : Bool) : (s.setFlag f b).cycles = s.cycles := rfl
@[simp] theorem State.setFlag_halted (s : State) (f : Flag) (b : Bool) : (s.setFlag f b).halted = s.halted := rfl
@[simp] theorem State.setFlag_mem (s : State) (f : Flag) (b : Bool) : (s.setFlag f b).mem = s.mem := rfl
@[simp] theorem State.setFlag_debug (s : State) (f : Flag) (b : Bool) : (s.setFlag f b).debug = s.debug := rfl
@[simp] theorem State.setFlag_trace (s : State) (f : Flag) (b : Bool) : (s.setFlag f b).trace = s.trace := rfl
@[simp] theorem State.setFlag_busLog (s : State) (f : Flag) (b : Bool) : (s.setFlag f b).busLog = s.busLog := rfl
@[simp] theorem State.setFlag_history (s : State) (f : Flag) (b : Bool) : (s.setFlag f b).history = s.history := rfl
@[simp] theorem State.setFlag_params (s : State) (f : Flag) (b : Bool) : (s.setFlag f b).params = s.params := rfl

@[simp] theorem State.setZN_a (s : State) (v : Byte) : (s.setZN v).a = s.a := rfl
@[simp] theorem State.setZN_x (s : State) (v : Byte) : (s.setZN v).x = s.x := rfl
@[simp] theorem State.setZN_y (s : State) (v : Byte) : (s.setZN v).y = s.y := rfl
@[simp] theorem State.setZN_pc (s : State) (v : Byte) : (s.setZN v).pc = s.pc := rfl
@[simp] theorem State.setZN_sp (s : State) (v : Byte) : (s.setZN v).sp = s.sp := rfl
@[simp] theorem State.setZN_p (s : State) (v : Byte) :
    (s.setZN v).p = Sys2Proof.Machine.setFlag (Sys2Proof.Machine.setFlag s.p .z (v == 0)) .n (v.getLsbD 7) := rfl
@[simp] theorem State.setZN_cycles (s : State) (v : Byte) : (s.setZN v).cycles = s.cycles := rfl
@[simp] theorem State.setZN_halted (s : State) (v : Byte) : (s.setZN v).halted = s.halted := rfl
@[simp] theorem State.setZN_mem (s : State) (v : Byte) : (s.setZN v).mem = s.mem := rfl
@[simp] theorem State.setZN_debug (s : State) (v : Byte) : (s.setZN v).debug = s.debug := rfl
@[simp] theorem State.setZN_trace (s : State) (v : Byte) : (s.setZN v).trace = s.trace := rfl
@[simp] theorem State.setZN_busLog (s : State) (v : Byte) : (s.setZN v).busLog = s.busLog := rfl
@[simp] theorem State.setZN_history (s : State) (v : Byte) : (s.setZN v).history = s.history := rfl
@[simp] theorem State.setZN_params (s : State) (v : Byte) : (s.setZN v).params = s.params := rfl

@[simp] theorem State.setArith_a (s : State) (r : Byte) (c v : Bool) : (s.setArith r c v).a = r := rfl
@[simp] theorem State.setArith_x (s : State) (r : Byte) (c v : Bool) : (s.setArith r c v).x = s.x := rfl
@[simp] theorem State.setArith_y (s : State) (r : Byte) (c v : Bool) : (s.setArith r c v).y = s.y := rfl
@[simp] theorem State.setArith_pc (s : State) (r : Byte) (c v : Bool) : (s.setArith r c v).pc = s.pc := rfl
@[simp] theorem State.setArith_sp (s : State) (r : Byte) (c v : Bool) : (s.setArith r c v).sp = s.sp := rfl
@[simp] theorem State.setArith_p (s : State) (r : Byte) (c v : Bool) :
    (s.setArith r c v).p =
      Sys2Proof.Machine.setFlag (Sys2Proof.Machine.setFlag (Sys2Proof.Machine.setFlag (Sys2Proof.Machine.setFlag s.p .c c) .z (r == 0)) .n (r.getLsbD 7)) .v v := rfl
@[simp] theorem State.setArith_cycles (s : State) (r : Byte) (c v : Bool) : (s.setArith r c v).cycles = s.cycles := rfl
@[simp] theorem State.setArith_halted (s : State) (r : Byte) (c v : Bool) : (s.setArith r c v).halted = s.halted := rfl
@[simp] theorem State.setArith_mem (s : State) (r : Byte) (c v : Bool) : (s.setArith r c v).mem = s.mem := rfl
@[simp] theorem State.setArith_debug (s : State) (r : Byte) (c v : Bool) : (s.setArith r c v).debug = s.debug := rfl
@[simp] theorem State.setArith_trace (s : State) (r : Byte) (c v : Bool) : (s.setArith r c v).trace = s.trace := rfl
@[simp] theorem State.setArith_busLog (s : State) (r : Byte) (c v : Bool) : (s.setArith r c v).busLog = s.busLog := rfl
@[simp] theorem State.setArith_history (s : State) (r : Byte) (c v : Bool) : (s.setArith r c v).history = s.history := rfl
@[simp] theorem State.setArith_params (s : State) (r : Byte) (c v : Bool) : (s.setArith r c v).params = s.params := rfl

@[simp] theorem State.busRead_a (s : State) (addr : Word) : (s.busRead addr).2.a = s.a := rfl
@[simp] theorem State.busRead_x (s : State) (addr : Word) : (s.busRead addr).2.x = s.x := rfl
@[simp] theorem State.busRead_y (s : State) (addr : Word) : (s.busRead addr).2.y = s.y := rfl
@[simp] theorem State.busRead_pc (s : State) (addr : Word) : (s.busRead addr).2.pc = s.pc := rfl
@[simp] theorem State.busRead_sp (s : State) (addr : Word) : (s.busRead addr).2.sp = s.sp := rfl
@[simp] theorem State.busRead_p (s : State) (addr : Word) : (s.busRead addr).2.p = s.p := rfl
@[simp] theorem State.busRead_cycles (s : State) (addr : Word) : (s.busRead addr).2.cycles = s.cycles := rfl
@[simp] theorem State.busRead_halted (s : State) (addr : Word) : (s.busRead addr).2.halted = s.halted := rfl
@[simp] theorem State.busRead_mem (s : State) (addr : Word) : (s.busRead addr).2.mem = s.mem := rfl
@[simp] theorem State.busRead_debug (s : State) (addr : Word) : (s.busRead addr).2.debug = s.debug := rfl
@[simp] theorem State.busRead_trace (s : State) (addr : Word) : (s.busRead addr).2.trace = s.trace := rfl
@[simp] theorem State.busRead_busLog (s : State) (addr : Word) :
    (s.busRead addr).2.busLog = s.busLog ++ [.read addr (s.busByte addr)] := rfl
@[simp] theorem State.busRead_history (s : State) (addr : Word) :
    (s.busRead addr).2.history = .read addr (s.busByte addr) :: s.history := rfl
@[simp] theorem State.busRead_params (s : State) (addr : Word) : (s.busRead addr).2.params = s.params := rfl

@[simp] theorem State.busWrite_a (s : State) (addr : Word) (v : Byte) : (s.busWrite addr v).a = s.a := rfl
@[simp] theorem State.busWrite_x (s : State) (addr : Word) (v : Byte) : (s.busWrite addr v).x = s.x := rfl
@[simp] theorem State.busWrite_y (s : State) (addr : Word) (v : Byte) : (s.busWrite addr v).y = s.y := rfl
@[simp] theorem State.busWrite_pc (s : State) (addr : Word) (v : Byte) : (s.busWrite addr v).pc = s.pc := rfl
@[simp] theorem State.busWrite_sp (s : State) (addr : Word) (v : Byte) : (s.busWrite addr v).sp = s.sp := rfl
@[simp] theorem State.busWrite_p (s : State) (addr : Word) (v : Byte) : (s.busWrite addr v).p = s.p := rfl
@[simp] theorem State.busWrite_cycles (s : State) (addr : Word) (v : Byte) : (s.busWrite addr v).cycles = s.cycles := rfl
@[simp] theorem State.busWrite_halted (s : State) (addr : Word) (v : Byte) : (s.busWrite addr v).halted = s.halted := rfl
@[simp] theorem State.busWrite_mem (s : State) (addr : Word) (v : Byte) : (s.busWrite addr v).mem = s.memAfterWrite addr v := rfl
@[simp] theorem State.busWrite_debug (s : State) (addr : Word) (v : Byte) : (s.busWrite addr v).debug = s.debug := rfl
@[simp] theorem State.busWrite_trace (s : State) (addr : Word) (v : Byte) : (s.busWrite addr v).trace = s.trace := rfl
@[simp] theorem State.busWrite_busLog (s : State) (addr : Word) (v : Byte) :
    (s.busWrite addr v).busLog = s.busLog ++ [.write addr v] := rfl
@[simp] theorem State.busWrite_history (s : State) (addr : Word) (v : Byte) :
    (s.busWrite addr v).history = .write addr v :: s.history := rfl
@[simp] theorem State.busWrite_params (s : State) (addr : Word) (v : Byte) : (s.busWrite addr v).params = s.params := rfl

@[simp] theorem State.push_a (s : State) (v : Byte) : (s.push v).a = s.a := rfl
@[simp] theorem State.push_x (s : State) (v : Byte) : (s.push v).x = s.x := rfl
@[simp] theorem State.push_y (s : State) (v : Byte) : (s.push v).y = s.y := rfl
@[simp] theorem State.push_pc (s : State) (v : Byte) : (s.push v).pc = s.pc := rfl
@[simp] theorem State.push_sp (s : State) (v : Byte) : (s.push v).sp = s.sp - 1 := rfl
@[simp] theorem State.push_p (s : State) (v : Byte) : (s.push v).p = s.p := rfl
@[simp] theorem State.push_cycles (s : State) (v : Byte) : (s.push v).cycles = s.cycles := rfl
@[simp] theorem State.push_halted (s : State) (v : Byte) : (s.push v).halted = s.halted := rfl
@[simp] theorem State.push_mem (s : State) (v : Byte) : (s.push v).mem = s.memAfterWrite (stackAddr s.sp) v := rfl
@[simp] theorem State.push_debug (s : State) (v : Byte) : (s.push v).debug = s.debug := rfl
@[simp] theorem State.push_trace (s : State) (v : Byte) : (s.push v).trace = s.trace := rfl
@[simp] theorem State.push_busLog (s : State) (v : Byte) : (s.push v).busLog = s.busLog ++ [.write (stackAddr s.sp) v] := rfl
@[simp] theorem State.push_history (s : State) (v : Byte) : (s.push v).history = .write (stackAddr s.sp) v :: s.history := rfl
@[simp] theorem State.push_params (s : State) (v : Byte) : (s.push v).params = s.params := rfl

@[simp] theorem State.pull_a (s : State) : s.pull.2.a = s.a := rfl
@[simp] theorem State.pull_x (s : State) : s.pull.2.x = s.x := rfl
@[simp] theorem State.pull_y (s : State) : s.pull.2.y = s.y := rfl
@[simp] theorem State.pull_pc (s : State) : s.pull.2.pc = s.pc := rfl
@[simp] theorem State.pull_sp (s : State) : s.pull.2.sp = s.sp + 1 := rfl
@[simp] theorem State.pull_p (s : State) : s.pull.2.p = s.p := rfl
@[simp] theorem State.pull_cycles (s : State) : s.pull.2.cycles = s.cycles := rfl
@[simp] theorem State.pull_halted (s : State) : s.pull.2.halted = s.halted := rfl
@[simp] theorem State.pull_mem (s : State) : s.pull.2.mem = s.mem := rfl
@[simp] theorem State.pull_debug (s : State) : s.pull.2.debug = s.debug := rfl
@[simp] theorem State.pull_trace (s : State) : s.pull.2.trace = s.trace := rfl
@[simp] theorem State.pull_busLog (s : State) :
    s.pull.2.busLog = s.busLog ++ [.read (stackAddr (s.sp + 1)) (s.busByte (stackAddr (s.sp + 1)))] := rfl
@[simp] theorem State.pull_history (s : State) :
    s.pull.2.history = .read (stackAddr (s.sp + 1)) (s.busByte (stackAddr (s.sp + 1))) :: s.history := rfl
@[simp] theorem State.pull_params (s : State) : s.pull.2.params = s.params := rfl

@[simp] theorem State.beginStep_a (s : State) : s.beginStep.a = s.a := rfl
@[simp] theorem State.beginStep_x (s : State) : s.beginStep.x = s.x := rfl
@[simp] theorem State.beginStep_y (s : State) : s.beginStep.y = s.y := rfl
@[simp] theorem State.beginStep_pc (s : State) : s.beginStep.pc = s.pc := rfl
@[simp] theorem State.beginStep_sp (s : State) : s.beginStep.sp = s.sp := rfl
@[simp] theorem State.beginStep_p (s : State) : s.beginStep.p = s.p := rfl
@[simp] theorem State.beginStep_cycles (s : State) : s.beginStep.cycles = s.cycles := rfl
@[simp] theorem State.beginStep_halted (s : State) : s.beginStep.halted = s.halted := rfl
@[simp] theorem State.beginStep_mem (s : State) : s.beginStep.mem = s.mem := rfl
@[simp] theorem State.beginStep_debug (s : State) : s.beginStep.debug = s.debug := rfl
@[simp] theorem State.beginStep_trace (s : State) : s.beginStep.trace = none := rfl
@[simp] theorem State.beginStep_busLog (s : State) : s.beginStep.busLog = [] := rfl
@[simp] theorem State.beginStep_history (s : State) : s.beginStep.history = s.history := rfl
@[simp] theorem State.beginStep_params (s : State) : s.beginStep.params = s.params := rfl

@[simp] theorem State.setDebug_a (s : State) (b : Bool) : (s.setDebug b).a = s.a := rfl
@[simp] theorem State.setDebug_x (s : State) (b : Bool) : (s.setDebug b).x = s.x := rfl
@[simp] theorem State.setDebug_y (s : State) (b : Bool) : (s.setDebug b).y = s.y := rfl
@[simp] theorem State.setDebug_pc (s : State) (b : Bool) : (s.setDebug b).pc = s.pc := rfl
@[simp] theorem State.setDebug_sp (s : State) (b : Bool) : (s.setDebug b).sp = s.sp := rfl
@[simp] theorem State.setDebug_p (s : State) (b : Bool) : (s.setDebug b).p = s.p := rfl
@[simp] theorem State.setDebug_cycles (s : State) (b : Bool) : (s.setDebug b).cycles = s.cycles := rfl
@[simp] theorem State.setDebug_halted (s : State) (b : Bool) : (s.setDebug b).halted = s.halted := rfl
@[simp] theorem State.setDebug_mem (s : State) (b : Bool) : (s.setDebug b).mem = s.mem := rfl
@[simp] theorem State.setDebug_debug (s : State) (b : Bool) : (s.setDebug b).debug = b := rfl
@[simp] theorem State.setDebug_trace (s : State) (b : Bool) : (s.setDebug b).trace = s.trace := rfl
@[simp] theorem State.setDebug_busLog (s : State) (b : Bool) : (s.setDebug b).busLog = s.busLog := rfl
@[simp] theorem State.setDebug_history (s : State) (b : Bool) : (s.setDebug b).history = s.history := rfl
@[simp] theorem State.setDebug_params (s : State) (b : Bool) : (s.setDebug b).params = s.params := rfl

@[simp] theorem State.afterReads_a (s : State) (addrs : List Word) : (s.afterReads addrs).a = s.a := rfl
@[simp] theorem State.afterReads_x (s : State) (addrs : List Word) : (s.afterReads addrs).x = s.x := rfl
@[simp] theorem State.afterReads_y (s : State) (addrs : List Word) : (s.afterReads addrs).y = s.y := rfl
@[simp] theorem State.afterReads_pc (s : State) (addrs : List Word) : (s.afterReads addrs).pc = s.pc := rfl
@[simp] theorem State.afterReads_sp (s : State) (addrs : List Word) : (s.afterReads addrs).sp = s.sp := rfl
@[simp] theorem State.afterReads_p (s : State) (addrs : List Word) : (s.afterReads addrs).p = s.p := rfl
@[simp] theorem State.afterReads_cycles (s : State) (addrs : List Word) : (s.afterReads addrs).cycles = s.cycles := rfl
@[simp] theorem State.afterReads_halted (s : State) (addrs : List Word) : (s.afterReads addrs).halted = s.halted := rfl
@[simp] theorem State.afterReads_mem (s : State) (addrs : List Word) : (s.afterReads addrs).mem = s.mem := rfl
@[simp] theorem State.afterReads_debug (s : State) (addrs : List Word) : (s.afterReads addrs).debug = s.debug := rfl
@[simp] theorem State.afterReads_trace (s : State) (addrs : List Word) : (s.afterReads addrs).trace = s.trace := rfl
@[simp] theorem State.afterReads_busLog (s : State) (addrs : List Word) :
    (s.afterReads addrs).busLog = s.busLog ++ s.reads addrs := rfl
@[simp] theorem State.afterReads_history (s : State) (addrs : List Word) :
    (s.afterReads addrs).history = (s.reads addrs).reverse ++ s.history := rfl
@[simp] theorem State.afterReads_params (s : State) (addrs : List Word) : (s.afterReads addrs).params = s.params := rfl

@[simp] theorem State.busRead_value (s : State) (addr : Word) : (s.busRead addr).1 = s.busByte addr := rfl

@[simp] theorem State.pull_value (s : State) : s.pull.1 = s.busByte (stackAddr (s.sp + 1)) := rfl

/-! ## Places -/

/-- Where the bus takes a read depends on memory and the read windows only. -/
theorem State.readPlace_congr {s t : State} (hm : t.mem = s.mem) (hp : t.params.readMap = s.params.readMap) (addr : Word) :
    t.readPlace addr = s.readPlace addr := by
  simp [State.readPlace, hm, hp]

theorem State.writePlace_congr {s t : State} (hm : t.mem = s.mem) (hp : t.params.writeMap = s.params.writeMap) (addr : Word) :
    t.writePlace addr = s.writePlace addr := by
  simp [State.writePlace, hm, hp]

/-- The byte the bus answers depends on memory, the read windows and what the bus has done before, on nothing else. -/
theorem State.busByteAfter_congr {s t : State} (hm : t.mem = s.mem) (hp : t.params.readMap = s.params.readMap)
    (past : List BusAccess) (addr : Word) : t.busByteAfter past addr = s.busByteAfter past addr := by
  simp [State.busByteAfter, State.readPlace_congr hm hp, hm]

theorem State.busByte_congr {s t : State} (hm : t.mem = s.mem) (hp : t.params.readMap = s.params.readMap)
    (hh : t.history = s.history) (addr : Word) : t.busByte addr = s.busByte addr := by
  simp [State.busByte, State.busByteAfter_congr hm hp, hh]

/-- Outside all windows the bus takes an access to the address's own cell. -/
theorem placeIn_of_outside {windows : List BusWindow} {addr : Word} (h : ∀ w ∈ windows, windowHolds w addr = false) (mem : Memory) :
    placeIn windows mem addr = .cell addr.toNat := by
  induction windows with
  | nil => rfl
  | cons w rest ih =>
    rw [List.forall_mem_cons] at h
    simp [placeIn, h.1, ih h.2]

theorem plainAt.readPlace {s t : State} {addr : Word} (h : plainAt s addr) (hp : t.params = s.params) :
    t.readPlace addr = .cell addr.toNat :=
  placeIn_of_outside (fun w hw => h w (List.mem_append_left _ (hp ▸ hw))) t.mem

theorem plainAt.writePlace {s t : State} {addr : Word} (h : plainAt s addr) (hp : t.params = s.params) :
    t.writePlace addr = .cell addr.toNat :=
  placeIn_of_outside (fun w hw => h w (List.mem_append_right _ (hp ▸ hw))) t.mem

/-- Where no window is a device's, no place is. -/
theorem placeIn_ne_device {windows : List BusWindow} (h : ∀ w ∈ windows, ∀ k, w.target ≠ .device k) (mem : Memory) (addr : Word)
    (k : Nat) : placeIn windows mem addr ≠ .device k := by
  induction windows with
  | nil => simp [placeIn]
  | cons w rest ih =>
    rw [List.forall_mem_cons] at h
    unfold placeIn
    split
    · have := h.1 k
      cases ht : w.target <;> simp_all [windowPlace]
    · exact ih h.2

/-- Without devices the bus's answer does not depend on what it has done before. -/
theorem State.busByteAfter_of_noDevice {s : State} (h : noDevice s) (past past' : List BusAccess) (addr : Word) :
    s.busByteAfter past addr = s.busByteAfter past' addr := by
  have := placeIn_ne_device h s.mem addr
  unfold State.busByteAfter
  split <;> simp_all [State.readPlace]

theorem State.busByte_of_cell {s : State} {addr : Word} {c : Nat} (h : s.readPlace addr = .cell c) :
    s.busByte addr = s.mem.read c := by
  simp [State.busByte, State.busByteAfter, h]

/-- A cell takes a write, anything else ignores it. -/
theorem State.memAfterWrite_cell {s : State} {addr : Word} {c : Nat} (h : s.writePlace addr = .cell c) (v : Byte) :
    s.memAfterWrite addr v = s.mem.write c v := by
  simp [State.memAfterWrite, h]

theorem State.memAfterWrite_not_cell {s : State} {addr : Word} (h : ∀ c, s.writePlace addr ≠ .cell c) (v : Byte) :
    s.memAfterWrite addr v = s.mem := by
  unfold State.memAfterWrite
  split <;> simp_all

theorem State.mem_storedCells {s : State} {addr : Word} {c : Nat} : c ∈ s.storedCells addr ↔ s.writePlace addr = .cell c := by
  unfold State.storedCells
  cases s.writePlace addr <;> simp [eq_comm]

end Sys2Proof.Machine
end

