-- ==== Sys2Proof/Laws/Flags.lean ====
section
/-! SUPPORT. The status register bit by bit: what the two flag accessors read and write. -/

namespace Sys2Proof.Machine

/-- The bit number of a flag (10_state.md R27). -/
def Flag.bit : Flag → Nat
  | .c => 0
  | .z => 1
  | .i => 2
  | .d => 3
  | .b => 4
  | .v => 6
  | .n => 7

theorem Flag.mask_eq (f : Flag) : f.mask = BitVec.twoPow 8 f.bit := by cases f <;> rfl

theorem Flag.bit_lt (f : Flag) : f.bit < 8 := by cases f <;> decide

theorem Flag.bit_ne_five (f : Flag) : f.bit ≠ 5 := by cases f <;> decide

theorem Flag.bit_inj {f g : Flag} : f.bit = g.bit ↔ f = g := by cases f <;> cases g <;> decide

/-- `getFlag` reads the flag's bit. -/
theorem getFlag_eq (p : Byte) (f : Flag) : getFlag p f = p.getLsbD f.bit := by
  unfold getFlag
  rw [Flag.mask_eq, BitVec.and_twoPow]
  cases p.getLsbD f.bit <;> simp
  cases f <;> decide

/-- `setFlag` writes the flag's bit and leaves every other bit alone. -/
theorem getLsbD_setFlag (p : Byte) (f : Flag) (b : Bool) (k : Nat) :
    (setFlag p f b).getLsbD k = if k = f.bit then b else p.getLsbD k := by
  have hf := f.bit_lt
  unfold setFlag
  rw [Flag.mask_eq]
  by_cases hk : k < 8
  · cases b <;> by_cases h : k = f.bit <;> simp [h, hk, hf]
  · have hne : k ≠ f.bit := by omega
    simp [hne, BitVec.getLsbD_of_ge _ _ (Nat.le_of_not_lt hk)]

theorem getFlag_setFlag (p : Byte) (f g : Flag) (b : Bool) :
    getFlag (setFlag p f b) g = if g = f then b else getFlag p g := by
  simp [getFlag_eq, getLsbD_setFlag, Flag.bit_inj]

@[simp] theorem State.flag_eq (s : State) (f : Flag) : s.flag f = getFlag s.p f := rfl

theorem setFlag_bit5 (p : Byte) (f : Flag) (b : Bool) : (setFlag p f b).getLsbD 5 = p.getLsbD 5 := by
  rw [getLsbD_setFlag, if_neg (Ne.symm f.bit_ne_five)]

/-- The same in simp's normal form. -/
theorem setFlag_getElem5 (p : Byte) (f : Flag) (b : Bool) : (setFlag p f b)[5] = p[5] := by
  simpa using setFlag_bit5 p f b

/-- The status after the shared flag rule (R29): Z, N and everything else. -/
theorem getFlag_setZN (s : State) (v : Byte) (g : Flag) :
    getFlag (s.setZN v).p g = if g = .n then v.getLsbD 7 else if g = .z then v == 0 else getFlag s.p g := by
  simp [getFlag_setFlag]

theorem setZN_bit5 (s : State) (v : Byte) : (s.setZN v).p.getLsbD 5 = s.p.getLsbD 5 := by
  rw [State.setZN_p, setFlag_bit5, setFlag_bit5]

/-- Bit 7 of a byte, as its value. -/
theorem getLsbD_seven (v : Byte) : v.getLsbD 7 = decide (128 ≤ v.toNat) := by
  have := BitVec.msb_eq_decide v
  rw [BitVec.msb_eq_getLsbD_last] at this
  simpa using this

/-- A byte is zero when its value is. -/
theorem byte_beq_zero (v : Byte) : (v == 0#8) = decide (v.toNat = 0) := by
  by_cases h : v = 0#8
  · simp [h]
  · have : v.toNat ≠ 0 := fun h0 => h (BitVec.eq_of_toNat_eq (by simpa using h0))
    simp [h, this]

/-- The overflow formula of R153: the signs of both operands differ from the sign of the result. -/
theorem overflowFormula_eq (a v r : Byte) :
    overflowFormula a v r = (a.getLsbD 7 != r.getLsbD 7 && v.getLsbD 7 != r.getLsbD 7) := by
  have h : (0x80 : Byte) = BitVec.twoPow 8 7 := rfl
  unfold overflowFormula
  rw [h, BitVec.and_twoPow]
  simp only [BitVec.getLsbD_and, BitVec.getLsbD_xor]
  cases a.getLsbD 7 <;> cases v.getLsbD 7 <;> cases r.getLsbD 7 <;> decide

/-- ADC's result is the sum modulo 256. -/
theorem adcResult_toNat (a v : Byte) (c : Bool) : (adcResult a v c).toNat = adcSum a v c % 256 := by simp [adcResult]

/-- SBC's result is the difference modulo 256. -/
theorem sbcResult_toNat (a v : Byte) (c : Bool) : ((sbcResult a v c).toNat : Int) = sbcDiff a v c % 256 := by
  simp only [sbcResult, BitVec.toNat_ofInt]
  omega

end Sys2Proof.Machine
end

