-- ==== Sys2Proof/Laws/Memory.lean ====
section
/-! SUPPORT. Memory: a read after a write, and that every memory operation keeps the canonical form. -/

namespace Sys2Proof.Machine

theorem Memory.wfFrom_cons {lo k : Nat} {b : Byte} {rest : Memory} :
    Memory.wfFrom lo ((k, b) :: rest) = true ↔
      lo ≤ k ∧ b ≠ Memory.background ∧ Memory.wfFrom (k + 1) rest = true := by
  simp [Memory.wfFrom, and_assoc]

/-- A canonical list stays canonical from any lower bound. -/
theorem Memory.wfFrom_mono {m : Memory} {lo lo' : Nat} (h : lo ≤ lo') (hm : Memory.wfFrom lo' m = true) :
    Memory.wfFrom lo m = true := by
  cases m with
  | nil => rfl
  | cons c rest =>
    obtain ⟨k, b⟩ := c
    rw [Memory.wfFrom_cons] at hm ⊢
    exact ⟨by omega, hm.2⟩

/-- An address below a canonical list reads as the background. -/
theorem Memory.read_below {m : Memory} {lo addr : Nat} (hm : Memory.wfFrom lo m = true) (h : addr < lo) :
    m.read addr = Memory.background := by
  induction m generalizing lo with
  | nil => rfl
  | cons c rest ih =>
    obtain ⟨k, b⟩ := c
    rw [Memory.wfFrom_cons] at hm
    have hne : addr ≠ k := by omega
    simp only [Memory.read, hne, if_false]
    exact ih hm.2.2 (by omega)

/-- Putting the cell of an address before a list that starts above it. -/
theorem Memory.read_cell_append {m : Memory} {addr : Nat} (v : Byte) (b : Nat) (hm : Memory.wfFrom (addr + 1) m = true) :
    Memory.read (Memory.cell addr v ++ m) b = if b = addr then v else m.read b := by
  unfold Memory.cell
  split
  · rename_i hv
    split
    · rename_i hb
      subst hb hv
      exact Memory.read_below hm (Nat.lt_succ_self _)
    · simp
  · simp [Memory.read]

theorem Memory.wfFrom_cell_append {m : Memory} {lo addr : Nat} (v : Byte) (hlo : lo ≤ addr)
    (hm : Memory.wfFrom (addr + 1) m = true) : Memory.wfFrom lo (Memory.cell addr v ++ m) = true := by
  unfold Memory.cell
  split
  · exact Memory.wfFrom_mono (by omega) hm
  · rename_i hv
    exact Memory.wfFrom_cons.mpr ⟨hlo, hv, hm⟩

/-- A write changes the byte at its address and no other. -/
theorem Memory.read_write {m : Memory} {lo : Nat} (hm : Memory.wfFrom lo m = true) (addr : Nat) (v : Byte) (b : Nat) :
    (m.write addr v).read b = if b = addr then v else m.read b := by
  induction m generalizing lo with
  | nil =>
    have h := Memory.read_cell_append (m := []) (addr := addr) v b rfl
    simpa [Memory.write] using h
  | cons c rest ih =>
    obtain ⟨k, w⟩ := c
    rw [Memory.wfFrom_cons] at hm
    simp only [Memory.write]
    split
    · rename_i hlt
      exact Memory.read_cell_append v b (Memory.wfFrom_cons.mpr ⟨by omega, hm.2⟩)
    · split
      · rename_i heq
        subst heq
        rw [Memory.read_cell_append v b hm.2.2]
        split
        · rfl
        · rename_i hne
          simp [Memory.read, hne]
      · rename_i hnlt hne
        simp only [Memory.read, ih hm.2.2]
        split
        · rename_i hbk
          have : b ≠ addr := by omega
          simp [this]
        · rfl

/-- A write keeps the canonical form. -/
theorem Memory.wfFrom_write {m : Memory} {lo c : Nat} (hm : Memory.wfFrom lo m = true) (hlo : lo ≤ c) (v : Byte) :
    Memory.wfFrom lo (m.write c v) = true := by
  induction m generalizing lo with
  | nil => simpa [Memory.write] using Memory.wfFrom_cell_append (m := []) v hlo rfl
  | cons e rest ih =>
    obtain ⟨k, w⟩ := e
    rw [Memory.wfFrom_cons] at hm
    simp only [Memory.write]
    split
    · exact Memory.wfFrom_cell_append v hlo (Memory.wfFrom_cons.mpr ⟨by omega, hm.2⟩)
    · split
      · rename_i heq
        subst heq
        exact Memory.wfFrom_cell_append v hm.1 hm.2.2
      · exact Memory.wfFrom_cons.mpr ⟨hm.1, hm.2.1, ih hm.2.2 (by omega)⟩

theorem Memory.wf_write {m : Memory} (hm : m.wf = true) (c : Nat) (v : Byte) : (m.write c v).wf = true :=
  Memory.wfFrom_write hm (Nat.zero_le _) v

/-- Two canonical memories that read alike everywhere are equal data. -/
theorem Memory.ext_of_read {m m' : Memory} {lo : Nat} (hm : Memory.wfFrom lo m = true) (hm' : Memory.wfFrom lo m' = true)
    (h : ∀ addr, m.read addr = m'.read addr) : m = m' := by
  induction m generalizing m' lo with
  | nil =>
    cases m' with
    | nil => rfl
    | cons c rest =>
      obtain ⟨k, b⟩ := c
      rw [Memory.wfFrom_cons] at hm'
      exact absurd ((h k).trans (by simp [Memory.read])).symm hm'.2.1
  | cons c rest ih =>
    obtain ⟨k, b⟩ := c
    rw [Memory.wfFrom_cons] at hm
    cases m' with
    | nil => exact absurd ((h k).symm.trans (by simp [Memory.read])).symm hm.2.1
    | cons c' rest' =>
      obtain ⟨k', b'⟩ := c'
      rw [Memory.wfFrom_cons] at hm'
      have hkk : k = k' := by
        by_contra hne
        rcases Nat.lt_or_gt_of_ne hne with hlt | hlt
        · have hr := h k
          rw [Memory.read_below (lo := k') (Memory.wfFrom_cons.mpr ⟨le_refl _, hm'.2⟩) hlt] at hr
          exact hm.2.1 (by simpa [Memory.read] using hr)
        · have hr := h k'
          rw [Memory.read_below (lo := k) (Memory.wfFrom_cons.mpr ⟨le_refl _, hm.2⟩) hlt] at hr
          exact hm'.2.1 (by simpa [Memory.read] using hr.symm)
      subst hkk
      have hb : b = b' := by simpa [Memory.read] using h k
      subst hb
      refine congrArg _ (ih hm.2.2 hm'.2.2 fun addr => ?_)
      by_cases hk : addr = k
      · subst hk
        rw [Memory.read_below hm.2.2 (Nat.lt_succ_self _), Memory.read_below hm'.2.2 (Nat.lt_succ_self _)]
      · simpa [Memory.read, hk] using h addr

/-- A bus write keeps the canonical form, wherever the bus takes it. -/
theorem State.memAfterWrite_wf {s : State} (hm : s.mem.wf = true) (addr : Word) (v : Byte) :
    (s.memAfterWrite addr v).wf = true := by
  unfold State.memAfterWrite
  split
  · exact Memory.wf_write hm _ v
  · exact hm
  · exact hm

/-- Everything a bus write does to memory: the cell it is taken to holds the byte written, and no other cell changes. -/
theorem State.read_memAfterWrite {s : State} (hm : s.mem.wf = true) (addr : Word) (v : Byte) (c : Nat) :
    (s.memAfterWrite addr v).read c = if s.writePlace addr = .cell c then v else s.mem.read c := by
  unfold State.memAfterWrite
  split <;> rename_i hk
  · rw [Memory.read_write hm]
    simp [hk, eq_comm]
  · simp [hk]
  · simp [hk]

/-- Loading program bytes keeps the canonical form. -/
theorem State.load_wf {s : State} (hm : s.mem.wf = true) (addr : Word) (bs : List Byte) : (s.load addr bs).mem.wf = true := by
  induction bs generalizing s addr with
  | nil => exact hm
  | cons b rest ih =>
    refine ih ?_ _
    show (s.memWithByte addr b).wf = true
    unfold State.memWithByte
    split
    · exact Memory.wf_write hm _ b
    · exact hm
    · exact hm

theorem reset_mem_wf : State.reset.mem.wf = true := rfl

end Sys2Proof.Machine
end

