-- ==== Sys2Proof/Laws/Operands.lean ====
section
/-! SUPPORT. What the bus reads and the resolvers can do, said once: a resolver leaves the state after some bus reads and a
cycle charge, and hands the executor the fields its mode fills. -/

namespace Sys2Proof.Machine

/-! ## Bus reads -/

theorem State.busRead_eq (s : State) (addr : Word) : s.busRead addr = (s.busByte addr, s.afterReads [addr]) := rfl

@[simp] theorem State.reads_nil (s : State) : s.reads [] = [] := rfl

@[simp] theorem State.afterReads_nil (s : State) : s.afterReads [] = s := by
  simp [State.afterReads]

theorem readsAfter_congr {s t : State} (hm : t.mem = s.mem) (hp : t.params.readMap = s.params.readMap) (past : List BusAccess)
    (l : List Word) : readsAfter t past l = readsAfter s past l := by
  induction l generalizing past with
  | nil => rfl
  | cons addr rest ih => simp [readsAfter, State.busByteAfter_congr hm hp, ih]

theorem readsAfter_append (s : State) (past : List BusAccess) (l l' : List Word) :
    readsAfter s past (l ++ l') = readsAfter s past l ++ readsAfter s ((readsAfter s past l).reverse ++ past) l' := by
  induction l generalizing past with
  | nil => simp [readsAfter]
  | cons addr rest ih => simp [readsAfter, ih]

@[simp] theorem State.reads_length (s : State) (l : List Word) : (s.reads l).length = l.length := by
  unfold State.reads
  generalize s.history = past
  induction l generalizing past with
  | nil => rfl
  | cons addr rest ih => simp [readsAfter, ih]

/-- Two runs of reads one after the other are one run of reads. -/
theorem State.reads_append (s : State) (l l' : List Word) : s.reads (l ++ l') = s.reads l ++ (s.afterReads l).reads l' := by
  simp only [State.reads, readsAfter_append, State.afterReads_history]
  rw [readsAfter_congr (s := s) (t := s.afterReads l) rfl rfl]

/-- What the bus answers to reads depends on memory, the read windows and its history, on nothing else. -/
theorem State.reads_congr {s t : State} (hm : t.mem = s.mem) (hp : t.params.readMap = s.params.readMap)
    (hh : t.history = s.history) (l : List Word) : t.reads l = s.reads l := by
  simp [State.reads, hh, readsAfter_congr hm hp]

/-- Reads compose. -/
theorem State.afterReads_append (s : State) (l l' : List Word) :
    (s.afterReads l).afterReads l' = s.afterReads (l ++ l') := by
  have h := State.reads_append s l l'
  simp only [State.afterReads, List.append_assoc] at h ⊢
  simp only [h, List.reverse_append, List.append_assoc]

@[simp] theorem State.busByteAfter_afterReads (s : State) (l : List Word) (past : List BusAccess) (addr : Word) :
    (s.afterReads l).busByteAfter past addr = s.busByteAfter past addr := rfl

@[simp] theorem State.busByteAfter_charge (s : State) (k : Nat) (past : List BusAccess) (addr : Word) :
    (s.charge k).busByteAfter past addr = s.busByteAfter past addr := rfl

@[simp] theorem State.busByteAfter_setPc (s : State) (w : Word) (past : List BusAccess) (addr : Word) :
    (s.setPc w).busByteAfter past addr = s.busByteAfter past addr := rfl

@[simp] theorem State.busByteAfter_setSp (s : State) (v : Byte) (past : List BusAccess) (addr : Word) :
    (s.setSp v).busByteAfter past addr = s.busByteAfter past addr := rfl

@[simp] theorem State.busByte_charge (s : State) (k : Nat) (addr : Word) : (s.charge k).busByte addr = s.busByte addr := rfl

@[simp] theorem State.busByte_setPc (s : State) (w addr : Word) : (s.setPc w).busByte addr = s.busByte addr := rfl

@[simp] theorem State.busByte_setSp (s : State) (v : Byte) (addr : Word) : (s.setSp v).busByte addr = s.busByte addr := rfl

@[simp] theorem State.busByte_beginStep (s : State) (addr : Word) : s.beginStep.busByte addr = s.busByte addr := rfl

/-- Charging cycles and reading the bus commute. -/
theorem State.charge_afterReads (s : State) (k : Nat) (l : List Word) :
    (s.charge k).afterReads l = (s.afterReads l).charge k := by
  have h : (s.charge k).reads l = s.reads l := State.reads_congr (s := s) (t := s.charge k) rfl rfl rfl l
  simp only [State.afterReads, h]
  rfl

/-- Moving `PC` and reading the bus commute. -/
theorem State.setPc_afterReads (s : State) (w : Word) (l : List Word) : (s.setPc w).afterReads l = (s.afterReads l).setPc w := by
  have h : (s.setPc w).reads l = s.reads l := State.reads_congr (s := s) (t := s.setPc w) rfl rfl rfl l
  simp only [State.afterReads, h]
  rfl

/-- Fetching a byte is a bus read at `PC`, which moves on by one. -/
theorem State.fetch8_eq (s : State) : s.fetch8 = (s.busByte s.pc, (s.afterReads [s.pc]).setPc (s.pc + 1)) := rfl

/-! ## Latching -/

/-- Everything `latchMemory` can do: the operand it answers and the state, by `P_EA_READ`. -/
theorem latchMemory_eq (ea : Word) (crossed : Bool) (cost : Nat) (s : State) :
    latchMemory ea crossed cost s =
      match s.params.eaRead with
      | .always => (⟨some (s.busByte ea), some ea, crossed⟩, (s.afterReads [ea]).charge cost)
      | .onUse => (⟨none, some ea, crossed⟩, s.charge cost) := by
  unfold latchMemory
  cases s.params.eaRead <;> rfl

theorem latchMemory_ea (ea : Word) (crossed : Bool) (cost : Nat) (s : State) : (latchMemory ea crossed cost s).1.ea = some ea := by
  unfold latchMemory
  cases s.params.eaRead <;> rfl

/-- A latched memory operand's value is the byte at its address, however it is read; one read more, and the charge. -/
theorem operandValue_latchMemory (ea : Word) (crossed : Bool) (cost : Nat) (s : State) :
    operandValue (latchMemory ea crossed cost s) = some (s.busByte ea, (s.afterReads [ea]).charge cost) := by
  rw [latchMemory_eq]
  cases s.params.eaRead <;> simp [operandValue, State.busRead_eq, State.charge_afterReads]

/-- The state a latching leaves: no read or the one at the address, then the charge. -/
theorem latchMemory_state (ea : Word) (crossed : Bool) (cost : Nat) (s : State) :
    (latchMemory ea crossed cost s).2 = (s.afterReads (if s.params.eaRead = .always then [ea] else [])).charge cost := by
  rw [latchMemory_eq]
  cases h : s.params.eaRead <;> simp

/-! ## The resolvers -/

/-- The pointer reads of (indirect),Y and the base they give. -/
theorem indirectYBase_eq (op8 : Byte) (s : State) :
    indirectYBase op8 s =
      match s.params.indyPtr with
      | .one => (zext16 (s.busByte (zext16 op8)), s.afterReads [zext16 op8])
      | .two => (joinBytes ((s.afterReads [zext16 op8]).busByte (zext16 (op8 + 1))) (s.busByte (zext16 op8)),
          s.afterReads [zext16 op8, zext16 (op8 + 1)]) := by
  unfold indirectYBase
  cases s.params.indyPtr
  · rfl
  · simp [State.busRead_eq, zeropageSum, State.afterReads_append]

theorem indirectYBase_state (op8 : Byte) (s : State) : ∃ reads, (indirectYBase op8 s).2 = s.afterReads reads := by
  rw [indirectYBase_eq]
  cases s.params.indyPtr <;> exact ⟨_, rfl⟩

@[simp] theorem latchMemory_crossed (ea : Word) (crossed : Bool) (cost : Nat) (s : State) :
    (latchMemory ea crossed cost s).1.crossed = crossed := by
  unfold latchMemory
  cases s.params.eaRead <;> rfl

/-- Everything a resolver does to the state: it reads some addresses and charges its mode's base cost, plus one where the
operand it hands on is marked as crossing a page. -/
theorem resolve_state (m : Mode) (lo hi : Byte) (s : State) :
    ∃ reads, (resolve m lo hi s).2 = (s.afterReads reads).charge (baseCost m + (resolve m lo hi s).1.crossed.toNat) := by
  cases m <;> simp only [resolve, resolveZeropage, resolveZeropageX, resolveAbsolute, resolveAbsoluteX, resolveAbsoluteY,
    resolveAbsoluteIndexed, resolveIndirectX, resolveIndirectY, latchMemory_state, latchMemory_crossed]
  case implied => exact ⟨[], by simp [resolveImplied, baseCost]⟩
  case immediate => exact ⟨[], by simp [resolveImmediate, baseCost]⟩
  case relative => exact ⟨[], by simp [resolveRelative, baseCost]⟩
  case indirectX =>
    rw [State.busRead_eq, State.afterReads_append]
    exact ⟨_, rfl⟩
  case indirectY =>
    obtain ⟨reads, h⟩ := indirectYBase_state lo s
    rw [h, State.afterReads_append]
    exact ⟨_, rfl⟩
  all_goals exact ⟨_, rfl⟩

/-- Only the two indexed absolute modes and (indirect),Y can mark a page crossing. -/
theorem resolve_crossed {m : Mode} {lo hi : Byte} {s : State} (h : (resolve m lo hi s).1.crossed = true) :
    m ∈ [.absoluteX, .absoluteY, .indirectY] := by
  cases m <;> simp_all [resolve, resolveImplied, resolveImmediate, resolveRelative, resolveZeropage, resolveZeropageX,
    resolveAbsolute, resolveIndirectX]

/-- A mode that gives a value gives one, after some reads and the same charge as the resolver's. -/
theorem operandValue_resolve {m : Mode} (h : m.givesValue = true) (lo hi : Byte) (s : State) :
    ∃ v reads n, operandValue (resolve m lo hi s) = some (v, (s.afterReads reads).charge n) ∧
      (resolve m lo hi s).2.cycles = s.cycles + n := by
  cases m
  case implied => simp [Mode.givesValue] at h
  case immediate => exact ⟨lo, [], 2, by simp [resolve, resolveImmediate, operandValue], rfl⟩
  case relative => exact ⟨lo, [], 2, by simp [resolve, resolveRelative, operandValue], rfl⟩
  all_goals
    simp only [resolve, resolveZeropage, resolveZeropageX, resolveAbsolute, resolveAbsoluteX, resolveAbsoluteY,
      resolveAbsoluteIndexed, resolveIndirectX, resolveIndirectY, operandValue_latchMemory, latchMemory_state,
      State.busRead_eq, State.afterReads_append, indirectYBase_eq]
  case indirectY =>
    cases s.params.indyPtr <;> exact ⟨_, _, _, by rw [State.afterReads_append], rfl⟩
  all_goals exact ⟨_, _, _, rfl, rfl⟩

/-- A mode that gives an effective address fills it. -/
theorem resolve_ea {m : Mode} (h : m.givesEa = true) (lo hi : Byte) (s : State) : ∃ ea, (resolve m lo hi s).1.ea = some ea := by
  cases m
  case implied => simp [Mode.givesEa] at h
  case immediate => simp [Mode.givesEa] at h
  case relative => exact ⟨_, rfl⟩
  all_goals exact ⟨_, latchMemory_ea ..⟩

/-- A memory mode reads its pointer addresses, then latches the byte at its effective address. -/
theorem resolved_memory {i : Instr} (h : isMemoryMode i.mode = true) (s : State) :
    ∃ ea crossed cost, resolved i s = latchMemory ea crossed cost (s.afterReads (pointerAddrs i s)) := by
  unfold resolved pointerAddrs
  cases hm : i.mode <;> simp [hm, isMemoryMode] at h <;> simp only [resolve]
  case indirectX => exact ⟨_, _, _, rfl⟩
  case indirectY =>
    simp only [resolveIndirectY, indirectYBase_eq]
    cases s.params.indyPtr <;> exact ⟨_, _, _, rfl⟩
  all_goals exact ⟨_, _, _, by simp only [State.afterReads_nil]; rfl⟩

/-! ## Updates a resolver does not notice -/

/-- An update of the state that no bus read and no cycle charge notices, and that leaves what a resolver computes with alone. -/
structure BusCommutes (F : State → State) : Prop where
  params  : ∀ s, (F s).params = s.params
  x       : ∀ s, (F s).x = s.x
  y       : ∀ s, (F s).y = s.y
  pc      : ∀ s, (F s).pc = s.pc
  history : ∀ s, (F s).history = s.history
  read    : ∀ s addr, (F s).busRead addr = ((s.busRead addr).1, F (s.busRead addr).2)
  charge  : ∀ s n, (F s).charge n = F (s.charge n)

theorem busCommutes_setP (v : Byte) : BusCommutes fun s => s.setP v :=
  ⟨fun _ => rfl, fun _ => rfl, fun _ => rfl, fun _ => rfl, fun _ => rfl, fun _ _ => rfl, fun _ _ => rfl⟩

theorem busCommutes_setFlag (f : Flag) (b : Bool) : BusCommutes fun s => s.setFlag f b :=
  ⟨fun _ => rfl, fun _ => rfl, fun _ => rfl, fun _ => rfl, fun _ => rfl, fun _ _ => rfl, fun _ _ => rfl⟩

theorem busCommutes_setDebug (b : Bool) : BusCommutes fun s => s.setDebug b :=
  ⟨fun _ => rfl, fun _ => rfl, fun _ => rfl, fun _ => rfl, fun _ => rfl, fun _ _ => rfl, fun _ _ => rfl⟩

theorem busCommutes_charge (k : Nat) : BusCommutes fun s => s.charge k :=
  ⟨fun _ => rfl, fun _ => rfl, fun _ => rfl, fun _ => rfl, fun _ => rfl, fun _ _ => rfl,
    fun s n => by simp [State.charge, Nat.add_right_comm]⟩

variable {F : State → State}

theorem latchMemory_commutes (hF : BusCommutes F) (ea : Word) (crossed : Bool) (cost : Nat) (s : State) :
    latchMemory ea crossed cost (F s) = ((latchMemory ea crossed cost s).1, F (latchMemory ea crossed cost s).2) := by
  unfold latchMemory
  rw [hF.params]
  cases s.params.eaRead <;> simp [hF.read, hF.charge]

theorem indirectYBase_commutes (hF : BusCommutes F) (op8 : Byte) (s : State) :
    indirectYBase op8 (F s) = ((indirectYBase op8 s).1, F (indirectYBase op8 s).2) := by
  unfold indirectYBase
  rw [hF.params]
  cases s.params.indyPtr <;> simp only [hF.read]

/-- A resolver hands on the same operand, and the update of the state it would leave. -/
theorem resolve_commutes (hF : BusCommutes F) (m : Mode) (lo hi : Byte) (s : State) :
    resolve m lo hi (F s) = ((resolve m lo hi s).1, F (resolve m lo hi s).2) := by
  cases m <;> simp only [resolve]
  case implied => simp [resolveImplied, hF.charge]
  case immediate => simp [resolveImmediate, hF.charge]
  case relative => simp [resolveRelative, hF.charge, hF.pc]
  case zeropage => exact latchMemory_commutes hF ..
  case zeropageX => simp only [resolveZeropageX, hF.x, latchMemory_commutes hF]
  case absolute => exact latchMemory_commutes hF ..
  case absoluteX => simp only [resolveAbsoluteX, resolveAbsoluteIndexed, hF.x, latchMemory_commutes hF]
  case absoluteY => simp only [resolveAbsoluteY, resolveAbsoluteIndexed, hF.y, latchMemory_commutes hF]
  case indirectX =>
    simp only [resolveIndirectX, hF.x, hF.read, latchMemory_commutes hF, State.indxHighByte, hF.params, hF.history]
  case indirectY => simp only [resolveIndirectY, indirectYBase_commutes hF, hF.y, latchMemory_commutes hF]

/-- Getting the operand's value gives the same byte, and the update of the state it would leave. -/
theorem operandValue_commutes (hF : BusCommutes F) (o : Opnd) (s : State) :
    operandValue (o, F s) = (operandValue (o, s)).map fun r => (r.1, F r.2) := by
  obtain ⟨value, ea, crossed⟩ := o
  cases value <;> cases ea <;> simp [operandValue, hF.read]

/-! ## Executors over the operand -/

/-- `withValue` on an operand that gives a value runs its continuation. -/
theorem withValue_some {r : Resolved} {v : Byte} {s : State} (h : operandValue r = some (v, s)) (k : Byte → State → Result) :
    withValue r k = k v s := by
  simp [withValue, h]

/-- `withEa` on an operand with an effective address runs its continuation. -/
theorem withEa_some {r : Resolved} {ea : Word} (h : r.1.ea = some ea) (k : Word → State → Result) : withEa r k = k ea r.2 := by
  simp [withEa, h]

/-- An instruction whose executor uses the value is in a mode that gives one. -/
theorem Instr.givesValue {i : Instr} (h : i.mnemonic.usesValue = true) : i.mode.givesValue = true := by
  cases i <;> simp_all [Instr.mnemonic, Instr.mode, Mnemonic.usesValue, Mode.givesValue]

/-- An instruction whose executor uses the effective address is in a mode that gives one. -/
theorem Instr.givesEa {i : Instr} (h : i.mnemonic.usesEa = true) : i.mode.givesEa = true := by
  cases i <;> simp_all [Instr.mnemonic, Instr.mode, Mnemonic.usesEa, Mode.givesEa]

end Sys2Proof.Machine
end

