-- ==== Sys2Proof/Laws/Executors.lean ====
section
/-! SUPPORT. What every executor keeps of the state it is handed, whatever its operand, one lemma per executor; and
the inversion lemmas of `withValue` and `withEa`, which say all that an answer of theirs can be. -/

namespace Sys2Proof.Machine

/-- What no executor and no resolver breaks: parameters, debug flag, trace line and `halted` stay; bit 5 of `P`, the canonical
form of memory and the growth of `cycles` are kept. -/
structure Maintains (s t : State) : Prop where
  params : t.params = s.params
  debug  : t.debug = s.debug
  trace  : t.trace = s.trace
  halted : t.halted = s.halted
  bit5   : s.p.getLsbD 5 = true → t.p.getLsbD 5 = true
  mem    : s.mem.wf = true → t.mem.wf = true
  cycles : s.cycles ≤ t.cycles

theorem Maintains.refl (s : State) : Maintains s s := ⟨rfl, rfl, rfl, rfl, id, id, Nat.le_refl _⟩

theorem Maintains.trans {s t u : State} (h : Maintains s t) (h' : Maintains t u) : Maintains s u :=
  ⟨h'.params.trans h.params, (Maintains.debug h').trans h.debug, h'.trace.trans h.trace, h'.halted.trans h.halted,
    h'.bit5 ∘ h.bit5, h'.mem ∘ h.mem, Nat.le_trans h.cycles h'.cycles⟩

/-! ## Inversion -/

/-- Getting the operand's value leaves the state after at most one more read. -/
theorem operandValue_state {r : Resolved} {v : Byte} {s : State} (h : operandValue r = some (v, s)) :
    ∃ reads, s = r.2.afterReads reads := by
  unfold operandValue at h
  split at h
  · cases h
    exact ⟨[], by simp⟩
  · split at h
    · rename_i ea _
      cases h
      exact ⟨[ea], rfl⟩
    · cases h

/-- An executor over the value that answered got a value, after some reads. -/
theorem withValue_next {r : Resolved} {k : Byte → State → Result} {t : State} (h : withValue r k = .next t) :
    ∃ v reads, operandValue r = some (v, r.2.afterReads reads) ∧ k v (r.2.afterReads reads) = .next t := by
  unfold withValue at h
  split at h
  · rename_i v s hv
    obtain ⟨reads, rfl⟩ := operandValue_state hv
    exact ⟨v, reads, hv, h⟩
  · cases h

/-- An executor over the effective address that answered got one. -/
theorem withEa_next {r : Resolved} {k : Word → State → Result} {t : State} (h : withEa r k = .next t) :
    ∃ ea, r.1.ea = some ea ∧ k ea r.2 = .next t := by
  unfold withEa at h
  split at h
  · exact ⟨_, by assumption, h⟩
  · cases h

/-! ## The executors -/

theorem branchWhen_maintains {f : Flag} {w : Bool} {r : Resolved} {t : State} (h : branchWhen f w r = .next t) :
    Maintains r.2 t := by
  obtain ⟨ea, -, h⟩ := withEa_next h
  obtain rfl := Host.Outcome.next.inj h
  split
  · exact ⟨rfl, rfl, rfl, rfl, id, id, Nat.le_succ _⟩
  · exact Maintains.refl _

/-- Pulling: the byte the bus gives above `SP`, one read, and `SP` one up. -/
theorem State.pull_eq (s : State) :
    s.pull = (s.busByte (stackAddr (s.sp + 1)), (s.afterReads [stackAddr (s.sp + 1)]).setSp (s.sp + 1)) := rfl

theorem pull_maintains (s : State) : Maintains s s.pull.2 := ⟨rfl, rfl, rfl, rfl, id, id, Nat.le_refl _⟩

theorem executeLda_maintains {r : Resolved} {t : State} (h : executeLda r = .next t) : Maintains r.2 t := by
  unfold executeLda at h
  obtain ⟨v, reads, -, h⟩ := withValue_next h
  obtain rfl := Host.Outcome.next.inj h
  exact ⟨rfl, rfl, rfl, rfl, by simp [setFlag_getElem5], id, Nat.le_refl _⟩

theorem executeLdx_maintains {r : Resolved} {t : State} (h : executeLdx r = .next t) : Maintains r.2 t := by
  unfold executeLdx at h
  obtain ⟨v, reads, -, h⟩ := withValue_next h
  obtain rfl := Host.Outcome.next.inj h
  exact ⟨rfl, rfl, rfl, rfl, by simp [setFlag_getElem5], id, Nat.le_refl _⟩

theorem executeLdy_maintains {r : Resolved} {t : State} (h : executeLdy r = .next t) : Maintains r.2 t := by
  unfold executeLdy at h
  obtain ⟨v, reads, -, h⟩ := withValue_next h
  obtain rfl := Host.Outcome.next.inj h
  exact ⟨rfl, rfl, rfl, rfl, by simp [setFlag_getElem5], id, Nat.le_refl _⟩

theorem executeSta_maintains {r : Resolved} {t : State} (h : executeSta r = .next t) : Maintains r.2 t := by
  unfold executeSta at h
  obtain ⟨ea, -, h⟩ := withEa_next h
  obtain rfl := Host.Outcome.next.inj h
  exact ⟨rfl, rfl, rfl, rfl, id, fun hm => State.memAfterWrite_wf hm _ _, Nat.le_refl _⟩

theorem executeStx_maintains {r : Resolved} {t : State} (h : executeStx r = .next t) : Maintains r.2 t := by
  unfold executeStx at h
  obtain ⟨ea, -, h⟩ := withEa_next h
  obtain rfl := Host.Outcome.next.inj h
  exact ⟨rfl, rfl, rfl, rfl, id, fun hm => State.memAfterWrite_wf hm _ _, Nat.le_refl _⟩

theorem executeSty_maintains {r : Resolved} {t : State} (h : executeSty r = .next t) : Maintains r.2 t := by
  unfold executeSty at h
  obtain ⟨ea, -, h⟩ := withEa_next h
  obtain rfl := Host.Outcome.next.inj h
  exact ⟨rfl, rfl, rfl, rfl, id, fun hm => State.memAfterWrite_wf hm _ _, Nat.le_refl _⟩

theorem executeTax_maintains {r : Resolved} {t : State} (h : executeTax r = .next t) : Maintains r.2 t := by
  unfold executeTax at h
  obtain rfl := Host.Outcome.next.inj h
  exact ⟨rfl, rfl, rfl, rfl, by simp [setFlag_getElem5], id, Nat.le_refl _⟩

theorem executeTxa_maintains {r : Resolved} {t : State} (h : executeTxa r = .next t) : Maintains r.2 t := by
  unfold executeTxa at h
  obtain rfl := Host.Outcome.next.inj h
  exact ⟨rfl, rfl, rfl, rfl, by simp [setFlag_getElem5], id, Nat.le_refl _⟩

theorem executeTay_maintains {r : Resolved} {t : State} (h : executeTay r = .next t) : Maintains r.2 t := by
  unfold executeTay at h
  obtain rfl := Host.Outcome.next.inj h
  exact ⟨rfl, rfl, rfl, rfl, by simp [setFlag_getElem5], id, Nat.le_refl _⟩

theorem executeTya_maintains {r : Resolved} {t : State} (h : executeTya r = .next t) : Maintains r.2 t := by
  unfold executeTya at h
  obtain rfl := Host.Outcome.next.inj h
  exact ⟨rfl, rfl, rfl, rfl, by simp [setFlag_getElem5], id, Nat.le_refl _⟩

theorem executeInx_maintains {r : Resolved} {t : State} (h : executeInx r = .next t) : Maintains r.2 t := by
  unfold executeInx at h
  obtain rfl := Host.Outcome.next.inj h
  exact ⟨rfl, rfl, rfl, rfl, by simp [setFlag_getElem5], id, Nat.le_refl _⟩

theorem executeIny_maintains {r : Resolved} {t : State} (h : executeIny r = .next t) : Maintains r.2 t := by
  unfold executeIny at h
  obtain rfl := Host.Outcome.next.inj h
  exact ⟨rfl, rfl, rfl, rfl, by simp [setFlag_getElem5], id, Nat.le_refl _⟩

theorem executeAnd_maintains {r : Resolved} {t : State} (h : executeAnd r = .next t) : Maintains r.2 t := by
  unfold executeAnd at h
  obtain ⟨v, reads, -, h⟩ := withValue_next h
  obtain rfl := Host.Outcome.next.inj h
  exact ⟨rfl, rfl, rfl, rfl, by simp [setFlag_getElem5], id, Nat.le_refl _⟩

theorem executeAdc_maintains {r : Resolved} {t : State} (h : executeAdc r = .next t) : Maintains r.2 t := by
  unfold executeAdc at h
  obtain ⟨v, reads, -, h⟩ := withValue_next h
  obtain rfl := Host.Outcome.next.inj h
  exact ⟨rfl, rfl, rfl, rfl, by simp [setFlag_getElem5], id, Nat.le_refl _⟩

theorem executeSbc_maintains {r : Resolved} {t : State} (h : executeSbc r = .next t) : Maintains r.2 t := by
  unfold executeSbc at h
  obtain ⟨v, reads, -, h⟩ := withValue_next h
  obtain rfl := Host.Outcome.next.inj h
  exact ⟨rfl, rfl, rfl, rfl, by simp [setFlag_getElem5], id, Nat.le_refl _⟩

theorem executeClc_maintains {r : Resolved} {t : State} (h : executeClc r = .next t) : Maintains r.2 t := by
  unfold executeClc at h
  obtain rfl := Host.Outcome.next.inj h
  exact ⟨rfl, rfl, rfl, rfl, by simp [setFlag_getElem5], id, Nat.le_refl _⟩

theorem executeSec_maintains {r : Resolved} {t : State} (h : executeSec r = .next t) : Maintains r.2 t := by
  unfold executeSec at h
  obtain rfl := Host.Outcome.next.inj h
  exact ⟨rfl, rfl, rfl, rfl, by simp [setFlag_getElem5], id, Nat.le_refl _⟩

theorem executeCli_maintains {r : Resolved} {t : State} (h : executeCli r = .next t) : Maintains r.2 t := by
  unfold executeCli at h
  obtain rfl := Host.Outcome.next.inj h
  exact ⟨rfl, rfl, rfl, rfl, by simp [setFlag_getElem5], id, Nat.le_refl _⟩

theorem executeSei_maintains {r : Resolved} {t : State} (h : executeSei r = .next t) : Maintains r.2 t := by
  unfold executeSei at h
  obtain rfl := Host.Outcome.next.inj h
  exact ⟨rfl, rfl, rfl, rfl, by simp [setFlag_getElem5], id, Nat.le_refl _⟩

theorem executeClv_maintains {r : Resolved} {t : State} (h : executeClv r = .next t) : Maintains r.2 t := by
  unfold executeClv at h
  obtain rfl := Host.Outcome.next.inj h
  exact ⟨rfl, rfl, rfl, rfl, by simp [setFlag_getElem5], id, Nat.le_refl _⟩

theorem executeCld_maintains {r : Resolved} {t : State} (h : executeCld r = .next t) : Maintains r.2 t := by
  unfold executeCld at h
  obtain rfl := Host.Outcome.next.inj h
  exact ⟨rfl, rfl, rfl, rfl, by simp [setFlag_getElem5], id, Nat.le_refl _⟩

theorem executeSed_maintains {r : Resolved} {t : State} (h : executeSed r = .next t) : Maintains r.2 t := by
  unfold executeSed at h
  obtain rfl := Host.Outcome.next.inj h
  exact ⟨rfl, rfl, rfl, rfl, by simp [setFlag_getElem5], id, Nat.le_refl _⟩

theorem executeBpl_maintains {r : Resolved} {t : State} (h : executeBpl r = .next t) : Maintains r.2 t :=
  branchWhen_maintains h

theorem executeBmi_maintains {r : Resolved} {t : State} (h : executeBmi r = .next t) : Maintains r.2 t :=
  branchWhen_maintains h

theorem executeBvc_maintains {r : Resolved} {t : State} (h : executeBvc r = .next t) : Maintains r.2 t :=
  branchWhen_maintains h

theorem executeBvs_maintains {r : Resolved} {t : State} (h : executeBvs r = .next t) : Maintains r.2 t :=
  branchWhen_maintains h

theorem executeBcc_maintains {r : Resolved} {t : State} (h : executeBcc r = .next t) : Maintains r.2 t :=
  branchWhen_maintains h

theorem executeBcs_maintains {r : Resolved} {t : State} (h : executeBcs r = .next t) : Maintains r.2 t :=
  branchWhen_maintains h

theorem executeBne_maintains {r : Resolved} {t : State} (h : executeBne r = .next t) : Maintains r.2 t :=
  branchWhen_maintains h

theorem executeBeq_maintains {r : Resolved} {t : State} (h : executeBeq r = .next t) : Maintains r.2 t :=
  branchWhen_maintains h

theorem executeJmp_maintains {r : Resolved} {t : State} (h : executeJmp r = .next t) : Maintains r.2 t := by
  unfold executeJmp at h
  obtain ⟨ea, -, h⟩ := withEa_next h
  obtain rfl := Host.Outcome.next.inj h
  exact ⟨rfl, rfl, rfl, rfl, id, id, Nat.le_refl _⟩

theorem executeJsr_maintains {r : Resolved} {t : State} (h : executeJsr r = .next t) : Maintains r.2 t := by
  unfold executeJsr at h
  obtain ⟨ea, -, h⟩ := withEa_next h
  obtain rfl := Host.Outcome.next.inj h
  exact ⟨rfl, rfl, rfl, rfl, id,
    fun hm => State.memAfterWrite_wf (s := State.busWrite _ _ _) (State.memAfterWrite_wf hm _ _) _ _, Nat.le_add_right _ _⟩

theorem executeRts_maintains {r : Resolved} {t : State} (h : executeRts r = .next t) : Maintains r.2 t := by
  unfold executeRts at h
  obtain rfl := Host.Outcome.next.inj h
  exact ((pull_maintains _).trans (pull_maintains _)).trans ⟨rfl, rfl, rfl, rfl, id, id, by simp⟩

theorem executePha_maintains {r : Resolved} {t : State} (h : executePha r = .next t) : Maintains r.2 t := by
  unfold executePha at h
  obtain rfl := Host.Outcome.next.inj h
  exact ⟨rfl, rfl, rfl, rfl, id, fun hm => State.memAfterWrite_wf hm _ _, Nat.le_add_right _ _⟩

theorem executePhp_maintains {r : Resolved} {t : State} (h : executePhp r = .next t) : Maintains r.2 t := by
  unfold executePhp at h
  obtain rfl := Host.Outcome.next.inj h
  exact ⟨rfl, rfl, rfl, rfl, id, fun hm => State.memAfterWrite_wf hm _ _, Nat.le_add_right _ _⟩

theorem executePla_maintains {r : Resolved} {t : State} (h : executePla r = .next t) : Maintains r.2 t := by
  unfold executePla at h
  obtain rfl := Host.Outcome.next.inj h
  exact ⟨rfl, rfl, rfl, rfl, by simp [setFlag_getElem5, State.pull_eq], id, Nat.le_add_right _ _⟩

theorem executePlp_maintains {r : Resolved} {t : State} (h : executePlp r = .next t) : Maintains r.2 t := by
  unfold executePlp at h
  obtain rfl := Host.Outcome.next.inj h
  exact ⟨rfl, rfl, rfl, rfl, by simp [State.pull_eq], id, Nat.le_add_right _ _⟩

theorem executeNop_maintains {r : Resolved} {t : State} (h : executeNop r = .next t) : Maintains r.2 t := by
  unfold executeNop at h
  obtain rfl := Host.Outcome.next.inj h
  exact Maintains.refl _

/-- No executor breaks what the machine maintains, for any descriptor a table can register. -/
theorem execute_maintains {m : Mnemonic} {r : Resolved} {t : State} (h : execute m r = .next t) : Maintains r.2 t := by
  cases m
  · exact executeLda_maintains h
  · exact executeLdx_maintains h
  · exact executeLdy_maintains h
  · exact executeSta_maintains h
  · exact executeStx_maintains h
  · exact executeSty_maintains h
  · exact executeTax_maintains h
  · exact executeTxa_maintains h
  · exact executeTay_maintains h
  · exact executeTya_maintains h
  · exact executeInx_maintains h
  · exact executeIny_maintains h
  · exact executeAnd_maintains h
  · exact executeAdc_maintains h
  · exact executeSbc_maintains h
  · exact executeClc_maintains h
  · exact executeSec_maintains h
  · exact executeCli_maintains h
  · exact executeSei_maintains h
  · exact executeClv_maintains h
  · exact executeCld_maintains h
  · exact executeSed_maintains h
  · exact executeBpl_maintains h
  · exact executeBmi_maintains h
  · exact executeBvc_maintains h
  · exact executeBvs_maintains h
  · exact executeBcc_maintains h
  · exact executeBcs_maintains h
  · exact executeBne_maintains h
  · exact executeBeq_maintains h
  · exact executeJmp_maintains h
  · exact executeJsr_maintains h
  · exact executeRts_maintains h
  · exact executePha_maintains h
  · exact executePhp_maintains h
  · exact executePla_maintains h
  · exact executePlp_maintains h
  · exact executeNop_maintains h

/-- An executor over the value faults only where its continuation does, and one over the effective address likewise. -/
theorem withValue_ne_fault {r : Resolved} {k : Byte → State → Result} (hk : ∀ v s f, k v s ≠ .fault f) (f : Fault) :
    withValue r k ≠ .fault f := by
  unfold withValue
  split
  · exact hk _ _ _
  · simp

theorem withEa_ne_fault {r : Resolved} {k : Word → State → Result} (hk : ∀ ea s f, k ea s ≠ .fault f) (f : Fault) :
    withEa r k ≠ .fault f := by
  unfold withEa
  split
  · exact hk _ _ _
  · simp

/-- No executor faults: the one fault is the sequencer's (60_exceptions.md R220, R221). -/
theorem execute_ne_fault (m : Mnemonic) (r : Resolved) (f : Fault) : execute m r ≠ .fault f := by
  cases m
  case lda | ldx | ldy | and | adc | sbc =>
    refine withValue_ne_fault ?_ f
    intro _ _ _ h
    cases h
  case sta | stx | sty | jmp | jsr | bpl | bmi | bvc | bvs | bcc | bcs | bne | beq =>
    simp only [execute, executeSta, executeStx, executeSty, executeJmp, executeJsr, executeBpl, executeBmi, executeBvc,
      executeBvs, executeBcc, executeBcs, executeBne, executeBeq, branchWhen]
    refine withEa_ne_fault ?_ f
    intro _ _ _ h
    cases h
  all_goals exact fun h => by cases h

/-- No resolver does either. -/
theorem resolve_maintains (m : Mode) (lo hi : Byte) (s : State) : Maintains s (resolve m lo hi s).2 := by
  obtain ⟨reads, h⟩ := resolve_state m lo hi s
  rw [h]
  exact ⟨rfl, rfl, rfl, rfl, id, id, Nat.le_add_right _ _⟩

end Sys2Proof.Machine
end

