-- ==== Sys2Proof/Laws/Step.lean ====
section
/-! SUPPORT. The sequencer by inversion: what a step that answers a next state has done, and the fetches it begins with. -/

namespace Sys2Proof.Machine

/-- The end of a step sets the trace line and nothing else. -/
theorem finishStep_eq_next {d : Descriptor} {lo hi : Byte} {pcAfter : Word} {r : Result} {t : State}
    (h : finishStep d lo hi pcAfter r = .next t) :
    ∃ u, r = .next u ∧ t = { u with trace := if u.debug then some (renderLine d lo hi pcAfter) else none } := by
  cases r with
  | next u => exact ⟨u, rfl, by simpa [finishStep] using h.symm⟩
  | fault f => simp [finishStep] at h
  | refused f => simp [finishStep] at h

/-- A step that answers a next state: the core was not halted, its opcode byte was registered, its operand bytes were fetched, and
the decoded instruction answered a next state, to which the trace line is added. -/
theorem step_eq_next {s t : State} (h : step s = .next t) :
    s.halted = none ∧ ∃ d o u, s.params.table.lookup s.beginStep.fetch8.1 = some d ∧
      o = fetchOperands d.mode.operandBytes s.beginStep.fetch8.2 ∧ runDecoded d o.lo o.hi o.st = .next u ∧
      t = { u with trace := if u.debug then some (renderLine d o.lo o.hi o.st.pc) else none } := by
  unfold step at h
  split at h
  · simp at h
  · rename_i hh
    refine ⟨hh, ?_⟩
    unfold stepRunning at h
    dsimp only at h
    split at h
    · simp [raiseInvalidOpcode] at h
    · rename_i d hd
      obtain ⟨u, hu, rfl⟩ := finishStep_eq_next h
      exact ⟨d, _, u, hd, rfl, hu, rfl⟩

/-- Fetching the operand bytes reads them in order and moves `PC` past them. -/
theorem fetchOperands_zero (s : State) : fetchOperands 0 s = ⟨0, 0, s⟩ := rfl

theorem fetchOperands_one (s : State) :
    fetchOperands 1 s = ⟨s.busByte s.pc, 0, (s.afterReads [s.pc]).setPc (s.pc + 1)⟩ := rfl

theorem fetchOperands_two (s : State) :
    fetchOperands 2 s = ⟨s.busByte s.pc, (s.afterReads [s.pc]).busByte (s.pc + 1),
      (s.afterReads [s.pc, s.pc + 1]).setPc (s.pc + 2)⟩ := by
  simp only [fetchOperands, State.fetch8_eq, State.busByte_setPc, State.setPc_afterReads, State.afterReads_append,
    State.setPc_pc, List.singleton_append]
  simp [State.setPc, BitVec.add_assoc]

theorem fetchOperands_state (m : Mode) (s : State) :
    ∃ reads, (fetchOperands m.operandBytes s).st = (s.afterReads reads).setPc (s.pc + BitVec.ofNat 16 m.operandBytes) := by
  cases m <;> simp only [Mode.operandBytes, fetchOperands_zero, fetchOperands_one, fetchOperands_two]
  case implied => exact ⟨[], by simp [State.setPc]⟩
  all_goals exact ⟨_, rfl⟩

/-- The fetches of a whole step: the opcode byte, then the operand bytes. -/
theorem fetchOperands_afterFetch (m : Mode) (s : State) :
    (fetchOperands m.operandBytes s.beginStep.fetch8.2).st = s.afterFetch m.operandBytes := by
  match m.operandBytes, m.operandBytes_le with
  | 0, _ => simp [fetchOperands_zero, State.fetch8_eq, State.afterFetch, State.setPc]
  | 1, _ =>
    simp only [fetchOperands_one, State.fetch8_eq, State.setPc_afterReads, State.afterReads_append]
    simp [State.afterFetch, State.setPc, State.afterReads, List.range_succ, BitVec.add_assoc]
  | 2, _ =>
    simp only [fetchOperands_two, State.fetch8_eq, State.setPc_afterReads, State.afterReads_append]
    simp [State.afterFetch, State.setPc, State.afterReads, List.range_succ, BitVec.add_assoc]

end Sys2Proof.Machine
end

