-- ==== Sys2Proof/Laws/Words.lean ====
section
/-! SUPPORT. The byte-order and address helpers as numbers, the page crossings among them. -/

namespace Sys2Proof.Machine

/-- `hi:lo` as a number: little-endian. -/
theorem joinBytes_toNat (hi lo : Byte) : (joinBytes hi lo).toNat = lo.toNat + 256 * hi.toNat := by
  have h : (joinBytes hi lo).toNat = hi.toNat <<< 8 ||| lo.toNat := BitVec.toNat_append hi lo
  rw [h, ← Nat.shiftLeft_add_eq_or_of_lt lo.isLt, Nat.shiftLeft_eq]
  omega

theorem highByte_toNat (w : Word) : (highByte w).toNat = w.toNat / 256 := by
  simp [highByte, BitVec.extractLsb'_toNat, Nat.shiftRight_eq_div_pow]
  omega

theorem lowByte_toNat (w : Word) : (lowByte w).toNat = w.toNat % 256 := by
  simp [lowByte, BitVec.extractLsb'_toNat]

theorem zext16_toNat (b : Byte) : (zext16 b).toNat = b.toNat := by
  simp [zext16]
  omega

/-- A stack slot lies in page 1. -/
theorem stackAddr_toNat (sp : Byte) : (stackAddr sp).toNat = 256 + sp.toNat := by
  simp [stackAddr, joinBytes_toNat]
  omega

/-- Joining a word's own bytes gives the word. -/
theorem joinBytes_high_low (w : Word) : joinBytes (highByte w) (lowByte w) = w := by
  apply BitVec.eq_of_toNat_eq
  rw [joinBytes_toNat, highByte_toNat, lowByte_toNat]
  omega

/-- The branch target as an integer sum modulo 2^16. -/
theorem relativeTarget_toNat (pc : Word) (off : Byte) :
    ((relativeTarget pc off).toNat : Int) = (pc.toNat + off.toInt) % 65536 := by
  have h : (sext16 off).toInt = off.toInt := by
    unfold sext16
    exact BitVec.toInt_signExtend_of_le (by omega)
  have h2 := BitVec.toInt_eq_toNat_cond (sext16 off)
  simp only [relativeTarget, BitVec.toNat_add]
  rw [h] at h2
  split at h2 <;> omega

/-- The high byte of an address is not zero from 256 on: the crossing of (indirect),Y (R110). -/
theorem highByte_bne_zero (w : Word) : (highByte w != 0#8) = decide (256 ≤ w.toNat) := by
  have h : (highByte w != 0#8) = !(highByte w == 0#8) := rfl
  rw [h, byte_beq_zero, highByte_toNat]
  by_cases h : 256 ≤ w.toNat <;> simp [h]
  omega

theorem indexed_joinBytes_toNat (hi lo index : Byte) :
    (indexed (joinBytes hi lo) index).toNat = (lo.toNat + 256 * hi.toNat + index.toNat) % 65536 := by
  simp [indexed, BitVec.toNat_add, joinBytes_toNat, zext16_toNat]

/-- The high byte changes exactly when the index carries out of the low byte: the crossing of absolute,X and absolute,Y (R112). -/
theorem pageCrossed_joinBytes (hi lo index : Byte) :
    pageCrossed (joinBytes hi lo) (indexed (joinBytes hi lo) index) = decide (256 ≤ lo.toNat + index.toNat) := by
  have hne : ∀ a b : Byte, (a != b) = decide (a.toNat ≠ b.toNat) := by
    intro a b
    by_cases h : a = b
    · simp [h]
    · have : a.toNat ≠ b.toNat := fun h' => h (BitVec.eq_of_toNat_eq h')
      simp [h, this]
  unfold pageCrossed
  rw [hne, highByte_toNat, highByte_toNat, indexed_joinBytes_toNat, joinBytes_toNat]
  by_cases hc : 256 ≤ lo.toNat + index.toNat <;> (simp [hc]; omega)

end Sys2Proof.Machine
end

