-- ==== Sys2Proof/Tests/Slice0.lean ====
section
/-! SUPPORT. Tests: ill-formed terms that the checks refuse, words written out from R75's table, single steps with the results of
95_test_vectors.md, and for each statement with hypotheses a witness that meets them. -/

open Sys2Proof Sys2Proof.Machine

/-! ## WellFormed refuses what is ill formed -/

/-- R99: LDA reads a value that implied mode does not fill; STA reads an address that immediate mode does not fill. -/
theorem test_descriptor_wf_refuses :
    Descriptor.wf ⟨.implied, .lda⟩ = false ∧ Descriptor.wf ⟨.immediate, .sta⟩ = false ∧
    Descriptor.wf ⟨.implied, .beq⟩ = false := by
  decide

/-- R42: 255 or 272 entries, or a row of the wrong length, is no decode table; nor is one with an ill-formed entry. -/
theorem test_table_wf_refuses :
    DecodeTable.sized (List.replicate 17 (List.replicate 16 none)) = false ∧
    DecodeTable.sized (List.replicate 15 (List.replicate 16 none) ++ [List.replicate 15 none]) = false ∧
    DecodeTable.wf (DecodeTable.empty.register 0xA9 ⟨.implied, .lda⟩) = false ∧ DecodeTable.wf [] = false := by
  decide

theorem test_default_table_wf : DecodeTable.wf defaultTable = true := by decide

/-- R74: under a table that registers nothing no instruction is well formed; nor under one that gives its byte to another. -/
theorem test_instr_wf_refuses :
    ¬ Instr.wf DecodeTable.empty .nop ∧ ¬ Instr.wf (defaultTable.register 0xEA ⟨.implied, .inx⟩) .nop := by
  decide

/-- Not canonical: a zero entry, entries out of order, a repeated cell. -/
theorem test_memory_wf_refuses :
    Memory.wf [(5, 0x00)] = false ∧ Memory.wf [(6, 0x01), (5, 0x01)] = false ∧ Memory.wf [(5, 0x01), (5, 0x02)] = false := by
  decide

/-- Writing the byte an unlisted address reads as removes the entry. -/
theorem test_memory_write_canonical :
    Memory.write [(5, 0x01), (9, 0x02)] 5 0x00 = [(9, 0x02)] ∧
    Memory.write [(5, 0x01), (9, 0x02)] 7 0x03 = [(5, 0x01), (7, 0x03), (9, 0x02)] ∧
    Memory.write [(5, 0x01)] 5 0x04 = [(5, 0x04)] ∧ Memory.write [(5, 0x01)] 7 0x00 = [(5, 0x01)] := by
  decide

/-- Why a launch is refused, if it is. -/
def refusalOf (r : Result) : Option Refusal :=
  match r with
  | .refused f => some f
  | .next _ | .fault _ => none

/-- R254, U3, U11: bit 5 of `P` clear, a halted state, a table of the wrong size. -/
theorem test_launch_refuses :
    refusalOf (launch { State.reset with p := 0x00 }) = some .badLaunchState ∧
    refusalOf (launch { State.reset with halted := some (.invalidOpcode 0x00) }) = some .badLaunchState ∧
    refusalOf (launch { State.reset with params := { Params.default with table := [] } }) = some .badDecodeTable ∧
    refusalOf (launch State.reset) = none := by
  decide

/-! ## Decoding: a word of every opcode, by R75's list "Per mnemonic" (operands low byte first) -/

/-- The instructions these table words decode to. -/
def decodeWords (ws : List (Nat × Nat)) : List (Option Instr) := ws.map fun w => decodeTableWord w.1 w.2

theorem test_decode_loads_1 :
    decodeWords [(16, 0x85A9), (16, 0x85A5), (16, 0x85B5), (24, 0x12F0AD), (24, 0x12F0BD), (24, 0x12F0B9),
        (16, 0x85A1), (16, 0x85B1)] =
      [some (.ldaImm 0x85), some (.ldaZp 0x85), some (.ldaZpx 0x85), some (.ldaAbs 0xF0 0x12), some (.ldaAbx 0xF0 0x12),
        some (.ldaAby 0xF0 0x12), some (.ldaIzx 0x85), some (.ldaIzy 0x85)] := by
  decide

theorem test_decode_loads_2 :
    decodeWords [(16, 0x85A2), (16, 0x85A6), (24, 0x12F0AE), (24, 0x12F0BE), (16, 0x85A0), (16, 0x85A4), (16, 0x85B4),
        (24, 0x12F0AC), (24, 0x12F0BC)] =
      [some (.ldxImm 0x85), some (.ldxZp 0x85), some (.ldxAbs 0xF0 0x12), some (.ldxAby 0xF0 0x12), some (.ldyImm 0x85),
        some (.ldyZp 0x85), some (.ldyZpx 0x85), some (.ldyAbs 0xF0 0x12), some (.ldyAbx 0xF0 0x12)] := by
  decide

theorem test_decode_stores_1 :
    decodeWords [(16, 0x8585), (16, 0x8595), (24, 0x12F08D), (24, 0x12F09D), (24, 0x12F099), (16, 0x8581),
        (16, 0x8591), (16, 0x8586), (24, 0x12F08E)] =
      [some (.staZp 0x85), some (.staZpx 0x85), some (.staAbs 0xF0 0x12), some (.staAbx 0xF0 0x12),
        some (.staAby 0xF0 0x12), some (.staIzx 0x85), some (.staIzy 0x85), some (.stxZp 0x85), some (.stxAbs 0xF0 0x12)] := by
  decide

theorem test_decode_stores_2 :
    decodeWords [(16, 0x8584), (16, 0x8594), (24, 0x12F08C)] =
      [some (.styZp 0x85), some (.styZpx 0x85), some (.styAbs 0xF0 0x12)] := by
  decide

theorem test_decode_transfers :
    decodeWords [(8, 0xAA), (8, 0x8A), (8, 0xA8), (8, 0x98)] =
      [some .tax, some .txa, some .tay, some .tya] := by
  decide

theorem test_decode_alu_1 :
    decodeWords [(8, 0xE8), (8, 0xC8)] =
      [some .inx, some .iny] := by
  decide

theorem test_decode_alu_2 :
    decodeWords [(16, 0x8529), (16, 0x8525), (16, 0x8535), (24, 0x12F02D), (24, 0x12F03D), (24, 0x12F039),
        (16, 0x8521), (16, 0x8531)] =
      [some (.andImm 0x85), some (.andZp 0x85), some (.andZpx 0x85), some (.andAbs 0xF0 0x12), some (.andAbx 0xF0 0x12),
        some (.andAby 0xF0 0x12), some (.andIzx 0x85), some (.andIzy 0x85)] := by
  decide

theorem test_decode_add_subtract_1 :
    decodeWords [(16, 0x8569), (16, 0x8565), (16, 0x8575), (24, 0x12F06D), (24, 0x12F07D), (24, 0x12F079),
        (16, 0x8561), (16, 0x8571)] =
      [some (.adcImm 0x85), some (.adcZp 0x85), some (.adcZpx 0x85), some (.adcAbs 0xF0 0x12), some (.adcAbx 0xF0 0x12),
        some (.adcAby 0xF0 0x12), some (.adcIzx 0x85), some (.adcIzy 0x85)] := by
  decide

theorem test_decode_add_subtract_2 :
    decodeWords [(16, 0x85E9), (16, 0x85E5), (16, 0x85F5), (24, 0x12F0ED), (24, 0x12F0FD), (24, 0x12F0F9),
        (16, 0x85E1), (16, 0x85F1)] =
      [some (.sbcImm 0x85), some (.sbcZp 0x85), some (.sbcZpx 0x85), some (.sbcAbs 0xF0 0x12), some (.sbcAbx 0xF0 0x12),
        some (.sbcAby 0xF0 0x12), some (.sbcIzx 0x85), some (.sbcIzy 0x85)] := by
  decide

theorem test_decode_flags :
    decodeWords [(8, 0x18), (8, 0x38), (8, 0x58), (8, 0x78), (8, 0xB8), (8, 0xD8), (8, 0xF8)] =
      [some .clc, some .sec, some .cli, some .sei, some .clv, some .cld, some .sed] := by
  decide

theorem test_decode_branches :
    decodeWords [(16, 0x8510), (16, 0x8530), (16, 0x8550), (16, 0x8570), (16, 0x8590), (16, 0x85B0), (16, 0x85D0),
        (16, 0x85F0)] =
      [some (.bpl 0x85), some (.bmi 0x85), some (.bvc 0x85), some (.bvs 0x85), some (.bcc 0x85), some (.bcs 0x85),
        some (.bne 0x85), some (.beq 0x85)] := by
  decide

theorem test_decode_jump_stack :
    decodeWords [(24, 0x12F04C), (24, 0x12F020), (8, 0x60), (8, 0x48), (8, 0x08), (8, 0x68), (8, 0x28), (8, 0xEA)] =
      [some (.jmp 0xF0 0x12), some (.jsr 0xF0 0x12), some .rts, some .pha, some .php, some .pla, some .plp, some .nop] := by
  decide

/-- Bytes that are no opcode: BRK, RTI, and the missing forms the spec names (R115, R131, R134, R192, R228). -/
theorem test_decode_refuses :
    decode defaultTable [0x00, 0xA9, 0x01] = .error (.invalidOpcode 0x00) ∧
    decodeWords [(8, 0x40), (16, 0x10B6), (16, 0x1096), (24, 0x12346C)] = [none, none, none, none] ∧
    decode defaultTable [0xA9] = .error (.truncated ⟨.immediate, .lda⟩) ∧ decode defaultTable [] = .error .noOpcode := by
  decide

/-! ## Single steps (95_test_vectors.md) -/

/-- The construction state with `PC`, the bytes there, and other bytes of memory. -/
def stateAt (pc : Word) (bytes : List Byte) (data : List (Word × Byte)) : State :=
  { State.reset with pc := pc, mem := data.foldl (fun m d => m.write d.1.toNat d.2) (State.reset.load pc bytes).mem }

/-- The state a step leaves, if it leaves one. -/
def after (s : State) : Option State :=
  match step s with
  | .next t => some t
  | .fault _ | .refused _ => none

/-- The registers and the cycle count. -/
structure Regs where
  a      : Byte
  x      : Byte
  y      : Byte
  sp     : Byte
  pc     : Word
  p      : Byte
  cycles : Nat
  deriving DecidableEq, Repr

/-- The registers after a step. -/
def regsAfter (s : State) : Option Regs := (after s).map fun t => ⟨t.a, t.x, t.y, t.sp, t.pc, t.p, t.cycles⟩

/-- The bus trace of a step. -/
def busAfter (s : State) : Option (List BusAccess) := (after s).map fun t => t.busLog

/-- S1: `A9 05`. -/
theorem test_s1_lda_imm :
    regsAfter (stateAt 0x0000 [0xA9, 0x05] []) = some ⟨0x05, 0x00, 0x00, 0xFF, 0x0002, 0x20, 2⟩ := by
  decide

/-- S2: `A9 00`. -/
theorem test_s2_lda_zero :
    regsAfter (stateAt 0x0000 [0xA9, 0x00] []) = some ⟨0x00, 0x00, 0x00, 0xFF, 0x0002, 0x22, 2⟩ := by
  decide

/-- S4: `0xFF + 0x01`. -/
theorem test_s4_adc :
    regsAfter ({ stateAt 0x0600 [0x69, 0x01] [] with a := 0xFF }) = some ⟨0x00, 0x00, 0x00, 0xFF, 0x0602, 0x23, 2⟩ := by
  decide

/-- S5: `0x7F + 0x01`. -/
theorem test_s5_adc_overflow :
    regsAfter ({ stateAt 0x0600 [0x69, 0x01] [] with a := 0x7F }) = some ⟨0x80, 0x00, 0x00, 0xFF, 0x0602, 0xE0, 2⟩ := by
  decide

/-- Part 2.1: an operand fetched past `0xFFFF`. -/
theorem test_lda_imm_pc_wraps :
    regsAfter (stateAt 0xFFFF [0xA9, 0x33] []) = some ⟨0x33, 0x00, 0x00, 0xFF, 0x0001, 0x20, 2⟩ ∧
    busAfter (stateAt 0xFFFF [0xA9, 0x33] []) = some [.read 0xFFFF 0xA9, .read 0x0000 0x33] := by
  decide

/-- Part 2.1: zeropage,X wraps. -/
theorem test_zpx_wraps :
    busAfter ({ stateAt 0x0600 [0xB5, 0xF0] [(0x0010, 0x07)] with x := 0x20 }) =
      some [.read 0x0600 0xB5, .read 0x0601 0xF0, .read 0x0010 0x07] := by
  decide

/-- Part 2.1: absolute,X past `0xFFFF`, crossed (D8). -/
theorem test_abx_wraps :
    regsAfter ({ stateAt 0x0600 [0xBD, 0xFF, 0xFF] [(0x0000, 0x11)] with x := 0x01 }) =
      some ⟨0x11, 0x01, 0x00, 0xFF, 0x0603, 0x20, 5⟩ := by
  decide

/-- Part 2.1: `B9 80 00`, `Y = 0x80`. -/
theorem test_aby_cross :
    regsAfter ({ stateAt 0x0600 [0xB9, 0x80, 0x00] [(0x0100, 0x01)] with y := 0x80 }) =
      some ⟨0x01, 0x00, 0x80, 0xFF, 0x0603, 0x20, 5⟩ := by
  decide

/-- Part 2.1: `A1 20` reads one pointer byte. -/
theorem test_izx_single_pointer_byte :
    regsAfter ({ stateAt 0x0600 [0xA1, 0x20] [(0x0024, 0x74), (0x0025, 0x20), (0x0074, 0x99)] with x := 0x04 }) =
      some ⟨0x99, 0x04, 0x00, 0xFF, 0x0602, 0xA0, 2⟩ ∧
    busAfter ({ stateAt 0x0600 [0xA1, 0x20] [(0x0024, 0x74), (0x0025, 0x20), (0x0074, 0x99)] with x := 0x04 }) =
      some [.read 0x0600 0xA1, .read 0x0601 0x20, .read 0x0024 0x74, .read 0x0074 0x99] := by
  decide

/-- Part 2.1: `B1 86` with a sum of `0x0108`. -/
theorem test_izy_cross :
    regsAfter ({ stateAt 0x0600 [0xB1, 0x86] [(0x0086, 0xF8), (0x0108, 0x55)] with y := 0x10 }) =
      some ⟨0x55, 0x00, 0x10, 0xFF, 0x0602, 0x20, 3⟩ := by
  decide

/-- Part 2.1, `P_INDY_PTR = 2`: `ea = 0x1240`; with one byte `0x0040`. -/
theorem test_izy_two_pointer_bytes :
    busAfter { stateAt 0x0600 [0xB1, 0x86] [(0x0086, 0x40), (0x0087, 0x12), (0x1240, 0x07)] with
      params := { Params.default with indyPtr := .two } } =
      some [.read 0x0600 0xB1, .read 0x0601 0x86, .read 0x0086 0x40, .read 0x0087 0x12, .read 0x1240 0x07] ∧
    busAfter (stateAt 0x0600 [0xB1, 0x86] [(0x0086, 0x40), (0x0087, 0x12), (0x1240, 0x07)]) =
      some [.read 0x0600 0xB1, .read 0x0601 0x86, .read 0x0086 0x40, .read 0x0040 0x00] := by
  decide

/-- Part 2.2: `8D 00 02`, with the resolver's read; `on_use` skips it (R111). -/
theorem test_sta_reads_then_writes :
    busAfter ({ stateAt 0x0600 [0x8D, 0x00, 0x02] [(0x0200, 0xAA)] with a := 0x37 }) =
      some [.read 0x0600 0x8D, .read 0x0601 0x00, .read 0x0602 0x02, .read 0x0200 0xAA, .write 0x0200 0x37] ∧
    busAfter { stateAt 0x0600 [0x8D, 0x00, 0x02] [(0x0200, 0xAA)] with a := 0x37, params := { Params.default with
      eaRead := .onUse } } =
      some [.read 0x0600 0x8D, .read 0x0601 0x00, .read 0x0602 0x02, .write 0x0200 0x37] := by
  decide

/-- Part 2.2: `91 86` stores at `0x0108` for 3 cycles. -/
theorem test_sta_izy_cross :
    (after { stateAt 0x0600 [0x91, 0x86] [(0x0086, 0xF8)] with
      a := 0x02, y := 0x10 }).map (fun t => (t.mem.read 0x0108, t.cycles)) = some (0x02, 3) := by
  decide

/-- Part 2.2: `86 10` and `94 FF`. -/
theorem test_stx_sty :
    (after { stateAt 0x0600 [0x86, 0x10] [] with x := 0x05 }).map (fun t => (t.mem.read 0x0010, t.cycles)) = some (0x05, 3) ∧
    (after { stateAt 0x0600 [0x94, 0xFF] [] with x := 0x01, y := 0x09 }).map (fun t => (t.mem.read 0x0000, t.cycles)) =
      some (0x09, 3) := by
  decide

/-- Part 2.2: `A2 00` and `A0 FF`. -/
theorem test_ldx_ldy :
    regsAfter (stateAt 0x0600 [0xA2, 0x00] []) = some ⟨0x00, 0x00, 0x00, 0xFF, 0x0602, 0x22, 2⟩ ∧
    regsAfter (stateAt 0x0600 [0xA0, 0xFF] []) = some ⟨0x00, 0x00, 0xFF, 0xFF, 0x0602, 0xA0, 2⟩ := by
  decide

/-- Part 2.2: TAX, TXA, TAY, TYA. -/
theorem test_transfers :
    regsAfter ({ stateAt 0x0600 [0xAA] [] with x := 0x55 }) = some ⟨0x00, 0x00, 0x00, 0xFF, 0x0601, 0x22, 2⟩ ∧
    regsAfter ({ stateAt 0x0600 [0x8A] [] with x := 0x90 }) = some ⟨0x90, 0x90, 0x00, 0xFF, 0x0601, 0xA0, 2⟩ ∧
    regsAfter ({ stateAt 0x0600 [0xA8] [] with a := 0x01 }) = some ⟨0x01, 0x00, 0x01, 0xFF, 0x0601, 0x20, 2⟩ ∧
    regsAfter ({ stateAt 0x0600 [0x98] [] with y := 0xFF }) = some ⟨0xFF, 0x00, 0xFF, 0xFF, 0x0601, 0xA0, 2⟩ := by
  decide

/-- Part 2.3: INX wraps and keeps C; INY reaches `0x80`. -/
theorem test_increments :
    regsAfter ({ stateAt 0x0600 [0xE8] [] with x := 0xFF, p := 0x21 }) = some ⟨0x00, 0x00, 0x00, 0xFF, 0x0601, 0x23, 2⟩ ∧
    regsAfter ({ stateAt 0x0600 [0xC8] [] with y := 0x7F }) = some ⟨0x00, 0x00, 0x80, 0xFF, 0x0601, 0xA0, 2⟩ := by
  decide

/-- Part 2.3: `29 0F`, and C and V kept by `29 FF`. -/
theorem test_and :
    regsAfter ({ stateAt 0x0600 [0x29, 0x0F] [] with a := 0xF0 }) = some ⟨0x00, 0x00, 0x00, 0xFF, 0x0602, 0x22, 2⟩ ∧
    regsAfter ({ stateAt 0x0600 [0x29, 0xFF] [] with a := 0x3C, p := 0x61 }) =
      some ⟨0x3C, 0x00, 0x00, 0xFF, 0x0602, 0x61, 2⟩ := by
  decide

/-- ADC's and SBC's result, C, Z, N and V for `A`, the operand and the carry; and SBC's V under both choices of `P_SBC_V`. -/
def adcRow (a v : Byte) (c : Bool) : Byte × List Bool :=
  (adcResult a v c,
    [adcCarry a v c, adcResult a v c == 0, (adcResult a v c).getLsbD 7, overflowFormula a v (adcResult a v c)])

def sbcRow (a v : Byte) (c : Bool) : Byte × List Bool :=
  (sbcResult a v c, [sbcCarry a v c, sbcResult a v c == 0, (sbcResult a v c).getLsbD 7,
    overflowFormula a (sbcOverflowOperand .literal v) (sbcResult a v c),
    overflowFormula a (sbcOverflowOperand .complement v) (sbcResult a v c)])

/-- The twelve ADC rows of part 2.4. -/
theorem test_adc_table :
    adcRow 0x00 0x00 false = (0x00, [false, true, false, false]) ∧
    adcRow 0x00 0x00 true = (0x01, [false, false, false, false]) ∧
    adcRow 0x01 0x01 false = (0x02, [false, false, false, false]) ∧
    adcRow 0xFF 0x01 false = (0x00, [true, true, false, false]) ∧
    adcRow 0x7F 0x01 false = (0x80, [false, false, true, true]) ∧
    adcRow 0x80 0x80 false = (0x00, [true, true, false, true]) ∧
    adcRow 0x80 0xFF false = (0x7F, [true, false, false, true]) ∧
    adcRow 0xFF 0xFF true = (0xFF, [true, false, true, false]) ∧
    adcRow 0x00 0xFF true = (0x00, [true, true, false, false]) ∧
    adcRow 0x50 0x50 false = (0xA0, [false, false, true, true]) ∧
    adcRow 0x7F 0x7F true = (0xFF, [false, false, true, true]) ∧
    adcRow 0x40 0x3F true = (0x80, [false, false, true, true]) := by
  decide

/-- The twelve SBC rows of part 2.4, V under `literal` and `complement`. -/
theorem test_sbc_table :
    sbcRow 0x05 0x03 true = (0x02, [true, false, false, false, false]) ∧
    sbcRow 0x05 0x05 true = (0x00, [true, true, false, false, false]) ∧
    sbcRow 0x05 0x05 false = (0xFF, [false, false, true, true, false]) ∧
    sbcRow 0x03 0x05 true = (0xFE, [false, false, true, true, false]) ∧
    sbcRow 0x00 0x00 false = (0xFF, [false, false, true, true, false]) ∧
    sbcRow 0x00 0x01 true = (0xFF, [false, false, true, true, false]) ∧
    sbcRow 0x80 0x01 true = (0x7F, [true, false, false, false, true]) ∧
    sbcRow 0x7F 0xFF true = (0x80, [false, false, true, false, true]) ∧
    sbcRow 0x50 0xB0 true = (0xA0, [false, false, true, false, true]) ∧
    sbcRow 0xFF 0xFF true = (0x00, [true, true, false, true, false]) ∧
    sbcRow 0x00 0x80 true = (0x80, [false, false, true, false, true]) ∧
    sbcRow 0x80 0x7F true = (0x01, [true, false, false, false, true]) := by
  decide

/-- Part 2.4: `0x80 - 0x01`, V under `literal` and under `complement`, at D = 1 (R156). -/
theorem test_sbc_steps :
    regsAfter ({ stateAt 0x0600 [0xE9, 0x01] [] with a := 0x80, p := 0x29 }) = some ⟨0x7F, 0x00, 0x00, 0xFF, 0x0602, 0x29, 2⟩ ∧
    regsAfter { stateAt 0x0600 [0xE9, 0x01] [] with a := 0x80, p := 0x29, params := { Params.default with
      sbcV := .complement } } =
      some ⟨0x7F, 0x00, 0x00, 0xFF, 0x0602, 0x69, 2⟩ := by
  decide

/-- Part 2.5. -/
theorem test_flag_instructions :
    regsAfter ({ stateAt 0x0600 [0x18] [] with p := 0xFF }) = some ⟨0x00, 0x00, 0x00, 0xFF, 0x0601, 0xFE, 2⟩ ∧
    regsAfter ({ stateAt 0x0600 [0x38] [] with p := 0x20 }) = some ⟨0x00, 0x00, 0x00, 0xFF, 0x0601, 0x21, 2⟩ ∧
    regsAfter ({ stateAt 0x0600 [0x58] [] with p := 0x24 }) = some ⟨0x00, 0x00, 0x00, 0xFF, 0x0601, 0x20, 2⟩ ∧
    regsAfter ({ stateAt 0x0600 [0x78] [] with p := 0x20 }) = some ⟨0x00, 0x00, 0x00, 0xFF, 0x0601, 0x24, 2⟩ ∧
    regsAfter ({ stateAt 0x0600 [0xB8] [] with p := 0x60 }) = some ⟨0x00, 0x00, 0x00, 0xFF, 0x0601, 0x20, 2⟩ ∧
    regsAfter ({ stateAt 0x0600 [0xD8] [] with p := 0x28 }) = some ⟨0x00, 0x00, 0x00, 0xFF, 0x0601, 0x20, 2⟩ ∧
    regsAfter ({ stateAt 0x0600 [0xF8] [] with p := 0x20 }) = some ⟨0x00, 0x00, 0x00, 0xFF, 0x0601, 0x28, 2⟩ := by
  decide

/-- Part 2.6, offset `04`. -/
theorem test_branches :
    regsAfter ({ stateAt 0x0600 [0x10, 0x04] [] with p := 0x20 }) = some ⟨0x00, 0x00, 0x00, 0xFF, 0x0606, 0x20, 3⟩ ∧
    regsAfter ({ stateAt 0x0600 [0x30, 0x04] [] with p := 0x20 }) = some ⟨0x00, 0x00, 0x00, 0xFF, 0x0602, 0x20, 2⟩ ∧
    regsAfter ({ stateAt 0x0600 [0x50, 0x04] [] with p := 0x20 }) = some ⟨0x00, 0x00, 0x00, 0xFF, 0x0606, 0x20, 3⟩ ∧
    regsAfter ({ stateAt 0x0600 [0x70, 0x04] [] with p := 0x60 }) = some ⟨0x00, 0x00, 0x00, 0xFF, 0x0606, 0x60, 3⟩ ∧
    regsAfter ({ stateAt 0x0600 [0x90, 0x04] [] with p := 0x21 }) = some ⟨0x00, 0x00, 0x00, 0xFF, 0x0602, 0x21, 2⟩ ∧
    regsAfter ({ stateAt 0x0600 [0xB0, 0x04] [] with p := 0x20 }) = some ⟨0x00, 0x00, 0x00, 0xFF, 0x0602, 0x20, 2⟩ ∧
    regsAfter ({ stateAt 0x0600 [0xD0, 0x04] [] with p := 0x22 }) = some ⟨0x00, 0x00, 0x00, 0xFF, 0x0602, 0x22, 2⟩ ∧
    regsAfter ({ stateAt 0x0600 [0xF0, 0x04] [] with p := 0x22 }) = some ⟨0x00, 0x00, 0x00, 0xFF, 0x0606, 0x22, 3⟩ := by
  decide

/-- Part 2.6 and the examples of R181, R183: each flag at its other value. -/
theorem test_branches_other_way :
    regsAfter ({ stateAt 0x0600 [0x10, 0x04] [] with p := 0xA0 }) = some ⟨0x00, 0x00, 0x00, 0xFF, 0x0602, 0xA0, 2⟩ ∧
    regsAfter ({ stateAt 0x0600 [0x30, 0x04] [] with p := 0xA0 }) = some ⟨0x00, 0x00, 0x00, 0xFF, 0x0606, 0xA0, 3⟩ ∧
    regsAfter ({ stateAt 0x0600 [0x70, 0x04] [] with p := 0x20 }) = some ⟨0x00, 0x00, 0x00, 0xFF, 0x0602, 0x20, 2⟩ ∧
    regsAfter ({ stateAt 0x0600 [0x90, 0x04] [] with p := 0x20 }) = some ⟨0x00, 0x00, 0x00, 0xFF, 0x0606, 0x20, 3⟩ ∧
    regsAfter ({ stateAt 0x0600 [0xB0, 0xF0] [] with p := 0x21 }) = some ⟨0x00, 0x00, 0x00, 0xFF, 0x05F2, 0x21, 3⟩ ∧
    regsAfter ({ stateAt 0xFFF0 [0xD0, 0x7F] [] with p := 0x20 }) = some ⟨0x00, 0x00, 0x00, 0xFF, 0x0071, 0x20, 3⟩ ∧
    regsAfter ({ stateAt 0x0010 [0xF0, 0x80] [] with p := 0x22 }) = some ⟨0x00, 0x00, 0x00, 0xFF, 0xFF92, 0x22, 3⟩ := by
  decide

/-- Part 2.7: JMP, with the read of its target. -/
theorem test_jmp :
    regsAfter (stateAt 0x0600 [0x4C, 0x00, 0xC0] []) = some ⟨0x00, 0x00, 0x00, 0xFF, 0xC000, 0x20, 4⟩ ∧
    busAfter (stateAt 0x0600 [0x4C, 0x00, 0xC0] []) =
      some [.read 0x0600 0x4C, .read 0x0601 0x00, .read 0x0602 0xC0, .read 0xC000 0x00] := by
  decide

/-- S6 as corrected by 90_conflicts.md C1. -/
theorem test_s6_jsr :
    regsAfter (stateAt 0x0600 [0x20, 0x34, 0x12] []) = some ⟨0x00, 0x00, 0x00, 0xFD, 0x1234, 0x20, 6⟩ ∧
    busAfter (stateAt 0x0600 [0x20, 0x34, 0x12] []) =
      some [.read 0x0600 0x20, .read 0x0601 0x34, .read 0x0602 0x12, .read 0x1234 0x00, .write 0x01FF 0x06,
        .write 0x01FE 0x02] := by
  decide

/-- Part 2.7: JSR at `SP = 0x00` (D7). -/
theorem test_jsr_sp_wraps :
    regsAfter ({ stateAt 0x0600 [0x20, 0x00, 0x07] [] with sp := 0x00 }) = some ⟨0x00, 0x00, 0x00, 0xFE, 0x0700, 0x20, 6⟩ ∧
    busAfter ({ stateAt 0x0600 [0x20, 0x00, 0x07] [] with sp := 0x00 }) =
      some [.read 0x0600 0x20, .read 0x0601 0x00, .read 0x0602 0x07, .read 0x0700 0x00, .write 0x0100 0x06,
        .write 0x01FF 0x02] := by
  decide

/-- Part 2.7: RTS, and RTS at `SP = 0xFE` with a wrapping address. -/
theorem test_rts :
    regsAfter ({ stateAt 0x1234 [0x60] [(0x01FE, 0x02), (0x01FF, 0x06)] with sp := 0xFD }) =
      some ⟨0x00, 0x00, 0x00, 0xFF, 0x0603, 0x20, 6⟩ ∧
    regsAfter ({ stateAt 0x0600 [0x60] [(0x01FF, 0xFF), (0x0100, 0xFF)] with sp := 0xFE }) =
      some ⟨0x00, 0x00, 0x00, 0x00, 0x0000, 0x20, 6⟩ := by
  decide

/-- Part 2.7: PHA at `SP = 0x00`. -/
theorem test_pha :
    regsAfter ({ stateAt 0x0600 [0x48] [] with a := 0x42, sp := 0x00 }) = some ⟨0x42, 0x00, 0x00, 0xFF, 0x0601, 0x20, 3⟩ ∧
    busAfter ({ stateAt 0x0600 [0x48] [] with a := 0x42, sp := 0x00 }) = some [.read 0x0600 0x48, .write 0x0100 0x42] := by
  decide

/-- Part 2.7: PHP pushes `P` as it stands. -/
theorem test_php :
    regsAfter ({ stateAt 0x0600 [0x08] [] with p := 0x21 }) = some ⟨0x00, 0x00, 0x00, 0xFE, 0x0601, 0x21, 3⟩ ∧
    busAfter ({ stateAt 0x0600 [0x08] [] with p := 0x21 }) = some [.read 0x0600 0x08, .write 0x01FF 0x21] := by
  decide

/-- Part 2.7: PLA, and PLA at `SP = 0xFF`. -/
theorem test_pla :
    regsAfter ({ stateAt 0x0600 [0x68] [] with a := 0x55, sp := 0xFE }) = some ⟨0x00, 0x00, 0x00, 0xFF, 0x0601, 0x22, 4⟩ ∧
    regsAfter ({ stateAt 0x0600 [0x68] [(0x0100, 0x80)] with sp := 0xFF }) =
      some ⟨0x80, 0x00, 0x00, 0x00, 0x0601, 0xA0, 4⟩ := by
  decide

/-- Part 2.7: PLP of `C3`, `00` and `FF`. -/
theorem test_plp :
    regsAfter ({ stateAt 0x0600 [0x28] [(0x01FF, 0xC3)] with sp := 0xFE }) = some ⟨0x00, 0x00, 0x00, 0xFF, 0x0601, 0xE3, 4⟩ ∧
    regsAfter ({ stateAt 0x0600 [0x28] [] with sp := 0xFE, p := 0xFF }) = some ⟨0x00, 0x00, 0x00, 0xFF, 0x0601, 0x20, 4⟩ ∧
    regsAfter ({ stateAt 0x0600 [0x28] [(0x01FF, 0xFF)] with sp := 0xFE }) =
      some ⟨0x00, 0x00, 0x00, 0xFF, 0x0601, 0xFF, 4⟩ := by
  decide

/-- Part 2.7: NOP. -/
theorem test_nop :
    regsAfter (stateAt 0x0600 [0xEA] []) = some ⟨0x00, 0x00, 0x00, 0xFF, 0x0601, 0x20, 2⟩ ∧
    busAfter (stateAt 0x0600 [0xEA] []) = some [.read 0x0600 0xEA] := by
  decide

/-- What a step faults with: the byte, and of the state it leaves `halted`, `PC`, the cycle count and the bus trace. -/
def faultOf (s : State) : Option ((Byte × Option HaltReason) × (Word × Nat × List BusAccess)) :=
  match step s with
  | .fault (.invalidOpcode op left) => some ((op, left.halted), (left.pc, left.cycles, left.busLog))
  | .fault (.coreHalted _) | .next _ | .refused _ => none

/-- Part 2.9: an invalid byte halts the core with `PC` past it, and a halted core takes no step; as an operand it is data. -/
theorem test_invalid_opcode :
    faultOf (stateAt 0x0600 [0x02] []) = some ((0x02, some (.invalidOpcode 0x02)), (0x0601, 0, [.read 0x0600 0x02])) ∧
    after { stateAt 0x0600 [0xEA] [] with halted := some (.invalidOpcode 0x02) } = none ∧
    regsAfter (stateAt 0x0600 [0xA9, 0x02] []) = some ⟨0x02, 0x00, 0x00, 0xFF, 0x0602, 0x20, 2⟩ := by
  decide

/-- Part 2.8: fetches that wrap from `0xFFFF` to `0x0000`. -/
theorem test_fetch_wraps :
    regsAfter (stateAt 0xFFFF [0xEA] []) = some ⟨0x00, 0x00, 0x00, 0xFF, 0x0000, 0x20, 2⟩ ∧
    regsAfter (stateAt 0xFFFE [0xAD, 0x34, 0x12] [(0x1234, 0x01)]) = some ⟨0x01, 0x00, 0x00, 0xFF, 0x0001, 0x20, 4⟩ := by
  decide

/-- T6: a byte registered anew runs the newest descriptor, here a pair outside the 82 (log entry 11): INX in zeropage mode. -/
theorem test_reregistered_byte :
    regsAfter { stateAt 0x0600 [0xEA, 0x10] [] with
      params := { Params.default with table := defaultTable.register 0xEA ⟨.zeropage, .inx⟩ } } =
      some ⟨0x00, 0x01, 0x00, 0xFF, 0x0602, 0x20, 3⟩ := by
  decide

/-- R78 to R80: a branch's trace line shows its resolved target; with the debug flag off there is none. -/
theorem test_trace_line :
    (after { stateAt 0x0600 [0xF0, 0xFE] [] with debug := true }).map (fun t => t.trace) =
      some (some ['B', 'E', 'Q', ' ', '$', '0', '6', '0', '0']) ∧
    (after (stateAt 0x0600 [0xF0, 0xFE] [])).map (fun t => t.trace) = some none := by
  decide

/-- `withFetchWord` stores a word where the next step fetches; the step after reset runs it. -/
theorem test_withFetchWord :
    regsAfter (State.reset.withFetchWord 16 0x42A9) = some ⟨0x42, 0x00, 0x00, 0xFF, 0x0002, 0x20, 2⟩ := by
  decide

/-! ## The bus (20_memory.md R58, 93_implementation_defined.md U5) -/

/-- A bus with a device page at `0xD000`, ROM from `0xC000`, a 2 KiB mirror, and a banked ROM at `0x8000` whose bank is the byte
last written anywhere into it (20_memory.md R58). -/
def windowed (s : State) : State :=
  { s with params := { s.params with
      readMap := [⟨0xD000, 0xD0FF, .device 7⟩, ⟨0x0800, 0x1FFF, .storage 0 0x07FF none⟩,
        ⟨0x8000, 0xBFFF, .storage 65536 0x3FFF (some ⟨0x8000, 16384⟩)⟩, ⟨0x4000, 0x40FF, .nothing 0x5A⟩]
      writeMap := [⟨0xD000, 0xD0FF, .device 7⟩, ⟨0x0800, 0x1FFF, .storage 0 0x07FF none⟩,
        ⟨0x8000, 0xBFFF, .storage 0x8000 0x0000 none⟩, ⟨0xC000, 0xFFFF, .nothing 0x00⟩] } }

/-- A store through the mirror reaches the mirrored cell, and is read at both addresses. -/
theorem test_bus_mirror :
    ((after { windowed (stateAt 0x0600 [0x8D, 0x05, 0x10] []) with a := 0x37 }).map fun t =>
      [t.mem.read 0x0005, t.mem.read 0x1005, t.busByte 0x0005, t.busByte 0x1805]) = some [0x37, 0x00, 0x37, 0x37] := by
  decide

/-- A store into the banked ROM sets the latch, changes no ROM byte, and switches the bank that a later read sees. -/
theorem test_bus_bank_switch :
    ((after { windowed (stateAt 0x0600 [0x8D, 0x34, 0x92] []) with
        a := 0x01, mem := (stateAt 0x0600 [0x8D, 0x34, 0x92] []).mem ++ [(65541, 0xAA), (81925, 0xBB)] }).map fun t =>
      (t.mem.read 0x8000, t.mem.read 65541, t.busByte 0x8005)) = some (0x01, 0xAA, 0xBB) := by
  decide

/-- The ROM and the open bus ignore a write and the read of the open bus gives its value. -/
theorem test_bus_rom_and_open :
    ((after { windowed (stateAt 0x0600 [0x8D, 0x00, 0xC0] [(0xC000, 0x11)]) with a := 0x37 }).map fun t => t.busByte 0xC000) =
      some 0x11 ∧
    (after (windowed (stateAt 0x0600 [0xAD, 0x10, 0x40] []))).map (fun t => t.a) = some 0x5A := by
  decide

/-! ## A witness for every statement with hypotheses

Each names the statement, a concrete state and operands, and shows that they meet all of its hypotheses together. -/

theorem witness_StepKeepsInvariant :
    Inv (stateAt 0x0600 [0x48] []) ∧ (after (stateAt 0x0600 [0x48] [])).isSome = true := by decide

/-- Also for the clause about the fault: the second step fetches `0x00`, which is no opcode. -/
theorem witness_ReachableStatesMeetR42 :
    (∃ t u, launch (stateAt 0x0600 [0xEA, 0xE8, 0x00] []) = .next (stateAt 0x0600 [0xEA, 0xE8, 0x00] []) ∧
      Sys2Proof.core.run 1 (stateAt 0x0600 [0xEA, 0xE8, 0x00] []) = .next t ∧ Sys2Proof.core.run 1 t = .next u ∧
      ∃ left, step u = .fault (.invalidOpcode 0x00 left)) :=
  ⟨_, _, rfl, rfl, rfl, _, rfl⟩

/-- Both directions of the equivalence: the reset state is accepted; `test_launch_refuses` has the states refused. -/
theorem witness_LaunchAdmitsExactlyTheInvariant : launch State.reset = .next State.reset ∧ Inv State.reset :=
  ⟨rfl, by decide, by decide, rfl, rfl⟩

theorem witness_StepKeepsParameters : (after (windowed (stateAt 0x0600 [0x68] []))).isSome = true := by decide

/-- An instruction whose operand bytes lie on both sides of `0xFFFF`, with the debug flag off and on. -/
theorem witness_StepRunsDecodedInstruction :
    (stateAt 0xFFFE [0xAD, 0x34, 0x12] []).halted = none ∧
    decode defaultTable (stateAt 0xFFFE [0xAD, 0x34, 0x12] []).nextBytes = .ok (.ldaAbs 0x34 0x12, []) ∧
    decode defaultTable ((stateAt 0x0600 [0xEA] []).setDebug true).nextBytes = .ok (.nop, [0x00, 0x00]) := by decide

theorem witness_InvalidOpcodeHaltsTheCore :
    (stateAt 0xFFFF [0x02] []).halted = none ∧ defaultTable.lookup ((stateAt 0xFFFF [0x02] []).busByte 0xFFFF) = none := by
  decide

theorem witness_HaltedCoreTakesNoStep :
    ({ State.reset with halted := some (.invalidOpcode 0x02) } : State).halted = some (.invalidOpcode 0x02) := by decide

/-- A byte that is registered and one that is not. -/
theorem witness_OnlyAnInvalidOpcodeFaults :
    State.reset.params.table.wf = true ∧ State.reset.halted = none ∧
    (stateAt 0x0600 [0xEA] []).params.table.lookup ((stateAt 0x0600 [0xEA] []).busByte 0x0600) ≠ none ∧
    State.reset.params.table.lookup (State.reset.busByte 0x0000) = none := by decide

/-- The longest instruction, its last byte at `0xFFFF`: `PC` wraps. -/
theorem witness_SequentialInstructionsAdvancePc :
    decode defaultTable (stateAt 0xFFFD [0x8D, 0x00, 0x02] []).nextBytes = .ok (.staAbs 0x00 0x02, []) ∧
    (after (stateAt 0xFFFD [0x8D, 0x00, 0x02] [])).map (fun t => t.pc) = some 0x0000 := by decide

/-- A run of two NOPs that stops when `PC` is `0x0602`, the same run cut short, and one that faults after two NOPs. -/
theorem witness_RunStopsWhereTheHostStops :
    (∃ t, runUntil (fun u => u.pc == 0x0602) 5 (stateAt 0x0600 [0xEA, 0xEA] []) = .stopped t) ∧
    (∃ t, runUntil (fun u => u.pc == 0x0602) 1 (stateAt 0x0600 [0xEA, 0xEA] []) = .running t) ∧
    ∃ f, runUntil (fun u => u.pc == 0x0700) 5 (stateAt 0x0600 [0xEA, 0xEA, 0x02] []) = .faulted f :=
  ⟨⟨_, rfl⟩, ⟨_, rfl⟩, _, rfl⟩

theorem witness_LastRegistrationWins : (0x02 : Byte) ≠ 0xEA := by decide

/-- One instruction of each length. -/
theorem witness_DecodeEncodeRoundTrip :
    Instr.wf defaultTable .nop ∧ Instr.wf defaultTable (.beq 0x80) ∧ Instr.wf defaultTable (.jsr 0xFF 0xFF) ∧
    Instr.wf (DecodeTable.empty.register 0xEA ⟨.implied, .nop⟩) .nop := by decide

theorem witness_EncodeDecodeRoundTrip : decode defaultTable [0xBD, 0xFF, 0x12, 0x00] = .ok (.ldaAbx 0xFF 0x12, [0x00]) := by decide

theorem witness_BusWriteSetsOneByte : plainBus State.reset ∧ State.reset.mem.wf = true := ⟨fun _ => ⟨rfl, rfl⟩, rfl⟩

theorem witness_BusReadReturnsTheByte : plainBus (stateAt 0x0600 [0xEA] []) := fun _ => ⟨rfl, rfl⟩

/-- The first and last addresses of the windows: cells, nothing and a device, for a read and for a write. -/
theorem witness_BusWindowsOutsideRam :
    (windowed State.reset).readPlace 0x07FF = .cell 0x07FF ∧ (windowed State.reset).readPlace 0x1FFF = .cell 0x07FF ∧
    (windowed State.reset).readPlace 0xBFFF = .cell 81919 ∧ (windowed State.reset).readPlace 0x4000 = .nothing 0x5A ∧
    (windowed State.reset).readPlace 0xD0FF = .device 7 ∧ (windowed State.reset).writePlace 0x0800 = .cell 0x0000 ∧
    (windowed State.reset).writePlace 0xBFFF = .cell 0x8000 ∧ (windowed State.reset).writePlace 0xC000 = .nothing 0x00 ∧
    (windowed State.reset).writePlace 0xD000 = .device 7 := by decide

/-- A pointer read, an effective-address read and a write in one instruction; and JSR's two writes. -/
theorem witness_BusAccessOrder :
    decode defaultTable (stateAt 0x0600 [0x91, 0x86] []).nextBytes = .ok (.staIzy 0x86, [0x00]) ∧
    (after (stateAt 0x0600 [0x91, 0x86] [])).isSome = true ∧
    decode defaultTable (stateAt 0x0600 [0x20, 0x34, 0x12] []).nextBytes = .ok (.jsr 0x34 0x12, []) ∧
    (after (stateAt 0x0600 [0x20, 0x34, 0x12] [])).isSome = true := by decide

theorem witness_EaReadChoiceMovesOnlyTraffic : noDevice State.reset := fun w hw => by cases hw

/-- A plain address, and one of the mirror. -/
theorem witness_FetchSeesStoredByte :
    (Instr.staAbs 0xFF 0xFF).mnemonic = .sta ∧ eaOf (.staAbs 0xFF 0xFF) State.reset = some 0xFFFF ∧
    State.reset.writePlace 0xFFFF = .cell 0xFFFF ∧ State.reset.mem.wf = true ∧ plainAt State.reset 0xFFFF ∧
    eaOf (.staAbs 0x05 0x10) (windowed State.reset) = some 0x1005 ∧ (windowed State.reset).writePlace 0x1005 = .cell 0x0005 ∧
    ∃ t, exec (.staAbs 0x05 0x10) (windowed State.reset) = .next t ∧ t.readPlace 0x1005 = .cell 0x0005 :=
  ⟨rfl, by decide, by decide, rfl, by decide, by decide, by decide, _, rfl, by decide⟩

/-- `$12F0,X` with `X = 0x20` crosses a page (base 4 and one more); with `X = 0x0F` it does not. -/
theorem witness_ResolversOnlyReadTheBus :
    (fetchAndResolve .absoluteX ((stateAt 0x0600 [0xF0, 0x12] []).setX 0x20)).1.crossed = true ∧
    (fetchAndResolve .absoluteX ((stateAt 0x0600 [0xF0, 0x12] []).setX 0x20)).2.cycles = 5 ∧
    (fetchAndResolve .absoluteX ((stateAt 0x0600 [0xF0, 0x12] []).setX 0x0F)).1.crossed = false := by decide

/-- Operand bytes at `PC`; index sums on both sides of the carry: `0xFF + 0x00` and `0xFF + 0x01`. -/
theorem witness_ResolveAbsoluteModes :
    (stateAt 0x0601 [0xFF, 0x12] []).busByte 0x0601 = 0xFF ∧ ((stateAt 0x0601 [0xFF, 0x12] []).afterReads [0x0601]).busByte 0x0602 = 0x12 ∧
    ¬ 256 ≤ (0xFF : Byte).toNat + State.reset.x.toNat ∧
    256 ≤ (0xFF : Byte).toNat + ({ State.reset with x := 0x01 } : State).x.toNat := by decide

/-- Both choices of `P_INDX_HIGH`, at a pointer that wraps. -/
theorem witness_ResolveIndirectX :
    (stateAt 0x0601 [0xFF] []).busByte 0x0601 = 0xFF ∧ State.reset.params.indxHigh = .zero ∧
    ({ State.reset with params := { Params.default with indxHigh := .draw } } : State).params.indxHigh = .draw := by decide

/-- Both choices of `P_INDY_PTR`, the second pointer byte wrapping to `0x0000`. -/
theorem witness_ResolveIndirectY :
    (stateAt 0x0601 [0xFF] []).busByte 0x0601 = 0xFF ∧ State.reset.params.indyPtr = .one ∧
    ({ State.reset with params := { Params.default with indyPtr := .two } } : State).params.indyPtr = .two ∧
    zeropageSum 0xFF 0x01 = 0x0000 := by decide

/-- An immediate form and a memory form. -/
theorem witness_OperandValueIsTheByteAtTheAddress :
    (Instr.ldaImm 0x00).mnemonic ∈ [.lda, .ldx, .ldy, .and, .adc, .sbc] ∧ (Instr.ldaImm 0x00).mode = .immediate ∧
    (Instr.sbcIzy 0xFF).mnemonic ∈ [.lda, .ldx, .ldy, .and, .adc,
        .sbc] ∧ isMemoryMode (Instr.sbcIzy 0xFF).mode = true := by decide

theorem witness_LoadsCopyTheOperand :
    (Instr.ldaIzx 0xFF).mnemonic = .lda ∧ (Instr.ldxAby 0xFF 0xFF).mnemonic = .ldx ∧ (Instr.ldyImm 0x00).mnemonic = .ldy := by decide

/-- Each store, and where the bus takes it: a plain cell, a mirror's, and ROM, which ignores the write. -/
theorem witness_StoresWriteTheRegister :
    storedRegister (Instr.staAby 0x00 0xC0).mnemonic { State.reset with a := 0x37 } = some 0x37 ∧
    storedRegister (Instr.stxZp 0x10).mnemonic { State.reset with x := 0x05 } = some 0x05 ∧
    storedRegister (Instr.styZpx 0xFF).mnemonic { State.reset with y := 0x09 } = some 0x09 ∧
    eaOf (.staAby 0x00 0xC0) (windowed State.reset) = some 0xC000 ∧ (windowed State.reset).storedCells 0xC000 = [] ∧
    (windowed State.reset).storedCells 0x0010 = [0x0010] ∧ (windowed State.reset).storedCells 0x1010 = [0x0010] ∧
    (windowed State.reset).mem.wf = true ∧ plainAt (windowed State.reset) 0x0010 := by decide

theorem witness_AndIsBitwise : (Instr.andZpx 0xF0).mnemonic = .and := by decide

theorem witness_AdcAddsWithCarry : (Instr.adcAbx 0xFF 0xFF).mnemonic = .adc := by decide

theorem witness_SbcSubtractsWithBorrow :
    (Instr.sbcImm 0x01).mnemonic = .sbc ∧ State.reset.params.sbcV = .literal ∧
    ({ State.reset with params := { Params.default with sbcV := .complement } } : State).params.sbcV = .complement := by decide

/-- `0x7F + 0x01`, and `0x80 - 0x01` under `complement`: both overflow. -/
theorem witness_OverflowIsSignedOverflow :
    (operandOf (.adcImm 0x01) { State.reset with a := 0x7F } = some 0x01 ∧
      ∃ t, exec (.adcImm 0x01) { State.reset with a := 0x7F } = .next t ∧ t.flag .v = true) ∧
    (operandOf (.sbcImm 0x01) { State.reset with a := 0x80, p := 0x21, params := { Params.default with sbcV := .complement } } =
        some 0x01 ∧
      ∃ t, exec (.sbcImm 0x01) { State.reset with a := 0x80, p := 0x21, params := { Params.default with
      sbcV := .complement } } =
        .next t ∧ t.flag .v = true) :=
  ⟨⟨by decide, _, rfl, by decide⟩, by decide, _, rfl, by decide⟩

theorem witness_DecimalModeIsIgnored :
    (Instr.adcZp 0x10).mnemonic ∈ [.adc, .sbc] ∧ (Instr.sbcZp 0x10).mnemonic ∈ [.adc, .sbc] := by decide

theorem witness_FlagInstructionsWriteOneFlag : (Instr.clv, Flag.v, false) ∈ flagInstructions := by decide

/-- A branch taken backwards past `0x0000` and one not taken. -/
theorem witness_BranchesTakenAndNotTaken :
    (Mnemonic.bcc, Flag.c, false) ∈ branchTests ∧ (Instr.bcc 0x80).mnemonic = .bcc ∧ State.reset.flag .c = false ∧
    (Mnemonic.beq, Flag.z, true) ∈ branchTests ∧ (Instr.beq 0x80).mnemonic = .beq ∧ State.reset.flag .z ≠ true := by decide

theorem witness_JmpSetsPc :
    State.reset.params.eaRead = .always ∧
    ({ State.reset with params := { Params.default with eaRead := .onUse } } : State).params.eaRead = .onUse := by decide

/-- The stack slots at `SP = 0x00`, `0x0100` and `0x01FF`: in their own cells, both in one cell, and behind ROM. -/
theorem witness_JsrPushesTheReturnAddress :
    State.reset.mem.wf = true ∧ stackAddr 0x00 = 0x0100 ∧ stackAddr (0x00 - 1) = 0x01FF ∧
    plainAt State.reset 0x0100 ∧ plainAt State.reset 0x01FF ∧
    (State.reset.busWrite 0x0100 0x06).writePlace 0x01FF = .cell 0x01FF ∧
    placeIn [⟨0x0100, 0x01FF, .storage 0x0100 0x0000 none⟩] [] 0x01FF = .cell 0x0100 ∧
    placeIn [⟨0x0100, 0x01FF, .nothing 0x00⟩] [] 0x01FF = .nothing 0x00 := by decide

theorem witness_PushesStoreAndDecrement :
    State.reset.mem.wf = true ∧ (Instr.php, State.reset.p) ∈ [(Instr.pha, State.reset.a), (Instr.php, State.reset.p)] ∧
    State.reset.writePlace (stackAddr 0xFF) = .cell 0x01FF ∧ plainAt State.reset (stackAddr 0xFF) :=
  ⟨rfl, by decide, by decide, by decide⟩

theorem witness_PushPullRoundTrip :
    State.reset.mem.wf = true ∧ State.reset.writePlace (stackAddr State.reset.sp) = .cell 0x01FF ∧
    State.reset.p.getLsbD 5 = true ∧ plainAt State.reset (stackAddr State.reset.sp) ∧
    (∃ t, exec .pha State.reset = .next t ∧ t.readPlace (stackAddr State.reset.sp) = .cell 0x01FF) ∧
    ∃ t, exec .php State.reset = .next t ∧ t.readPlace (stackAddr State.reset.sp) = .cell 0x01FF :=
  ⟨rfl, by decide, by decide, by decide, ⟨_, rfl, by decide⟩, _, rfl, by decide⟩

theorem witness_RtsReturnsAfterJsr :
    ({ State.reset with sp := 0x00 } : State).mem.wf = true ∧ plainAt { State.reset with sp := 0x00 } (stackAddr 0x00) ∧
    plainAt { State.reset with sp := 0x00 } (stackAddr (0x00 - 1)) :=
  ⟨rfl, by decide, by decide⟩

/-- One change of each register. -/
theorem witness_RegistersHaveTheirWriters :
    (∃ t, exec .txa { State.reset with
      x := 0x01 } = .next t ∧ t.a ≠ 0x00) ∧ (∃ t, exec .inx State.reset = .next t ∧ t.x ≠ 0x00) ∧
    (∃ t, exec .iny State.reset = .next t ∧ t.y ≠ 0x00) ∧ (∃ t, exec .pha State.reset = .next t ∧ t.sp ≠ 0xFF) :=
  ⟨⟨_, rfl, by decide⟩, ⟨_, rfl, by decide⟩, ⟨_, rfl, by decide⟩, ⟨_, rfl, by decide⟩⟩

/-- One change of each flag. -/
theorem witness_FlagsHaveTheirWriters :
    (∃ t, exec .sec State.reset = .next t ∧ t.flag .c ≠ State.reset.flag .c) ∧
    (∃ t, exec (.ldaImm 0x00) State.reset = .next t ∧ t.flag .z ≠ State.reset.flag .z) ∧
    (∃ t, exec .sei State.reset = .next t ∧ t.flag .i ≠ State.reset.flag .i) ∧
    (∃ t, exec .sed State.reset = .next t ∧ t.flag .d ≠ State.reset.flag .d) ∧
    (∃ t, exec .plp (stateAt 0x0600 [0x28] [(0x0100, 0x10)]) = .next t ∧ t.flag .b = true) ∧
    (∃ t, exec .clv { State.reset with p := 0x60 } = .next t ∧ t.flag .v = false) ∧ State.reset.p.getLsbD 5 = true :=
  ⟨⟨_, rfl, by decide⟩, ⟨_, rfl, by decide⟩, ⟨_, rfl, by decide⟩, ⟨_, rfl, by decide⟩, ⟨_, rfl, by decide⟩, ⟨_, rfl, by decide⟩,
    by decide⟩

/-- A store and a push that change a byte. -/
theorem witness_MemoryHasItsWriters :
    (∃ t, exec (.staZp 0x10) { State.reset with a := 0x01 } = .next t ∧ t.mem.read 0x0010 ≠ State.reset.mem.read 0x0010) ∧
    (∃ t, exec .php State.reset = .next t ∧ t.mem.read 0x01FF ≠ State.reset.mem.read 0x01FF) ∧ State.reset.mem.wf = true :=
  ⟨⟨_, rfl, by decide⟩, ⟨_, rfl, by decide⟩, rfl⟩

theorem witness_UnreadFlagsHaveNoInfluence : Flag.b ∈ [Flag.i, Flag.d, Flag.b] ∧ Instr.adcImm 0x01 ≠ .php := by decide

/-- A step with the debug flag off and one with it on. -/
theorem witness_DebugOnlyAddsTheTraceLine :
    (after (stateAt 0x0600 [0xEA] [])).isSome = true ∧ (stateAt 0x0600 [0xEA] []).debug = false ∧
    (after ((stateAt 0x0600 [0xEA] []).setDebug true)).isSome = true ∧ ((stateAt 0x0600 [0xEA] []).setDebug true).debug = true := by
  decide
end

section
/-! PROOFS. What launch admits, what one step does to the machine's invariant and to the cycle counter, whether it answers a next
state or the fault, and by one induction what every run does (10_state.md R42). -/

namespace Sys2Proof.Machine

/-! ## Launch -/

/-- R254: an accepted launch starts from the very state handed in, and that state meets the invariant. -/
theorem launch_eq_next_iff {s t : State} : launch s = .next t ↔ t = s ∧ Inv s := by
  unfold launch State.launchOk
  constructor
  · intro h
    split at h
    · cases h
    · split at h
      · cases h
      · rename_i htable hok
        obtain rfl := Host.Outcome.next.inj h
        simp only [Bool.not_eq_true', Bool.not_eq_false, Bool.and_eq_true, beq_iff_eq] at htable hok
        obtain ⟨⟨hbit, hhalted⟩, hmem⟩ := hok
        exact ⟨rfl, hbit, htable, hhalted, hmem⟩
  · rintro ⟨rfl, hbit, htable, hhalted, hmem⟩
    simp only [hbit, htable, hhalted, hmem]
    rfl

/-! ## The decoded instruction -/

/-- R76: an instruction is the executor of its mnemonic after the resolver of its mode. -/
theorem exec_eq_runDescriptor (i : Instr) (s : State) : exec i s = runDescriptor i.descriptor i.lo i.hi s := by
  cases i <;> rfl

/-- What runs after the fetches is always the descriptor's own resolver and executor, whether or not the pair is one of the 82. -/
theorem runDecoded_eq_runDescriptor (d : Descriptor) (lo hi : Byte) (s : State) :
    ∃ lo' hi', runDecoded d lo hi s = runDescriptor d lo' hi' s := by
  unfold runDecoded
  split
  · rename_i i hsome
    obtain ⟨rfl, -⟩ := assemble_some hsome
    exact ⟨_, _, exec_eq_runDescriptor i s⟩
  · exact ⟨lo, hi, rfl⟩

theorem runDecoded_maintains {d : Descriptor} {lo hi : Byte} {s t : State} (h : runDecoded d lo hi s = .next t) :
    Maintains s t := by
  obtain ⟨lo', hi', hrun⟩ := runDecoded_eq_runDescriptor d lo hi s
  exact (resolve_maintains d.mode lo' hi' s).trans (execute_maintains (hrun.symm.trans h))

theorem runDecoded_ne_fault (d : Descriptor) (lo hi : Byte) (s : State) (f : Fault) : runDecoded d lo hi s ≠ .fault f := by
  obtain ⟨lo', hi', hrun⟩ := runDecoded_eq_runDescriptor d lo hi s
  exact hrun ▸ execute_ne_fault d.mnemonic _ f

/-- The end of a step adds no fault of its own. -/
theorem finishStep_eq_fault {d : Descriptor} {lo hi : Byte} {pcAfter : Word} {r : Result} {f : Fault}
    (h : finishStep d lo hi pcAfter r = .fault f) : r = .fault f := by
  cases r with
  | next u => cases h
  | fault g => exact h
  | refused g => cases h

theorem runFetched_ne_fault (d : Descriptor) (s : State) (f : Fault) : runFetched d s ≠ .fault f :=
  fun h => runDecoded_ne_fault _ _ _ _ _ (finishStep_eq_fault h)

/-! ## One step -/

theorem afterFetch_maintains (s : State) (n : Nat) : Maintains s.beginStep (s.afterFetch n) :=
  ⟨rfl, rfl, rfl, rfl, id, id, Nat.le_refl _⟩

/-- From the cleared outputs it begins with, a step that answers a next state breaks nothing that `Maintains` lists, but for the
trace line it ends with. -/
theorem step_maintains {s t : State} (h : step s = .next t) :
    ∃ u line, Maintains s.beginStep u ∧ t = { u with trace := line } := by
  obtain ⟨-, d, o, u, -, rfl, hrun, rfl⟩ := step_eq_next h
  rw [fetchOperands_afterFetch] at hrun
  exact ⟨u, _, (afterFetch_maintains s _).trans (runDecoded_maintains hrun), rfl⟩

theorem step_keeps_inv {s t : State} (hs : Inv s) (h : step s = .next t) : Inv t := by
  obtain ⟨hbit, htable, hhalted, hmem⟩ := hs
  obtain ⟨u, line, hu, rfl⟩ := step_maintains h
  exact ⟨hu.bit5 hbit, (congrArg (·.table.wf) hu.params).trans htable, hu.halted.trans hhalted, hu.mem hmem⟩

theorem step_cycles_le {s t : State} (h : step s = .next t) : s.cycles ≤ t.cycles := by
  obtain ⟨u, line, hu, rfl⟩ := step_maintains h
  exact hu.cycles

/-- The step that raises the fault: the core was running, the byte it fetched has no descriptor, and the state left is the one
past the opcode fetch with `halted` set (60_exceptions.md R221, R222). -/
theorem step_eq_invalidOpcode {s left : State} {op : Byte} (h : step s = .fault (.invalidOpcode op left)) :
    s.halted = none ∧ op = s.busByte s.pc ∧ s.params.table.lookup op = none ∧
      left = { s.beginStep.fetch8.2 with halted := some (.invalidOpcode op) } := by
  unfold step at h
  split at h
  · cases h
  · rename_i hhalted
    unfold stepRunning at h
    dsimp only at h
    split at h
    · rename_i hlookup
      cases h
      exact ⟨hhalted, rfl, hlookup, rfl⟩
    · exact absurd h (runFetched_ne_fault _ _ _)

/-! ## Runs -/

/-- A run of one step more that answers a next state is one step and the rest of the run. -/
theorem run_succ_eq_next {M : Host.Core} {n : Nat} {s t : M.State} (h : M.run (n + 1) s = .next t) :
    ∃ s', M.step s = .next s' ∧ M.run n s' = .next t := by
  unfold Host.Core.run at h
  split at h
  · exact ⟨_, by assumption, h⟩
  · cases h
  · cases h

/-- What every step keeps, every run keeps. -/
theorem run_keeps {M : Host.Core} {P : M.State → Prop} (hstep : ∀ s t, P s → M.step s = .next t → P t) {n : Nat}
    {s t : M.State} (hs : P s) (h : M.run n s = .next t) : P t := by
  induction n generalizing s with
  | zero => exact Host.Outcome.next.inj h ▸ hs
  | succ n ih =>
    obtain ⟨s', hs', hrest⟩ := run_succ_eq_next h
    exact ih (hstep s s' hs hs') hrest

theorem run_keeps_inv {n : Nat} {s t : State} (hs : Inv s) (h : core.run n s = .next t) : Inv t :=
  run_keeps (M := core) (P := Inv) (fun _ _ => step_keeps_inv) hs h

theorem run_cycles_le {n : Nat} {s t : State} (h : core.run n s = .next t) : s.cycles ≤ t.cycles :=
  run_keeps (M := core) (P := fun u : State => s.cycles ≤ u.cycles)
    (fun _ _ hle hstep => hle.trans (step_cycles_le hstep)) le_rfl h

theorem Inv.sized {s : State} (h : Inv s) : s.params.table.sized = true := by
  obtain ⟨-, htable, -, -⟩ := h
  exact (Bool.and_eq_true_iff.mp htable).1

/-- Settles O4: the invariant and the cycle bound hold along both parts of the run, the register ranges are those of their
widths, and the fault changes neither `P`, the parameters nor `cycles` of the state it is raised in. -/
theorem reachableStatesMeetR42 : Obligations.ReachableStatesMeetR42 := by
  intro s s₀ t u m n hlaunch hm hn
  obtain ⟨rfl, hs⟩ := launch_eq_next_iff.mp hlaunch
  have hu : Inv u := run_keeps_inv (run_keeps_inv hs hm) hn
  have ⟨hbit, _⟩ := hu
  refine ⟨hbit, ?_, ?_, ?_, ?_, ?_, hu.sized, run_cycles_le hn, ?_⟩
  iterate 5 exact Nat.le_of_lt_succ (BitVec.isLt _)
  intro op left hfault
  obtain ⟨-, -, -, rfl⟩ := step_eq_invalidOpcode hfault
  exact ⟨hbit, hu.sized, le_rfl⟩

end Sys2Proof.Machine
end

section
/-! PROOFS. An instruction is its mode's resolver followed by its mnemonic's executor (30_encoding.md R76). -/

namespace Sys2Proof.Machine

/-- Settles O12: an instruction runs as its descriptor does (`exec_eq_runDescriptor`, by the constructors of `Instr`), and a
descriptor's semantics is the executor of its mnemonic on what the resolver of its mode answers. -/
theorem instructionIsResolverThenExecutor : Obligations.InstructionIsResolverThenExecutor := by
  intro i s
  calc exec i s
    _ = runDescriptor i.descriptor i.lo i.hi s := exec_eq_runDescriptor i s
    _ = execute i.mnemonic (resolve i.mode i.lo i.hi s) := rfl

end Sys2Proof.Machine
end

section
/-! PROOFS. The resolvers with the fetch of their operand bytes (41_addressing_modes.md R100): what the modes of one operand byte
do after it, and that a mode which latches a memory operand resolves to its address. -/

namespace Sys2Proof.Machine

/-! ## Resolving after the fetches -/

/-- A mode of one operand byte resolves from the state past that byte. -/
theorem fetchAndResolve_oneByte {m : Mode} (hm : m.operandBytes = 1) (s : State) :
    fetchAndResolve m s = resolve m (s.busByte s.pc) 0 ((s.afterReads [s.pc]).setPc (s.pc + 1)) := by
  simp only [fetchAndResolve, hm, fetchOperands_one]

/-- R111: a mode resolves to an address when it latches the memory operand there after its fetches and its pointer reads. -/
theorem resolvesTo_of_latchMemory {m : Mode} {s : State} {pointers : List Word} {ea : Word} {crossed : Bool} {cost : Nat}
    (h : fetchAndResolve m s = latchMemory ea crossed cost
      ((s.afterReads ((List.range m.operandBytes).map (fun k => s.pc + BitVec.ofNat 16 k) ++ pointers)).setPc
        (s.pc + BitVec.ofNat 16 m.operandBytes))) :
    resolvesTo m s pointers ea crossed cost := by
  unfold resolvesTo
  rw [h, latchMemory_eq]
  cases heaRead : s.params.eaRead
  case always => simp [heaRead, State.setPc_afterReads, State.afterReads_append]
  case onUse => simp [heaRead]

/-- A mode of one operand byte and no pointer resolves to the address whose byte it latches after its fetch. -/
theorem resolvesTo_of_oneByte {m : Mode} (hm : m.operandBytes = 1) {s : State} {ea : Word} {crossed : Bool} {cost : Nat}
    (h : resolve m (s.busByte s.pc) 0 ((s.afterReads [s.pc]).setPc (s.pc + 1)) =
      latchMemory ea crossed cost ((s.afterReads [s.pc]).setPc (s.pc + 1))) :
    resolvesTo m s [] ea crossed cost := by
  apply resolvesTo_of_latchMemory
  rw [fetchAndResolve_oneByte hm, h]
  simp [hm]

/-! ## The zero-page modes (R104, R105) -/

/-- A zero-page sum as a number: it wraps modulo 256. -/
theorem zeropageSum_toNat (base index : Byte) : (zeropageSum base index).toNat = (base.toNat + index.toNat) % 256 := by
  rw [zeropageSum, zext16_toNat, BitVec.toNat_add]

/-- Settles O28: after their one fetch both modes latch the byte at their address, without a crossing, and charge 3; the indexed
address is a sum of bytes, which wraps modulo 256. -/
theorem resolveZeropageModes : Obligations.ResolveZeropageModes := by
  intro s
  refine ⟨zext16 (s.busByte s.pc), zeropageSum (s.busByte s.pc) s.x, zext16_toNat _, ?zeropage, zeropageSum_toNat _ _,
    ?zeropageX⟩
  case zeropage => exact resolvesTo_of_oneByte rfl rfl
  case zeropageX => exact resolvesTo_of_oneByte rfl rfl

/-! ## The modes without a memory operand (R101, R102, R103) -/

/-- Settles O27: implied fetches nothing; immediate and relative latch their one fetched byte, and relative adds it, as a signed
number, to the `PC` past it (`relativeTarget_toNat`). -/
theorem resolveWithoutMemory : Obligations.ResolveWithoutMemory := by
  intro s
  refine ⟨?implied, ?immediate, relativeTarget (s.pc + 1) (s.busByte s.pc), relativeTarget_toNat _ _, ?relative⟩
  case implied => rfl
  case immediate => exact fetchAndResolve_oneByte rfl s
  case relative => exact fetchAndResolve_oneByte rfl s

end Sys2Proof.Machine
end

section
/-! PROOFS. Frames operation by operation, the cost of an instruction that uses its operand's value (70_reset_and_hazards.md R259),
and the loads and transfers: a byte copied into a register and the shared flag rule (42_load_store_transfer.md R130 to R139). -/

namespace Sys2Proof.Machine

/-! ## Frames -/

theorem keeps.trans {written written' : List Loc} {s t u : State} (h : keeps written s t) (h' : keeps written' t u) :
    keeps (written ++ written') s u := by
  intro l hl
  obtain ⟨hs, ht⟩ := not_or.mp (mt List.mem_append.mpr hl)
  have hst : l.same s t := h l hs
  have htu : l.same t u := h' l ht
  cases l
  case memory => exact fun c => (htu c).trans (hst c)
  all_goals exact Eq.trans htu hst

theorem keeps.mono {written written' : List Loc} {s t : State} (h : keeps written s t) (hsub : written ⊆ written') :
    keeps written' s t :=
  fun l hl => h l (mt (@hsub l) hl)

/-- Bus reads move the traffic only, which no frame speaks of. -/
theorem keeps_afterReads (s : State) (reads : List Word) : keeps [] s (s.afterReads reads) := by
  intro l _
  cases l <;> simp [Loc.same]

theorem keeps_charge (s : State) (n : Nat) : keeps [.cycles] s (s.charge n) := by
  intro l hl
  cases l <;> simp_all [Loc.same]

theorem keeps_setA (s : State) (v : Byte) : keeps [.a] s (s.setA v) := by
  intro l hl
  cases l <;> simp_all [Loc.same]

theorem keeps_setX (s : State) (v : Byte) : keeps [.x] s (s.setX v) := by
  intro l hl
  cases l <;> simp_all [Loc.same]

theorem keeps_setY (s : State) (v : Byte) : keeps [.y] s (s.setY v) := by
  intro l hl
  cases l <;> simp_all [Loc.same]

/-- R29: the shared flag rule writes two flags and nothing else. -/
theorem keeps_setZN (s : State) (v : Byte) : keeps [.flag .z, .flag .n] s (s.setZN v) := by
  intro l hl
  cases l
  case flag f =>
    have hf : f ≠ .z ∧ f ≠ .n := by simpa using hl
    simp only [Loc.same, State.flag_eq, getFlag_setZN, if_neg hf.1, if_neg hf.2]
  case statusBit5 => exact setZN_bit5 s v
  case memory => exact fun _ => rfl
  all_goals rfl

/-! ## A byte copied into a register -/

theorem State.setZN_flag_z (s : State) (v : Byte) : (s.setZN v).flag .z = decide (v = 0) := by
  rw [State.flag_eq, getFlag_setZN]
  rfl

theorem State.setZN_flag_n (s : State) (v : Byte) : (s.setZN v).flag .n = v.getLsbD 7 := by
  rw [State.flag_eq, getFlag_setZN]
  rfl

/-- `write` puts a byte into the register that `get` reads, whose location is `reg`; the flag rule does not touch the register. -/
structure WritesRegister (reg : Loc) (get : State → Byte) (write : State → Byte → State) : Prop where
  get_setZN : ∀ s v w, get ((write s v).setZN w) = v
  cycles    : ∀ s v, (write s v).cycles = s.cycles
  frame     : ∀ s v, keeps [reg] s (write s v)

theorem writesRegister_setA : WritesRegister .a State.a State.setA := ⟨fun _ _ _ => rfl, fun _ _ => rfl, keeps_setA⟩

theorem writesRegister_setX : WritesRegister .x State.x State.setX := ⟨fun _ _ _ => rfl, fun _ _ => rfl, keeps_setX⟩

theorem writesRegister_setY : WritesRegister .y State.y State.setY := ⟨fun _ _ _ => rfl, fun _ _ => rfl, keeps_setY⟩

/-- What a load and a transfer end with, from a state `u` where only the cycle count (and the traffic) has moved: the byte in its
register, Z and N after it, no further charge, and the frame back to the state `s` the instruction began in. -/
theorem WritesRegister.setZN_spec {reg : Loc} {get : State → Byte} {write : State → Byte → State}
    (h : WritesRegister reg get write) {s u : State} (hu : keeps [.cycles] s u) (v : Byte) :
    get ((write u v).setZN v) = v ∧ ((write u v).setZN v).flag .z = decide (v = 0) ∧
      ((write u v).setZN v).flag .n = v.getLsbD 7 ∧ ((write u v).setZN v).cycles = u.cycles ∧
      keeps [reg, .flag .z, .flag .n, .cycles] s ((write u v).setZN v) := by
  have hframe := (hu.trans (h.frame u v)).trans (keeps_setZN (write u v) v)
  exact ⟨h.get_setZN u v v, State.setZN_flag_z _ v, State.setZN_flag_n _ v, h.cycles u v, hframe.mono (by simp)⟩

/-! ## The cost of an operand -/

/-- R107, R108: an index that carries out of the low byte crosses a page. -/
theorem resolveAbsoluteIndexed_crossed (lo hi index : Byte) (s : State) :
    (resolveAbsoluteIndexed lo hi index s).1.crossed.toNat = if 256 ≤ lo.toNat + index.toNat then 1 else 0 := by
  rw [resolveAbsoluteIndexed, latchMemory_crossed, pageCrossed_joinBytes, Bool.toNat, Bool.cond_decide]

/-- R112, as the resolvers mark it: an operand crosses a page exactly where R259's table has its +1. -/
theorem resolved_crossed_toNat (i : Instr) (s : State) : (resolved i s).1.crossed.toNat = crossingExtra i s := by
  unfold resolved crossingExtra
  cases hm : i.mode <;> dsimp only [resolve]
  case implied | immediate | relative => rfl
  case absoluteX => exact resolveAbsoluteIndexed_crossed ..
  case absoluteY => exact resolveAbsoluteIndexed_crossed ..
  case indirectY =>
    have hea : eaOf i s = some (indexed (indirectYBase i.lo s).1 s.y) := by
      rw [eaOf, resolved, hm]
      exact latchMemory_ea ..
    have hcrossed := highByte_bne_zero (indexed (indirectYBase i.lo s).1 s.y)
    rw [resolveIndirectY, latchMemory_crossed, hea, Option.any_some]
    exact (congrArg Bool.toNat hcrossed).trans (Bool.cond_eq_ite ..)
  case zeropage | zeropageX | absolute | indirectX => exact congrArg Bool.toNat (latchMemory_crossed ..)

theorem resolved_cycles (i : Instr) (s : State) :
    (resolved i s).2.cycles = s.cycles + (baseCost i.mode + crossingExtra i s) := by
  obtain ⟨reads, h⟩ := resolve_state i.mode i.lo i.hi s
  calc (resolved i s).2.cycles
    _ = s.cycles + (baseCost i.mode + (resolved i s).1.crossed.toNat) := congrArg State.cycles h
    _ = s.cycles + (baseCost i.mode + crossingExtra i s) := by rw [resolved_crossed_toNat]

/-- R259's table gives the resolver's cost alone, but for the six mnemonics of the stack, whose executors charge more. -/
theorem lookup_cycleTable {i : Instr} (h : i.mnemonic ∉ [.jsr, .rts, .pha, .php, .pla, .plp]) :
    cycleTable.lookup i.opcode = some (baseCost i.mode) := by
  cases i
  case jsr | rts | pha | php | pla | plp => simp [Instr.mnemonic] at h
  all_goals rfl

/-- Only a taken branch costs one more (R177). -/
theorem takenExtra_eq_zero {i : Instr} (h : i.mnemonic ∉ branchTests.map Prod.fst) (s : State) : takenExtra i s = 0 := by
  have hany : branchTests.any (fun b => b.1 == i.mnemonic && s.flag b.2.1 == b.2.2) = false := by
    rw [List.any_eq_false]
    intro b hb hmatch
    rw [Bool.and_eq_true, beq_iff_eq] at hmatch
    exact h (hmatch.1 ▸ List.mem_map_of_mem hb)
  rw [takenExtra, hany]
  rfl

theorem Mnemonic.not_stack_of_usesValue {m : Mnemonic} (h : m.usesValue = true) :
    m ∉ [.jsr, .rts, .pha, .php, .pla, .plp] := by
  revert h
  cases m <;> decide

theorem Mnemonic.not_branch_of_usesValue {m : Mnemonic} (h : m.usesValue = true) : m ∉ branchTests.map Prod.fst := by
  revert h
  cases m <;> decide

/-- An executor that uses the value charges nothing of its own: the cost is the mode's and the page crossing's. -/
theorem cycleCost_of_usesValue {i : Instr} (h : i.mnemonic.usesValue = true) (s : State) :
    cycleCost i s = baseCost i.mode + crossingExtra i s := by
  rw [cycleCost, lookup_cycleTable (Mnemonic.not_stack_of_usesValue h),
    takenExtra_eq_zero (Mnemonic.not_branch_of_usesValue h), Option.getD_some, Nat.add_zero]

/-- R111, R259: the operand's value, got after some reads and the whole cost of the instruction. -/
theorem operandValue_resolved {i : Instr} (h : i.mnemonic.usesValue = true) (s : State) :
    ∃ v reads, operandValue (resolved i s) = some (v, (s.afterReads reads).charge (cycleCost i s)) := by
  obtain ⟨v, reads, n, hv, hn⟩ := operandValue_resolve (Instr.givesValue h) i.lo i.hi s
  have hcost : n = cycleCost i s := by
    rw [cycleCost_of_usesValue h]
    exact Nat.add_left_cancel (hn.symm.trans (resolved_cycles i s))
  exact ⟨v, reads, hcost ▸ hv⟩

/-! ## Loads (R130, R131, R132) -/

/-- An instruction whose executor copies the operand's value into a register and applies the flag rule. -/
theorem WritesRegister.load_spec {reg : Loc} {get : State → Byte} {write : State → Byte → State}
    (h : WritesRegister reg get write) {i : Instr} (huses : i.mnemonic.usesValue = true)
    (hexecute : ∀ r, execute i.mnemonic r = withValue r fun v s => .next ((write s v).setZN v)) (s : State) :
    ∃ t v, operandOf i s = some v ∧ exec i s = .next t ∧ get t = v ∧ t.flag .z = decide (v = 0) ∧
      t.flag .n = v.getLsbD 7 ∧ t.cycles = s.cycles + cycleCost i s ∧ keeps [reg, .flag .z, .flag .n, .cycles] s t := by
  obtain ⟨v, reads, hv⟩ := operandValue_resolved huses s
  have hoperand : operandOf i s = some v := by rw [operandOf, hv]; rfl
  have hexec := (instructionIsResolverThenExecutor i s).trans ((hexecute _).trans (withValue_some hv _))
  have hu := (keeps_afterReads s reads).trans (keeps_charge _ (cycleCost i s))
  exact ⟨_, v, hoperand, hexec, h.setZN_spec hu v⟩

/-- Settles O33: each load's executor writes its own register with the operand's value (`WritesRegister.load_spec`). -/
theorem loadsCopyTheOperand : Obligations.LoadsCopyTheOperand := by
  intro i s
  refine ⟨fun hm => ?lda, fun hm => ?ldx, fun hm => ?ldy⟩
  case lda => exact writesRegister_setA.load_spec (by rw [hm]; rfl) (by rw [hm]; exact fun _ => rfl) s
  case ldx => exact writesRegister_setX.load_spec (by rw [hm]; rfl) (by rw [hm]; exact fun _ => rfl) s
  case ldy => exact writesRegister_setY.load_spec (by rw [hm]; rfl) (by rw [hm]; exact fun _ => rfl) s

/-! ## Transfers (R136 to R139) -/

/-- Settles O35: after the implied mode's charge of 2 each transfer writes its destination with its source. -/
theorem transfersCopyARegister : Obligations.TransfersCopyARegister := by
  intro s
  have hcharge := keeps_charge s 2
  refine ⟨?tax, ?txa, ?tay, ?tya⟩
  case tax => exact ⟨_, rfl, writesRegister_setX.setZN_spec hcharge s.a⟩
  case txa => exact ⟨_, rfl, writesRegister_setA.setZN_spec hcharge s.x⟩
  case tay => exact ⟨_, rfl, writesRegister_setY.setZN_spec hcharge s.a⟩
  case tya => exact ⟨_, rfl, writesRegister_setA.setZN_spec hcharge s.y⟩

end Sys2Proof.Machine
end

section
/-! PROOFS. The increments, AND and ADC (43_alu.md R150 to R153): what an executor of the operand's value runs from, the rule for an
arithmetic result in `A` and four flags, and the instructions from these. -/

namespace Sys2Proof.Machine

/-! ## Executors of the operand's value -/

/-- An instruction whose executor uses the value runs it from a state where only the cycle count (by the whole cost) and the
traffic have moved. -/
theorem exec_of_usesValue {i : Instr} (huses : i.mnemonic.usesValue = true) {k : Byte → State → Result}
    (hexecute : ∀ r, execute i.mnemonic r = withValue r k) (s : State) :
    ∃ v reads, operandOf i s = some v ∧ exec i s = k v ((s.afterReads reads).charge (cycleCost i s)) := by
  obtain ⟨v, reads, hv⟩ := operandValue_resolved huses s
  have hoperand : operandOf i s = some v := by rw [operandOf, hv]; rfl
  exact ⟨v, reads, hoperand, (instructionIsResolverThenExecutor i s).trans ((hexecute _).trans (withValue_some hv k))⟩

theorem keeps_afterReads_charge (s : State) (reads : List Word) (n : Nat) :
    keeps [.cycles] s ((s.afterReads reads).charge n) :=
  (keeps_afterReads s reads).trans (keeps_charge _ n)

/-! ## Arithmetic results -/

theorem State.setFlag_flag (s : State) (f g : Flag) (b : Bool) : (s.setFlag f b).flag g = if g = f then b else s.flag g :=
  getFlag_setFlag s.p f g b

/-- R28: writing a flag changes that flag and nothing else. -/
theorem keeps_setFlag (s : State) (f : Flag) (b : Bool) : keeps [.flag f] s (s.setFlag f b) := by
  intro l hl
  cases l
  case flag g =>
    have hg : g ≠ f := by simpa using hl
    exact (State.setFlag_flag s f g b).trans (if_neg hg)
  case statusBit5 => exact setFlag_bit5 s.p f b
  case memory => exact fun _ => rfl
  all_goals rfl

/-- R153, R154: an arithmetic result goes to `A`, C, Z, N and V, and nowhere else. -/
theorem keeps_setArith (s : State) (result : Byte) (carry overflow : Bool) :
    keeps [.a, .flag .c, .flag .z, .flag .n, .flag .v] s (s.setArith result carry overflow) := by
  have hcarry := keeps_setFlag s .c carry
  have ha := hcarry.trans (keeps_setA _ result)
  have hzn := ha.trans (keeps_setZN _ result)
  have hoverflow := hzn.trans (keeps_setFlag _ .v overflow)
  exact hoverflow.mono (by decide)

theorem State.setArith_flag (s : State) (result : Byte) (carry overflow : Bool) (g : Flag) :
    (s.setArith result carry overflow).flag g =
      if g = .v then overflow else if g = .n then result.getLsbD 7 else if g = .z then result == 0
      else if g = .c then carry else s.flag g := by
  simp only [State.flag_eq, State.setArith_p, getFlag_setFlag]

/-- What ADC and SBC end with, from a state `u` where only the cycle count (and the traffic) has moved: the result in `A`, the four
flags, no further charge, and the frame back to the state `s` the instruction began in. -/
theorem State.setArith_spec {s u : State} (hu : keeps [.cycles] s u) (result : Byte) (carry overflow : Bool) :
    let t := u.setArith result carry overflow
    t.a = result ∧ t.flag .c = carry ∧ t.flag .z = decide (result.toNat = 0) ∧ t.flag .n = decide (128 ≤ result.toNat) ∧
      t.flag .v = overflow ∧ t.cycles = u.cycles ∧
      keeps [.a, .flag .c, .flag .z, .flag .n, .flag .v, .cycles] s t := by
  have hflag := State.setArith_flag u result carry overflow
  have hframe := hu.trans (keeps_setArith u result carry overflow)
  exact ⟨rfl, hflag .c, (hflag .z).trans (byte_beq_zero result), (hflag .n).trans (getLsbD_seven result), hflag .v, rfl,
    hframe.mono (by decide)⟩

/-! ## ADC (R153) -/

/-- The exact sum, as R153 writes it. -/
theorem adcSum_eq (a v : Byte) (carry : Bool) : adcSum a v carry = a.toNat + v.toNat + if carry then 1 else 0 := by
  rw [adcSum, Bool.toNat, Bool.cond_eq_ite]

/-- Settles O38: ADC's executor ends with `setArith` of the sum, whose carry and overflow are R153's (`State.setArith_spec`); the
two forms of V agree by `overflowFormula_eq`. -/
theorem adcAddsWithCarry : Obligations.AdcAddsWithCarry := by
  intro i s hm
  obtain ⟨v, reads, hoperand, hexec⟩ := exec_of_usesValue (i := i) (by rw [hm]; rfl) (by rw [hm]; exact fun _ => rfl) s
  have hu := keeps_afterReads_charge s reads (cycleCost i s)
  obtain ⟨-, hc, hz, hn, hoverflow, hcycles, hframe⟩ := State.setArith_spec hu (adcResult s.a v (s.flag .c))
    (adcCarry s.a v (s.flag .c)) (overflowFormula s.a v (adcResult s.a v (s.flag .c)))
  refine ⟨_, v, hoperand, hexec, ?sum, ?signs, hoverflow, hcycles, hframe⟩
  case sum =>
    rintro r rfl
    rw [adcResult_toNat] at hz hn
    rw [← adcSum_eq]
    exact ⟨adcResult_toNat s.a v (s.flag .c), hc, hz, hn⟩
  case signs => exact hoverflow.trans (overflowFormula_eq _ _ _)

/-! ## AND (R152) -/

/-- Settles O37: AND's executor writes `A` with the bitwise and and applies the flag rule to it. -/
theorem andIsBitwise : Obligations.AndIsBitwise := by
  intro i s hm
  obtain ⟨v, reads, hoperand, hexec⟩ := exec_of_usesValue (i := i) (by rw [hm]; rfl) (by rw [hm]; exact fun _ => rfl) s
  have hu := keeps_afterReads_charge s reads (cycleCost i s)
  obtain ⟨-, hz, hn, hcycles, hframe⟩ := writesRegister_setA.setZN_spec hu (s.a &&& v)
  exact ⟨_, v, hoperand, hexec, fun _ => BitVec.getLsbD_and, hz, hn, hcycles, hframe⟩

/-! ## Increments (R150, R151) -/

/-- A byte wraps to zero exactly from `0xFF`. -/
theorem byte_succ_eq_zero_iff (b : Byte) : b + 1 = 0 ↔ b = 0xFF := by bv_omega

/-- After the implied mode's charge of 2 an increment writes a register with one more than the byte `b` it held. -/
theorem WritesRegister.increment_spec {reg : Loc} {get : State → Byte} {write : State → Byte → State}
    (h : WritesRegister reg get write) (s : State) (b : Byte) :
    let t := (write (s.charge 2) (b + 1)).setZN (b + 1)
    (get t).toNat = (b.toNat + 1) % 256 ∧ t.flag .z = decide (b = 0xFF) ∧ t.flag .n = decide (128 ≤ (get t).toNat) ∧
      t.cycles = s.cycles + 2 ∧ keeps [reg, .flag .z, .flag .n, .cycles] s t := by
  obtain ⟨hget, hz, hn, hcycles, hframe⟩ := h.setZN_spec (keeps_charge s 2) (b + 1)
  dsimp only
  rw [hget]
  exact ⟨BitVec.toNat_add b 1, hz.trans (decide_eq_decide.mpr (byte_succ_eq_zero_iff b)), hn.trans (getLsbD_seven _),
    hcycles, hframe⟩

/-- Settles O36: both executors increment their own register (`WritesRegister.increment_spec`). -/
theorem incrementsWrap : Obligations.IncrementsWrap := by
  intro s
  refine ⟨?inx, ?iny⟩
  case inx => exact ⟨_, rfl, writesRegister_setX.increment_spec s s.x⟩
  case iny => exact ⟨_, rfl, writesRegister_setY.increment_spec s s.y⟩

end Sys2Proof.Machine
end

section
/-! PROOFS. The flag instructions (44_flags_and_branches.md R170 to R176): the implied mode's charge and one flag written. -/

namespace Sys2Proof.Machine

/-- R170 to R176: each of the seven is the implied mode's charge of 2, then its own flag written with its own value. -/
theorem exec_of_mem_flagInstructions {c : Instr × Flag × Bool} (h : c ∈ flagInstructions) (s : State) :
    exec c.1 s = .next ((s.charge 2).setFlag c.2.1 c.2.2) := by
  unfold flagInstructions at h
  fin_cases h <;> rfl

/-- Settles O42: the charge writes the cycle count only (`keeps_charge`) and the flag write its own flag only
(`keeps_setFlag`). -/
theorem flagInstructionsWriteOneFlag : Obligations.FlagInstructionsWriteOneFlag := by
  rintro ⟨i, f, b⟩ hmem s
  have hvalue : ((s.charge 2).setFlag f b).flag f = b := (State.setFlag_flag _ f f b).trans (if_pos rfl)
  have hframe := (keeps_charge s 2).trans (keeps_setFlag (s.charge 2) f b)
  exact ⟨_, exec_of_mem_flagInstructions hmem s, hvalue, rfl, rfl, hframe.mono (by simp)⟩

end Sys2Proof.Machine
end

section
/-! PROOFS. JMP, RTS, PLA and NOP (45_jump_stack_misc.md R191 to R199): the frame of a pull, what two pulls in a row read, and
each instruction as the state its executor answers. -/

namespace Sys2Proof.Machine

/-! ## Frames -/

theorem keeps_setPc (s : State) (w : Word) : keeps [.pc] s (s.setPc w) := by
  intro l hl
  cases l <;> simp_all [Loc.same]

/-- R191: a pull moves `SP` and the traffic only. -/
theorem keeps_pull (s : State) : keeps [.sp] s s.pull.2 := by
  intro l hl
  cases l <;> simp_all [Loc.same]

/-! ## Jump (R192) -/

/-- R192: JMP goes to the address its resolver latched, after the read that `P_EA_READ` says. -/
theorem exec_jmp (lo hi : Byte) (s : State) :
    exec (.jmp lo hi) s = .next
      (((s.afterReads (if s.params.eaRead = .always then [joinBytes hi lo] else [])).charge 4).setPc (joinBytes hi lo)) := by
  have hea : (resolveAbsolute lo hi s).1.ea = some (joinBytes hi lo) := latchMemory_ea ..
  calc exec (.jmp lo hi) s
    _ = withEa (resolveAbsolute lo hi s) (fun ea u => .next (u.setPc ea)) := rfl
    _ = .next ((resolveAbsolute lo hi s).2.setPc (joinBytes hi lo)) := withEa_some hea _
    _ = _ := by rw [resolveAbsolute, latchMemory_state]

/-- Settles O44: `exec_jmp` shows the target, the charge of 4 and the one read; reads move no location, so the frame is that of
the charge and of the write of `PC`. -/
theorem jmpSetsPc : Obligations.JmpSetsPc := by
  intro s lo hi
  have hframe := (keeps_afterReads_charge s (if s.params.eaRead = .always then [joinBytes hi lo] else []) 4).trans
    (keeps_setPc _ (joinBytes hi lo))
  refine ⟨_, exec_jmp lo hi s, joinBytes_toNat hi lo, rfl, fun halways => ?always, fun honUse => ?onUse, hframe.mono (by simp)⟩
  case always =>
    rw [if_pos halways]
    rfl
  case onUse =>
    rw [if_neg (by simp [honUse])]
    exact List.append_nil _

/-! ## Return (R194) -/

/-- R191: a second pull reads the slot after the first one's, once the bus has seen the first read. -/
theorem State.pull_pull_value (s : State) :
    s.pull.2.pull.1 = (s.afterReads [stackAddr (s.sp + 1)]).busByte (stackAddr (s.sp + 2)) := by
  rw [State.pull_value, State.pull_sp, State.pull_eq, State.busByte_setSp, BitVec.add_assoc]
  rfl

theorem State.pull_pull_sp (s : State) : s.pull.2.pull.2.sp = s.sp + 2 := BitVec.add_assoc s.sp 1 1

theorem State.pull_pull_busLog (s : State) :
    s.pull.2.pull.2.busLog =
      s.busLog ++ [.read (stackAddr (s.sp + 1)) s.pull.1, .read (stackAddr (s.sp + 2)) s.pull.2.pull.1] := by
  rw [State.pull_busLog, ← State.pull_value, State.pull_busLog, State.pull_sp, BitVec.add_assoc, List.append_assoc]
  rfl

/-- The return address as a number: one more than the pulled one, modulo 2^16. -/
theorem joinBytes_add_one_toNat (hi lo : Byte) : (joinBytes hi lo + 1).toNat = (lo.toNat + 256 * hi.toNat + 1) % 65536 := by
  rw [BitVec.toNat_add, joinBytes_toNat]
  rfl

/-- Settles O46: RTS is two pulls between the implied mode's charge of 2 and its own of 4, and a write of `PC`. -/
theorem rtsPullsTheReturnAddress : Obligations.RtsPullsTheReturnAddress := by
  intro s
  let u := s.charge 2
  have hpulls := ((keeps_charge s 2).trans (keeps_pull u)).trans (keeps_pull u.pull.2)
  have hframe := (hpulls.trans (keeps_setPc _ (joinBytes u.pull.2.pull.1 u.pull.1 + 1))).trans (keeps_charge _ 4)
  exact ⟨_, stackAddr (s.sp + 1), stackAddr (s.sp + 2), u.pull.1, u.pull.2.pull.1, rfl, stackAddr_toNat _, stackAddr_toNat _,
    rfl, State.pull_pull_value u, joinBytes_add_one_toNat _ _, State.pull_pull_busLog u, State.pull_pull_sp u, rfl,
    hframe.mono (by simp)⟩

/-! ## Pull (R197) -/

/-- Settles O48: PLA is a pull between two charges of 2, the pulled byte going to `A` by the shared flag rule. -/
theorem plaPullsTheAccumulator : Obligations.PlaPullsTheAccumulator := by
  intro s
  let u := s.charge 2
  have hpull := (keeps_charge s 2).trans (keeps_pull u)
  have hwrite := (hpull.trans (keeps_setA _ u.pull.1)).trans (keeps_setZN _ u.pull.1)
  have hframe := hwrite.trans (keeps_charge _ 2)
  have hsp : (s.sp + 1).toNat = (s.sp.toNat + 1) % 256 := BitVec.toNat_add s.sp 1
  have hslot : (stackAddr (s.sp + 1)).toNat = 256 + (s.sp.toNat + 1) % 256 := hsp ▸ stackAddr_toNat _
  exact ⟨_, stackAddr (s.sp + 1), u.pull.1, rfl, hslot, rfl, rfl, rfl, State.setZN_flag_z _ _, State.setZN_flag_n _ _, hsp, rfl,
    hframe.mono (by simp)⟩

/-! ## No operation (R199) -/

/-- Settles O50: NOP's executor answers the state of the implied mode's resolver, which only charges 2. -/
theorem nopOnlyChargesCycles : Obligations.NopOnlyChargesCycles := by
  intro s
  exact ⟨s.charge 2, rfl, rfl⟩

end Sys2Proof.Machine
end

section
/-! PROOFS. The one error of the core (60_exceptions.md R220): an executor whose operand fills the fields it reads completes, a
well-formed table registers only pairs that do, and so a running core's step turns on the table lookup alone. -/

namespace Sys2Proof.Machine

/-! ## Executors that find their fields (R99) -/

theorem withValue_completes {r : Resolved} {k : Byte → State → Result} (h : ∃ v s, operandValue r = some (v, s))
    (hk : ∀ v s, ∃ t, k v s = .next t) : ∃ t, withValue r k = .next t := by
  obtain ⟨v, s, hv⟩ := h
  rw [withValue_some hv]
  exact hk v s

theorem withEa_completes {r : Resolved} {k : Word → State → Result} (h : ∃ ea, r.1.ea = some ea)
    (hk : ∀ ea s, ∃ t, k ea s = .next t) : ∃ t, withEa r k = .next t := by
  obtain ⟨ea, hea⟩ := h
  rw [withEa_some hea]
  exact hk ea r.2

/-- R99: an executor completes when its operand has the fields it reads, whatever these and the state hold. -/
theorem execute_completes {m : Mnemonic} {r : Resolved} (hvalue : m.usesValue = true → ∃ v s, operandValue r = some (v, s))
    (hea : m.usesEa = true → ∃ ea, r.1.ea = some ea) : ∃ t, execute m r = .next t := by
  cases m
  case lda | ldx | ldy | and | adc | sbc => exact withValue_completes (hvalue rfl) fun _ _ => ⟨_, rfl⟩
  case sta | stx | sty | jmp | jsr | bpl | bmi | bvc | bvs | bcc | bcs | bne | beq =>
    exact withEa_completes (hea rfl) fun _ _ => ⟨_, rfl⟩
  all_goals exact ⟨_, rfl⟩

/-- R99: a well-formed descriptor's mode fills what its executor reads. -/
theorem descriptor_wf_iff {d : Descriptor} :
    d.wf = true ↔ (d.mnemonic.usesValue = true → d.mode.givesValue = true) ∧
      (d.mnemonic.usesEa = true → d.mode.givesEa = true) := by
  simp only [Descriptor.wf, Bool.and_eq_true, Bool.or_eq_true, Bool.not_eq_true', Bool.eq_false_iff, ne_eq, imp_iff_not_or]

theorem runDescriptor_completes {d : Descriptor} (hd : d.wf = true) (lo hi : Byte) (s : State) :
    ∃ t, runDescriptor d lo hi s = .next t := by
  obtain ⟨hvalue, hea⟩ := descriptor_wf_iff.mp hd
  refine execute_completes (fun huses => ?value) (fun huses => resolve_ea (hea huses) lo hi s)
  case value =>
    obtain ⟨v, reads, n, hv, -⟩ := operandValue_resolve (hvalue huses) lo hi s
    exact ⟨v, _, hv⟩

theorem runFetched_completes {d : Descriptor} (hd : d.wf = true) (s : State) : ∃ t, runFetched d s = .next t := by
  let o := fetchOperands d.mode.operandBytes s
  obtain ⟨lo, hi, hrun⟩ := runDecoded_eq_runDescriptor d o.lo o.hi o.st
  obtain ⟨u, hu⟩ := runDescriptor_completes hd lo hi o.st
  exact ⟨_, congrArg (finishStep d _ _ _) (hrun.trans hu)⟩

/-! ## What a table registers -/

/-- R34, R99: whatever byte a well-formed table is asked for, the descriptor it answers is well formed. -/
theorem descriptor_wf_of_lookup {t : DecodeTable} (ht : t.wf = true) {op : Byte} {d : Descriptor}
    (h : t.lookup op = some d) : d.wf = true := by
  obtain ⟨hsized, hrows⟩ := Bool.and_eq_true_iff.mp ht
  have hlength := (DecodeTable.sized_iff.mp hsized).1
  have hcolumns := DecodeTable.row_length hsized op
  have hmem : t.getD (op.toNat / 16) [] ∈ t := by
    rw [List.getD_eq_getElem _ _ (by omega : op.toNat / 16 < t.length)]
    exact List.getElem_mem _
  have hentry : some d ∈ t.getD (op.toNat / 16) [] := by
    rw [← h, DecodeTable.lookup, List.getD_eq_getElem _ _ (by omega : op.toNat % 16 < (t.getD (op.toNat / 16) []).length)]
    exact List.getElem_mem _
  exact List.all_eq_true.mp (List.all_eq_true.mp hrows _ hmem) _ hentry

/-! ## The step of a running core -/

theorem step_of_running {s : State} (h : s.halted = none) : step s = stepRunning s := by
  rw [step, h]

/-- R92, R221: a byte without a descriptor raises the fault, in the state past its fetch. -/
theorem step_of_lookup_eq_none {s : State} (hs : s.halted = none) (h : s.params.table.lookup (s.busByte s.pc) = none) :
    step s = raiseInvalidOpcode (s.busByte s.pc) s.beginStep.fetch8.2 := by
  have hlookup : s.beginStep.fetch8.2.params.table.lookup s.beginStep.fetch8.1 = none := h
  rw [step_of_running hs, stepRunning]
  rw [hlookup]
  rfl

/-- R92, R93: a registered byte's descriptor runs in the state past its fetch. -/
theorem step_of_lookup_eq_some {s : State} {d : Descriptor} (hs : s.halted = none)
    (h : s.params.table.lookup (s.busByte s.pc) = some d) : step s = runFetched d s.beginStep.fetch8.2 := by
  have hlookup : s.beginStep.fetch8.2.params.table.lookup s.beginStep.fetch8.1 = some d := h
  rw [step_of_running hs, stepRunning]
  rw [hlookup]

/-- Settles O10: a step that completes looked a descriptor up (`step_eq_next`) and one that faults found none
(`step_eq_invalidOpcode`); conversely a registered descriptor is well formed, so what it runs completes, and an unregistered
byte raises the fault. -/
theorem onlyAnInvalidOpcodeFaults : Obligations.OnlyAnInvalidOpcodeFaults := by
  intro s hs ht
  refine ⟨⟨?registered, ?completes⟩, ⟨?unregistered, ?faults⟩⟩
  case registered =>
    rintro ⟨t, hnext⟩
    obtain ⟨-, d, o, u, hlookup, -⟩ := step_eq_next hnext
    exact Option.ne_none_iff_exists'.mpr ⟨d, hlookup⟩
  case completes =>
    intro hne
    obtain ⟨d, hlookup⟩ := Option.ne_none_iff_exists'.mp hne
    rw [step_of_lookup_eq_some hs hlookup]
    exact runFetched_completes (descriptor_wf_of_lookup ht hlookup) _
  case unregistered =>
    rintro ⟨left, hfault⟩
    obtain ⟨-, -, hlookup, -⟩ := step_eq_invalidOpcode hfault
    exact hlookup
  case faults => exact fun hlookup => ⟨_, step_of_lookup_eq_none hs hlookup⟩

end Sys2Proof.Machine
end

section
/-! PROOFS. The host port, the invariant and the parameters (10_state.md R34, R41, R42): construction, launch and what a step keeps. -/

namespace Sys2Proof.Machine

/-- Settles O3: a step does what `Maintains` says but for the trace line (`step_keeps_inv`). -/
theorem stepKeepsInvariant : Obligations.StepKeepsInvariant := by
  intro s t hs h
  exact step_keeps_inv hs h

/-- Settles O6: the parameters and the debug flag are among what no executor and no resolver changes (`step_maintains`). -/
theorem stepKeepsParameters : Obligations.StepKeepsParameters := by
  intro s t h
  obtain ⟨u, line, hu, rfl⟩ := step_maintains h
  exact ⟨hu.params, hu.debug⟩

/-- Settles O5: the two checks of `launch` are together the invariant (`launch_eq_next_iff`). -/
theorem launchAdmitsExactlyTheInvariant : Obligations.LaunchAdmitsExactlyTheInvariant := by
  intro s t
  exact launch_eq_next_iff

/-- Settles O2: the invariant's four parts on the reset state's own values, its table being the default one. -/
theorem resetMeetsInvariant : Obligations.ResetMeetsInvariant := by
  have htable : DecodeTable.wf defaultTable = true := by decide
  exact ⟨rfl, htable, rfl, reset_mem_wf⟩

/-- Settles O1: the values are construction's own, all seven flags of `0x20` are clear, and the default table is the constructed
one (`defaultTable_eq_construct`). -/
theorem constructionValues : Obligations.ConstructionValues := by
  refine ⟨fun params mem => ⟨_, rfl, ?values⟩, rfl, defaultTable_eq_construct.symm⟩
  case values =>
    have hflags : ∀ f : Flag, (construct params mem).flag f = false := by
      intro f
      show getFlag 0x20 f = false
      cases f <;> decide
    have hbit : (construct params mem).p.getLsbD 5 = true := by
      show (0x20 : Byte).getLsbD 5 = true
      decide
    exact ⟨rfl, rfl, rfl, rfl, rfl, rfl, rfl, rfl, rfl, rfl, rfl, hflags, hbit⟩

end Sys2Proof.Machine
end

section
/-! PROOFS. The decode table, the decoder and the encoder (30_encoding.md R70 to R77). -/

namespace Sys2Proof.Machine

/-! ## An instruction and its bytes -/

/-- R70, R71: an instruction's descriptor and its own operand bytes make it again. -/
theorem assemble_descriptor (i : Instr) : assemble i.descriptor i.lo i.hi = some i := by
  cases i <;> rfl

/-- R71: the operand bytes of an instruction are taken from the head of what follows its opcode byte, and the rest is left. -/
theorem takeOperands_operands (i : Instr) (rest : List Byte) :
    takeOperands i.mode.operandBytes (i.operands ++ rest) = some (i.lo, i.hi, rest) := by
  cases i <;> rfl

theorem operands_eq_take (i : Instr) : i.operands = [i.lo, i.hi].take i.mode.operandBytes := by
  obtain ⟨-, h⟩ := assemble_some (assemble_descriptor i)
  exact h

/-- Settles O17: the registered opcode byte selects the descriptor, whose mode takes the operand bytes and leaves the rest
(`takeOperands_operands`), and these make the instruction again (`assemble_descriptor`). -/
theorem decodeEncodeRoundTrip : Obligations.DecodeEncodeRoundTrip := by
  intro t i rest hwf
  have hlookup : t.lookup i.opcode = some i.descriptor := hwf
  have htake : takeOperands i.descriptor.mode.operandBytes (i.operands ++ rest) = some (i.lo, i.hi, rest) :=
    takeOperands_operands i rest
  simp only [encode, List.cons_append, decode, hlookup, htake, assemble_descriptor]

/-! ## The default table -/

/-- R75: every instruction's opcode byte is registered for it. -/
theorem wf_defaultTable (i : Instr) : i.wf defaultTable := by
  cases i <;> simp only [Instr.wf, Instr.opcode, Instr.descriptor, Instr.mode, Instr.mnemonic] <;> decide

/-- The opcode byte is the descriptor's alone, whatever the operands. -/
theorem opcode_of_descriptor (i : Instr) : (assemble i.descriptor 0 0).map Instr.opcode = some i.opcode := by
  cases i <;> rfl

/-- R75: a registered byte is the opcode byte of the instructions its descriptor makes. -/
theorem opcode_of_lookup_defaultTable : ∀ op : Byte, ∀ d ∈ defaultTable.lookup op,
    (assemble d 0 0).map Instr.opcode = some op := by
  decide

/-- Settles O18: every opcode byte is registered (`wf_defaultTable`); the head byte of a decoding is the opcode byte of the
instruction, as no descriptor is registered twice, and its operand bytes and the rest follow. -/
theorem encodeDecodeRoundTrip : Obligations.EncodeDecodeRoundTrip := by
  refine ⟨wf_defaultTable, fun bytes rest i h => ?bytes⟩
  case bytes =>
    obtain ⟨op, more, rfl, hlookup, htake⟩ := decode_eq_ok h
    have hop : i.opcode = op :=
      Option.some.inj ((opcode_of_descriptor i).symm.trans (opcode_of_lookup_defaultTable op _ hlookup))
    obtain ⟨hmore, -, -⟩ := takeOperands_some htake
    rw [hmore, ← operands_eq_take, ← hop]
    rfl

/-- The bytes from 0x00 up. -/
def allBytes : List Byte := (List.range 256).map (BitVec.ofNat 8)

theorem mem_allBytes (op : Byte) : op ∈ allBytes :=
  List.mem_map.mpr ⟨op.toNat, List.mem_range.mpr op.isLt, BitVec.ofNat_toNat 8 op⟩

/-- R77: going through the bytes from 0x00 up, those without a descriptor are the rule's list in its own order. -/
theorem filter_lookup_defaultTable : allBytes.filter (fun op => defaultTable.lookup op = none) = invalidBytes := by
  decide +kernel

/-- Settles O15: the rule's list is what a pass over all bytes finds without a descriptor (`filter_lookup_defaultTable`). -/
theorem invalidBytesAreTheListed : Obligations.InvalidBytesAreTheListed := by
  refine ⟨rfl, fun op => ?mem⟩
  case mem =>
    rw [← filter_lookup_defaultTable, List.mem_filter, decide_eq_true_iff]
    exact (and_iff_right (mem_allBytes op)).symm

/-- Settles O19: each word is decoded through the default table. -/
theorem sampleWordsDecode : Obligations.SampleWordsDecode := by
  unfold Obligations.SampleWordsDecode
  decide

/-! ## Registration -/

/-- Settles O16: the empty table's rows hold the invalid sentinel everywhere, and one more registration is one more `register`,
which binds its byte and no other (`DecodeTable.lookup_register`). -/
theorem lastRegistrationWins : Obligations.LastRegistrationWins := by
  refine ⟨?empty, fun rs op d => ?register⟩
  case empty =>
    intro op
    show DecodeTable.empty.lookup op = none
    unfold DecodeTable.lookup DecodeTable.empty
    rw [List.getD_replicate _ (by omega : op.toNat / 16 < 16), List.getD_replicate _ (Nat.mod_lt _ (by decide))]
  case register =>
    have hregister := DecodeTable.lookup_register (DecodeTable.sized_construct rs) op (d := d)
    rw [DecodeTable.construct_append]
    exact ⟨(hregister op).trans (if_pos rfl), fun op' hne => (hregister op').trans (if_neg hne)⟩

/-! ## The trace line -/

/-- Settles O60: the ten lines, one for each mode, computed. -/
theorem traceRendersEachMode : Obligations.TraceRendersEachMode := by
  unfold Obligations.TraceRendersEachMode
  decide

end Sys2Proof.Machine
end

section
/-! PROOFS. The sequencer (40_execution_engine.md R90 to R98), the fault (60_exceptions.md R220 to R230), and a run up to the host's
stop condition (70_reset_and_hazards.md R255). -/

namespace Sys2Proof.Machine

/-! ## Completion and the fault -/

theorem descriptor_wf (i : Instr) : i.descriptor.wf = true := by
  cases i <;> rfl

/-- Settles O11: an instruction runs as its descriptor does, which is one of the 82 and so well formed. -/
theorem everyInstructionCompletes : Obligations.EveryInstructionCompletes := by
  intro i s
  rw [exec_eq_runDescriptor]
  exact runDescriptor_completes (descriptor_wf i) _ _ s

/-- Settles O9: `step` looks at `halted` first. -/
theorem haltedCoreTakesNoStep : Obligations.HaltedCoreTakesNoStep := by
  intro s reason hs
  have hfault : step s = .fault (.coreHalted reason) := by rw [step, hs]
  exact ⟨hfault, fun t => by simp [hfault]⟩

/-- Settles O8: the fault is raised in the state past the opcode fetch (`step_of_lookup_eq_none`), which is one read at `PC`. -/
theorem invalidOpcodeHaltsTheCore : Obligations.InvalidOpcodeHaltsTheCore := by
  intro s hs hlookup
  refine ⟨_, step_of_lookup_eq_none hs hlookup, rfl, rfl, rfl, rfl, rfl, ?frame⟩
  case frame =>
    intro l hl
    cases l
    case pc | halted | trace => simp at hl
    case memory => exact fun _ => rfl
    all_goals rfl

/-! ## A decoded instruction -/

/-- R91, R93: the operand bytes a step fetches are those the decoder takes from the bytes at `PC + 1` and `PC + 2`. -/
theorem fetchOperands_of_takeOperands {m : Mode} {s : State} {lo hi : Byte} {rest : List Byte}
    (h : takeOperands m.operandBytes
      [(s.afterReads [s.pc]).busByte (s.pc + 1), (s.afterReads [s.pc, s.pc + 1]).busByte (s.pc + 2)] = some (lo, hi, rest)) :
    fetchOperands m.operandBytes s.beginStep.fetch8.2 = ⟨lo, hi, s.afterFetch m.operandBytes⟩ := by
  have hst := fetchOperands_afterFetch m s
  have hpc : s.pc + 1 + 1 = s.pc + 2 := BitVec.add_assoc s.pc 1 1
  match hn : m.operandBytes, m.operandBytes_le with
  | 0, _ | 1, _ =>
    rw [hn] at h hst
    cases h
    rw [← hst]
    rfl
  | 2, _ =>
    rw [hn] at h hst
    cases h
    rw [← hst, ← hpc]
    rfl

theorem finishStep_next (d : Descriptor) (lo hi : Byte) (pcAfter : Word) (t : State) :
    finishStep d lo hi pcAfter (.next t) =
      .next { t with trace := if t.debug then some (renderLine d lo hi pcAfter) else none } := rfl

/-- Settles O7: the opcode byte selects the instruction's descriptor (`decode_eq_ok`), its operand bytes are fetched
(`fetchOperands_of_takeOperands`) and make the instruction, which completes (O11). -/
theorem stepRunsDecodedInstruction : Obligations.StepRunsDecodedInstruction := by
  intro s i rest hs hdecode
  obtain ⟨op, more, hbytes, hlookup, htake⟩ := decode_eq_ok hdecode
  obtain ⟨rfl, rfl⟩ := List.cons.inj hbytes
  obtain ⟨t, ht⟩ := everyInstructionCompletes i (s.afterFetch i.mode.operandBytes)
  have hfetch := fetchOperands_of_takeOperands htake
  have hrun : runDecoded i.descriptor i.lo i.hi (s.afterFetch i.mode.operandBytes) = .next t := by
    rw [runDecoded, assemble_descriptor]
    exact ht
  refine ⟨t, ht, ?step⟩
  case step =>
    rw [step_of_lookup_eq_some hs hlookup, runFetched]
    show finishStep i.descriptor (fetchOperands i.mode.operandBytes _).lo _ _ _ = _
    rw [show i.descriptor.mode = i.mode from rfl, hfetch, hrun, finishStep_next, Nat.add_comm 1]
    rfl

/-! ## Runs -/

theorem run_succ_of_next {M : Host.Core} {n : Nat} {s u : M.State} (h : M.step s = .next u) :
    M.run (n + 1) s = M.run n u := by
  rw [Host.Core.run, h]

section
variable {stop : State → Bool} {n : Nat} {s u : State}

theorem core_run_succ_of_next (h : step s = .next u) : core.run (n + 1) s = core.run n u :=
  run_succ_of_next (M := core) h

/-- A run cannot go past a step that does not complete. -/
theorem core_run_succ_ne_next (h : ∀ u, step s ≠ .next u) (t : State) : core.run (n + 1) s ≠ .next t := by
  intro hrun
  obtain ⟨u, hu, -⟩ := run_succ_eq_next hrun
  exact h u hu

theorem core_run_zero (s t : State) : core.run 0 s = .next t ↔ s = t :=
  ⟨Host.Outcome.next.inj, congrArg _⟩

theorem runUntil_succ_of_next (h : step s = .next u) :
    runUntil stop (n + 1) s = if stop u then .stopped u else runUntil stop n u := by
  rw [runUntil, h]

theorem runUntil_succ_of_fault {f : Fault} (h : step s = .fault f) : runUntil stop (n + 1) s = .faulted f := by
  rw [runUntil, h]

theorem runUntil_succ_of_refused {r : Refusal} (h : step s = .refused r) : runUntil stop (n + 1) s = .refused r := by
  rw [runUntil, h]

/-- The stop condition held after none of the first `k` steps. -/
def NotStoppedBefore (stop : State → Bool) (k : Nat) (s : State) : Prop :=
  ∀ j u, j < k → core.run (j + 1) s = .next u → stop u = false

theorem notStoppedBefore_zero : NotStoppedBefore stop 0 s := fun _ _ hj => absurd hj (Nat.not_lt_zero _)

/-- After a step that completes, the first `k + 1` steps are that one and the first `k` of the rest. -/
theorem notStoppedBefore_succ (h : step s = .next u) :
    NotStoppedBefore stop (n + 1) s ↔ stop u = false ∧ NotStoppedBefore stop n u := by
  constructor
  · intro hstop
    refine ⟨hstop 0 u (Nat.succ_pos n) (core_run_succ_of_next h), fun j v hj hrun => ?_⟩
    exact hstop (j + 1) v (Nat.succ_lt_succ hj) ((core_run_succ_of_next h).trans hrun)
  · rintro ⟨hu, hrest⟩ j v hj hrun
    rw [core_run_succ_of_next h] at hrun
    cases j with
    | zero => exact Host.Outcome.next.inj hrun ▸ hu
    | succ j => exact hrest j v (Nat.lt_of_succ_lt_succ hj) hrun

end

/-- R255: the run stops in the first state after a step in which the condition holds. -/
theorem runUntil_eq_stopped_iff {stop : State → Bool} {n : Nat} {s t : State} :
    runUntil stop n s = .stopped t ↔
      stop t = true ∧ ∃ k < n, core.run (k + 1) s = .next t ∧ NotStoppedBefore stop k s := by
  induction n generalizing s with
  | zero => simp [runUntil]
  | succ n ih =>
    cases hstep : step s with
    | next u =>
      simp only [runUntil_succ_of_next hstep, Nat.exists_lt_succ_left, core_run_succ_of_next hstep, core_run_zero,
        notStoppedBefore_succ hstep, notStoppedBefore_zero, and_true]
      cases hu : stop u
      · simp only [Bool.false_eq_true, if_false, ih, true_and]
        have hne : stop t = true → u ≠ t := by rintro ht rfl; simp [hu] at ht
        constructor
        · exact fun ⟨ht, hrest⟩ => ⟨ht, .inr hrest⟩
        · exact fun ⟨ht, hrest⟩ => ⟨ht, hrest.resolve_left (hne ht)⟩
      · simp only [if_true, Bool.true_eq_false, false_and, and_false, exists_false, or_false, RunEnd.stopped.injEq]
        exact ⟨fun h => ⟨h ▸ hu, h⟩, And.right⟩
    | fault f => simp [runUntil_succ_of_fault hstep, core_run_succ_ne_next, hstep]
    | refused r => simp [runUntil_succ_of_refused hstep, core_run_succ_ne_next, hstep]

/-- R255: the run has not ended when all its steps have completed and the condition held after none. -/
theorem runUntil_eq_running_iff {stop : State → Bool} {n : Nat} {s t : State} :
    runUntil stop n s = .running t ↔ core.run n s = .next t ∧ NotStoppedBefore stop n s := by
  induction n generalizing s with
  | zero => simp [runUntil, core_run_zero, notStoppedBefore_zero]
  | succ n ih =>
    cases hstep : step s with
    | next u =>
      simp only [runUntil_succ_of_next hstep, core_run_succ_of_next hstep, notStoppedBefore_succ hstep]
      cases hu : stop u <;> simp [ih]
    | fault f => simp [runUntil_succ_of_fault hstep, core_run_succ_ne_next, hstep]
    | refused r => simp [runUntil_succ_of_refused hstep, core_run_succ_ne_next, hstep]

/-- The run's step `k + 1` faults, after `k` steps that completed and after none of which the stop condition held. -/
def FaultsAt (stop : State → Bool) (f : Fault) (k : Nat) (s : State) : Prop :=
  ∃ u : State, core.run k s = .next u ∧ step u = .fault f ∧ NotStoppedBefore stop k s

theorem faultsAt_zero {stop : State → Bool} {f : Fault} {s : State} : FaultsAt stop f 0 s ↔ step s = .fault f := by
  constructor
  · rintro ⟨u, hrun, hfault, -⟩
    exact (core_run_zero s u).mp hrun ▸ hfault
  · exact fun hfault => ⟨s, rfl, hfault, notStoppedBefore_zero⟩

theorem faultsAt_succ {stop : State → Bool} {f : Fault} {k : Nat} {s u : State} (h : step s = .next u) :
    FaultsAt stop f (k + 1) s ↔ stop u = false ∧ FaultsAt stop f k u := by
  unfold FaultsAt
  rw [core_run_succ_of_next h, notStoppedBefore_succ h]
  exact ⟨fun ⟨v, hrun, hfault, hu, hrest⟩ => ⟨hu, v, hrun, hfault, hrest⟩,
    fun ⟨hu, v, hrun, hfault, hrest⟩ => ⟨v, hrun, hfault, hu, hrest⟩⟩

theorem not_faultsAt_succ {stop : State → Bool} {f : Fault} {k : Nat} {s : State} (h : ∀ u, step s ≠ .next u) :
    ¬ FaultsAt stop f (k + 1) s :=
  fun ⟨v, hrun, _⟩ => core_run_succ_ne_next h v hrun

/-- R255: the run has faulted when a step faults before the condition has held. -/
theorem runUntil_eq_faulted_iff {stop : State → Bool} {n : Nat} {s : State} {f : Fault} :
    runUntil stop n s = .faulted f ↔ ∃ k < n, FaultsAt stop f k s := by
  induction n generalizing s with
  | zero => simp [runUntil]
  | succ n ih =>
    rw [Nat.exists_lt_succ_left, faultsAt_zero]
    cases hstep : step s with
    | next u =>
      simp only [runUntil_succ_of_next hstep, faultsAt_succ hstep]
      cases hu : stop u <;> simp [ih]
    | fault g => simp [runUntil_succ_of_fault hstep, not_faultsAt_succ, hstep]
    | refused r => simp [runUntil_succ_of_refused hstep, not_faultsAt_succ, hstep]

/-- R255: a run that faults for one bound on its steps stops for none. -/
theorem runUntil_ne_stopped_of_faulted {stop : State → Bool} {n : Nat} {s : State} {f : Fault}
    (h : runUntil stop n s = .faulted f) (m : Nat) (t : State) : runUntil stop m s ≠ .stopped t := by
  induction n generalizing m s with
  | zero => simp [runUntil] at h
  | succ n ih =>
    cases m with
    | zero => simp [runUntil]
    | succ m =>
      cases hstep : step s with
      | next u =>
        rw [runUntil_succ_of_next hstep] at h ⊢
        cases hu : stop u
        · simp only [hu] at h ⊢
          exact ih h m
        · simp [hu] at h
      | fault g => simp [runUntil_succ_of_fault hstep]
      | refused r => simp [runUntil_succ_of_refused hstep]

/-- Settles O14: the three endings, each by induction on the bound with the outcome of the first step. -/
theorem runStopsWhereTheHostStops : Obligations.RunStopsWhereTheHostStops := by
  intro stop n s
  refine ⟨fun t => runUntil_eq_stopped_iff, fun t => runUntil_eq_running_iff, fun f => ?faulted,
    fun f hf => runUntil_ne_stopped_of_faulted hf⟩
  case faulted =>
    rw [runUntil_eq_faulted_iff]
    exact ⟨fun ⟨k, hk, u, hrest⟩ => ⟨k, u, hk, hrest⟩, fun ⟨k, u, hk, hrest⟩ => ⟨k, hk, u, hrest⟩⟩

end Sys2Proof.Machine
end

section
/-! PROOFS. The bus port (20_memory.md R50 to R58): a read, a write and the places they go to. -/

namespace Sys2Proof.Machine

/-- Settles O20: on the plain bus the address's own cell takes the write (`State.read_memAfterWrite`). -/
theorem busWriteSetsOneByte : Obligations.BusWriteSetsOneByte := by
  intro s addr v hbus hmem
  obtain ⟨-, hplace⟩ := hbus addr
  have hread := State.read_memAfterWrite hmem addr v
  refine ⟨(hread addr.toNat).trans (if_pos hplace), fun c hc => (hread c).trans (if_neg ?_)⟩
  rw [hplace]
  exact fun h => hc (List.mem_singleton.mpr (Place.cell.inj h).symm)

/-- Settles O21: on the plain bus the address's own cell answers, and a read moves the traffic only. -/
theorem busReadReturnsTheByte : Obligations.BusReadReturnsTheByte := by
  intro s addr hbus
  have hbyte : s.busByte addr = s.mem.read addr.toNat := State.busByte_of_cell (hbus addr).1
  rw [← hbyte]
  exact ⟨rfl, keeps_afterReads s [addr], rfl⟩

/-- Settles O22: the kinds of place by `busByteAfter` and `memAfterWrite`, which decide on them; the history grows by every
transaction. -/
theorem busWindowsOutsideRam : Obligations.BusWindowsOutsideRam := by
  intro s addr v
  refine ⟨fun c h => State.busByte_of_cell h, fun b h => ?nothing, fun k h => ?device,
    fun c h => State.memAfterWrite_cell h v, fun h => State.memAfterWrite_not_cell h v, rfl, rfl⟩
  case nothing => rw [State.busRead_value, State.busByte, State.busByteAfter, h]
  case device => rw [State.busRead_value, State.busByte, State.busByteAfter, h]

end Sys2Proof.Machine
end

section
/-! PROOFS. The resolvers of the absolute and indirect modes (41_addressing_modes.md R106 to R114), what any resolver does with the
fetch of its operand (R100), and the value an executor finds (R111). -/

namespace Sys2Proof.Machine

/-! ## Any resolver (R100) -/

/-- Settles O26: the fetches read and move `PC` (`fetchOperands_state`), the resolver reads and charges (`resolve_state`), and only
three modes mark a crossing (`resolve_crossed`). -/
theorem resolversOnlyReadTheBus : Obligations.ResolversOnlyReadTheBus := by
  intro m s
  let o := fetchOperands m.operandBytes s
  obtain ⟨fetches, hfetch⟩ := fetchOperands_state m s
  obtain ⟨reads, hresolve⟩ := resolve_state m o.lo o.hi o.st
  refine ⟨fetches ++ reads, ?state, resolve_crossed⟩
  case state =>
    have hstate : (fetchAndResolve m s).2 = ((((s.afterReads fetches).setPc (s.pc + BitVec.ofNat 16 m.operandBytes)).afterReads
        reads).charge (baseCost m + (fetchAndResolve m s).1.crossed.toNat)) := hfetch ▸ hresolve
    rw [hstate, State.setPc_afterReads, State.afterReads_append]
    simp only [State.charge, State.setPc, State.afterReads_cycles, Nat.add_assoc]

/-! ## The absolute modes (R106, R107, R108) -/

/-- A mode of two operand bytes resolves from the state past them. -/
theorem fetchAndResolve_twoBytes {m : Mode} (hm : m.operandBytes = 2) (s : State) :
    fetchAndResolve m s = resolve m (s.busByte s.pc) ((s.afterReads [s.pc]).busByte (s.pc + 1))
      ((s.afterReads [s.pc, s.pc + 1]).setPc (s.pc + 2)) := by
  simp only [fetchAndResolve, hm, fetchOperands_two]

/-- A mode of two operand bytes resolves to the address whose byte it latches after its fetches. -/
theorem resolvesTo_of_twoBytes {m : Mode} (hm : m.operandBytes = 2) {s : State} {ea : Word} {crossed : Bool} {cost : Nat}
    (h : ∀ u : State, u.x = s.x → u.y = s.y →
      resolve m (s.busByte s.pc) ((s.afterReads [s.pc]).busByte (s.pc + 1)) u = latchMemory ea crossed cost u) :
    resolvesTo m s [] ea crossed cost := by
  apply resolvesTo_of_latchMemory
  rw [fetchAndResolve_twoBytes hm, h ((s.afterReads [s.pc, s.pc + 1]).setPc (s.pc + 2)) rfl rfl]
  simp [hm, List.range_succ]

/-- R107, R108: an absolute mode with an index latches at the sum, crossing a page when the index carries out of the low byte. -/
theorem resolveAbsoluteIndexed_eq (lo hi index : Byte) (s : State) :
    resolveAbsoluteIndexed lo hi index s = latchMemory (indexed (joinBytes hi lo) index)
      (decide (256 ≤ lo.toNat + index.toNat)) (if 256 ≤ lo.toNat + index.toNat then 5 else 4) s := by
  simp only [resolveAbsoluteIndexed, pageCrossed_joinBytes]
  by_cases h : 256 ≤ lo.toNat + index.toNat <;> simp [h]

/-- Settles O29: after their two fetches the three modes latch the byte at the operand, or at the indexed sum
(`resolveAbsoluteIndexed_eq`). -/
theorem resolveAbsoluteModes : Obligations.ResolveAbsoluteModes := by
  rintro s lo hi rfl rfl
  refine ⟨_, _, _, joinBytes_toNat _ _, ?absolute, indexed_joinBytes_toNat _ _ _, ?absoluteX, indexed_joinBytes_toNat _ _ _,
    ?absoluteY⟩
  case absolute => exact resolvesTo_of_twoBytes rfl fun _ _ _ => rfl
  case absoluteX =>
    refine resolvesTo_of_twoBytes rfl fun u hx _ => ?_
    rw [← hx]
    exact resolveAbsoluteIndexed_eq _ _ _ _
  case absoluteY =>
    refine resolvesTo_of_twoBytes rfl fun u _ hy => ?_
    rw [← hy]
    exact resolveAbsoluteIndexed_eq _ _ _ _

/-! ## The indirect modes (R109, R110, R113, R114) -/

/-- A mode of one operand byte resolves to the address whose byte it latches after its fetch and its pointer reads. -/
theorem resolvesTo_of_pointers {m : Mode} (hm : m.operandBytes = 1) {s : State} {pointers : List Word} {ea : Word}
    {crossed : Bool} {cost : Nat}
    (h : resolve m (s.busByte s.pc) 0 ((s.afterReads [s.pc]).setPc (s.pc + 1)) =
      latchMemory ea crossed cost (((s.afterReads [s.pc]).setPc (s.pc + 1)).afterReads pointers)) :
    resolvesTo m s pointers ea crossed cost := by
  apply resolvesTo_of_latchMemory
  rw [fetchAndResolve_oneByte hm, h]
  simp [hm, State.setPc_afterReads, State.afterReads_append]

/-- The high byte of (indirect,X) after the operand's fetch: zero, or drawn by the history. -/
theorem State.indxHighByte_eq (s : State) :
    (s.params.indxHigh = .zero → s.indxHighByte = 0) ∧
    (s.params.indxHigh = .draw → s.indxHighByte = Config.indxHighByte s.history) := by
  unfold State.indxHighByte
  constructor <;> intro h <;> rw [h]

/-- Settles O30: the mode latches at the high byte of `P_INDX_HIGH` joined with the one pointer byte. -/
theorem Proofs.resolveIndirectX : Obligations.ResolveIndirectX := by
  rintro s op8 rfl
  let u := (s.afterReads [s.pc]).setPc (s.pc + 1)
  let ptr := zeropageSum (s.busByte s.pc) s.x
  have hea := joinBytes_toNat u.indxHighByte (u.busByte ptr)
  obtain ⟨hzero, hdraw⟩ := State.indxHighByte_eq u
  refine ⟨ptr, joinBytes u.indxHighByte (u.busByte ptr), zeropageSum_toNat _ _, resolvesTo_of_pointers rfl rfl,
    fun h => ?zero, fun h => ?draw⟩
  case zero =>
    rw [hea, hzero h]
    rfl
  case draw =>
    rw [hea, hdraw h]
    exact Nat.add_comm _ _

/-- R110: (indirect),Y latches at the base plus `Y`, the crossing being that the sum leaves the zero page. -/
theorem resolveIndirectY_eq (op8 : Byte) (s : State) :
    resolveIndirectY op8 s = latchMemory (indexed (indirectYBase op8 s).1 s.y)
      (decide (256 ≤ (indexed (indirectYBase op8 s).1 s.y).toNat))
      (if 256 ≤ (indexed (indirectYBase op8 s).1 s.y).toNat then 3 else 2) (indirectYBase op8 s).2 := by
  have hcrossed : (highByte (indexed (indirectYBase op8 s).1 s.y) != 0) = _ := highByte_bne_zero _
  simp only [resolveIndirectY, hcrossed]
  by_cases h : 256 ≤ (indexed (indirectYBase op8 s).1 s.y).toNat <;> simp [h]

/-- R110: (indirect),Y resolves to the sum of its base and `Y`, after the pointer reads that give the base. -/
theorem resolvesTo_indirectY {s : State} {base : Word} {pointers : List Word}
    (h : indirectYBase (s.busByte s.pc) ((s.afterReads [s.pc]).setPc (s.pc + 1)) =
      (base, ((s.afterReads [s.pc]).setPc (s.pc + 1)).afterReads pointers)) :
    resolvesTo .indirectY s pointers (indexed base s.y) (decide (256 ≤ (indexed base s.y).toNat))
      (if 256 ≤ (indexed base s.y).toNat then 3 else 2) := by
  apply resolvesTo_of_pointers rfl
  have hresolve := resolveIndirectY_eq (s.busByte s.pc) ((s.afterReads [s.pc]).setPc (s.pc + 1))
  rw [h] at hresolve
  exact hresolve

/-- Settles O31: the base is what `indirectYBase_eq` reads under each `P_INDY_PTR`, and the mode resolves to its sum with `Y`. -/
theorem Proofs.resolveIndirectY : Obligations.ResolveIndirectY := by
  rintro s op8 rfl
  let u := (s.afterReads [s.pc]).setPc (s.pc + 1)
  let p₀ := zext16 (s.busByte s.pc)
  let p₁ := zext16 (s.busByte s.pc + 1)
  have hp₁ : p₁.toNat = ((s.busByte s.pc).toNat + 1) % 256 := (zext16_toNat _).trans (BitVec.toNat_add _ 1)
  have hbase := indirectYBase_eq (s.busByte s.pc) u
  cases hptr : s.params.indyPtr
  case one =>
    rw [show u.params.indyPtr = .one from hptr] at hbase
    refine ⟨p₀, p₁, indexed (zext16 (u.busByte p₀)) s.y, zext16_toNat _, hp₁, fun _ => ⟨?sum, resolvesTo_indirectY hbase⟩, nofun⟩
    case sum =>
      have hlt : (zext16 (u.busByte p₀)).toNat + s.y.toNat < 65536 := by
        rw [zext16_toNat]
        omega
      rw [indexed, BitVec.toNat_add, zext16_toNat s.y, Nat.mod_eq_of_lt hlt, zext16_toNat]
      rfl
  case two =>
    rw [show u.params.indyPtr = .two from hptr] at hbase
    refine ⟨p₀, p₁, indexed (joinBytes ((u.afterReads [p₀]).busByte p₁) (u.busByte p₀)) s.y, zext16_toNat _, hp₁, nofun,
      fun _ => ⟨?sum, resolvesTo_indirectY hbase⟩⟩
    case sum =>
      rw [indexed_joinBytes_toNat, State.setPc_afterReads, State.afterReads_append]
      rfl

/-! ## The operand's value (R111) -/

/-- An instruction whose executor uses the value is in immediate mode or in a memory mode. -/
theorem Instr.memoryMode_of_usesValue {i : Instr} (h : i.mnemonic.usesValue = true) (hm : i.mode ≠ .immediate) :
    isMemoryMode i.mode = true := by
  cases i <;> simp_all [Instr.mnemonic, Instr.mode, Mnemonic.usesValue, isMemoryMode]

theorem mem_loads_iff_usesValue (m : Mnemonic) : m ∈ [.lda, .ldx, .ldy, .and, .adc, .sbc] ↔ m.usesValue = true := by
  cases m <;> decide

/-- Settles O32: immediate mode hands its byte on; a memory mode latches after its pointer reads (`resolved_memory`), and the byte
there is the value whatever `P_EA_READ` says (`operandValue_latchMemory`). -/
theorem operandValueIsTheByteAtTheAddress : Obligations.OperandValueIsTheByteAtTheAddress := by
  intro i s hm
  have huses := (mem_loads_iff_usesValue i.mnemonic).mp hm
  by_cases himm : i.mode = .immediate
  case pos =>
    refine .inl ⟨himm, ?_⟩
    rw [operandOf, resolved, himm]
    rfl
  case neg =>
    have hmem := Instr.memoryMode_of_usesValue huses himm
    obtain ⟨ea, crossed, cost, h⟩ := resolved_memory hmem s
    refine .inr ⟨hmem, ea, ?ea, ?value⟩
    case ea => rw [eaOf, h, latchMemory_ea]
    case value => rw [operandOf, h, operandValue_latchMemory, Option.map_some]

end Sys2Proof.Machine
end

section
/-! PROOFS. What each executor may write, by mnemonic, and from it the writers of the registers, the flags and `PC` (10_state.md R21
to R27); the cycle cost of every instruction (70_reset_and_hazards.md R259). -/

namespace Sys2Proof.Machine

/-! ## Frames -/

/-- A bus write moves memory and the traffic only. -/
theorem keeps_busWrite (s : State) (addr : Word) (v : Byte) : keeps [.memory] s (s.busWrite addr v) := by
  intro l hl
  cases l <;> simp_all [Loc.same]

theorem keeps_setSp (s : State) (v : Byte) : keeps [.sp] s (s.setSp v) := by
  intro l hl
  cases l <;> simp_all [Loc.same]

/-- R190: a push moves memory, `SP` and the traffic only. -/
theorem keeps_push (s : State) (v : Byte) : keeps [.memory, .sp] s (s.push v) :=
  (keeps_busWrite s (stackAddr s.sp) v).trans (keeps_setSp _ (s.sp - 1))

theorem keeps_setP (s : State) (v : Byte) :
    keeps [.statusBit5, .flag .c, .flag .z, .flag .i, .flag .d, .flag .b, .flag .v, .flag .n] s (s.setP v) := by
  intro l hl
  cases l
  case flag f => cases f <;> simp at hl
  case statusBit5 => simp at hl
  case memory => exact fun _ => rfl
  all_goals rfl

theorem keeps_resolve (m : Mode) (lo hi : Byte) (s : State) : keeps [.cycles] s (resolve m lo hi s).2 := by
  obtain ⟨reads, h⟩ := resolve_state m lo hi s
  rw [h]
  exact keeps_afterReads_charge s reads _

/-! ## What an executor writes -/

/-- The locations an executor may write, beside the cycle count. -/
def writtenBy : Mnemonic → List Loc
  | .lda | .and | .txa | .tya => [.a, .flag .z, .flag .n]
  | .ldx | .tax | .inx => [.x, .flag .z, .flag .n]
  | .ldy | .tay | .iny => [.y, .flag .z, .flag .n]
  | .adc | .sbc => [.a, .flag .c, .flag .z, .flag .n, .flag .v]
  | .clc | .sec => [.flag .c]
  | .cli | .sei => [.flag .i]
  | .clv => [.flag .v]
  | .cld | .sed => [.flag .d]
  | .sta | .stx | .sty => [.memory]
  | .bpl | .bmi | .bvc | .bvs | .bcc | .bcs | .bne | .beq | .jmp => [.pc]
  | .jsr => [.memory, .sp, .pc]
  | .rts => [.sp, .pc]
  | .pha | .php => [.memory, .sp]
  | .pla => [.a, .sp, .flag .z, .flag .n]
  | .plp => [.sp, .statusBit5, .flag .c, .flag .z, .flag .i, .flag .d, .flag .b, .flag .v, .flag .n]
  | .nop => []

section
variable {s t u : State} {r : Resolved}

/-- A register write with the flag rule, from a state `u` where only the cycle count (and the traffic) has moved. -/
theorem WritesRegister.setZN_keeps {reg : Loc} {get : State → Byte} {write : State → Byte → State}
    (h : WritesRegister reg get write) (hu : keeps [.cycles] s u) (v : Byte) :
    keeps [.cycles, reg, .flag .z, .flag .n] s ((write u v).setZN v) :=
  (hu.trans (h.frame u v)).trans (keeps_setZN _ v)

/-- An executor over the value starts where only the cycle count and the traffic have moved. -/
theorem withValue_next_keeps (hr : keeps [.cycles] s r.2) {k : Byte → State → Result} (h : withValue r k = .next t) :
    ∃ v u, keeps [.cycles] s u ∧ k v u = .next t := by
  obtain ⟨v, reads, -, hk⟩ := withValue_next h
  exact ⟨v, _, hr.trans (keeps_afterReads r.2 reads), hk⟩

theorem withValue_setZN_keeps {reg : Loc} {get : State → Byte} {write : State → Byte → State}
    (hw : WritesRegister reg get write) (hr : keeps [.cycles] s r.2) {f : Byte → State → Byte}
    (h : withValue r (fun v u => .next ((write u (f v u)).setZN (f v u))) = .next t) :
    keeps [.cycles, reg, .flag .z, .flag .n] s t := by
  obtain ⟨v, u, hu, hk⟩ := withValue_next_keeps hr h
  obtain rfl := Host.Outcome.next.inj hk
  exact hw.setZN_keeps hu _

theorem withValue_setArith_keeps (hr : keeps [.cycles] s r.2) {f : Byte → State → Byte} {c o : Byte → State → Bool}
    (h : withValue r (fun v u => .next (u.setArith (f v u) (c v u) (o v u))) = .next t) :
    keeps [.cycles, .a, .flag .c, .flag .z, .flag .n, .flag .v] s t := by
  obtain ⟨v, u, hu, hk⟩ := withValue_next_keeps hr h
  obtain rfl := Host.Outcome.next.inj hk
  exact hu.trans (keeps_setArith u _ _ _)

theorem withEa_busWrite_keeps (hr : keeps [.cycles] s r.2) {f : State → Byte}
    (h : withEa r (fun ea u => .next (u.busWrite ea (f u))) = .next t) : keeps [.cycles, .memory] s t := by
  obtain ⟨ea, -, h⟩ := withEa_next h
  obtain rfl := Host.Outcome.next.inj h
  exact hr.trans (keeps_busWrite _ ea _)

theorem branchWhen_keeps (hr : keeps [.cycles] s r.2) {f : Flag} {wanted : Bool} (h : branchWhen f wanted r = .next t) :
    keeps [.cycles, .pc] s t := by
  obtain ⟨ea, -, h⟩ := withEa_next h
  obtain rfl := Host.Outcome.next.inj h
  split
  · exact ((hr.trans (keeps_setPc _ ea)).trans (keeps_charge _ 1)).mono (by simp)
  · exact hr.mono (by simp)

theorem executeJmp_keeps (hr : keeps [.cycles] s r.2) (h : executeJmp r = .next t) : keeps [.cycles, .pc] s t := by
  obtain ⟨ea, -, h⟩ := withEa_next h
  obtain rfl := Host.Outcome.next.inj h
  exact hr.trans (keeps_setPc _ ea)

theorem executeJsr_keeps (hr : keeps [.cycles] s r.2) (h : executeJsr r = .next t) :
    keeps [.cycles, .memory, .sp, .pc] s t := by
  obtain ⟨ea, -, h⟩ := withEa_next h
  obtain rfl := Host.Outcome.next.inj h
  have hpushed := (hr.trans (keeps_busWrite r.2 (stackAddr r.2.sp) (highByte (r.2.pc - 1)))).trans
    (keeps_busWrite _ (stackAddr (r.2.sp - 1)) (lowByte (r.2.pc - 1)))
  have hjump := (hpushed.trans (keeps_setSp _ (r.2.sp - 2))).trans (keeps_setPc _ ea)
  exact (hjump.trans (keeps_charge _ 2)).mono (by simp)

theorem executeRts_keeps (hr : keeps [.cycles] s r.2) (h : executeRts r = .next t) : keeps [.cycles, .sp, .pc] s t := by
  obtain rfl := Host.Outcome.next.inj h
  have hpulls := (hr.trans (keeps_pull r.2)).trans (keeps_pull r.2.pull.2)
  have hjump := hpulls.trans (keeps_setPc _ (joinBytes r.2.pull.2.pull.1 r.2.pull.1 + 1))
  exact (hjump.trans (keeps_charge _ 4)).mono (by simp)

theorem push_charge_keeps (hr : keeps [.cycles] s u) (v : Byte) : keeps [.cycles, .memory, .sp] s ((u.push v).charge 1) :=
  ((hr.trans (keeps_push u v)).trans (keeps_charge _ 1)).mono (by simp)

theorem executePla_keeps (hr : keeps [.cycles] s r.2) (h : executePla r = .next t) :
    keeps [.cycles, .a, .sp, .flag .z, .flag .n] s t := by
  obtain rfl := Host.Outcome.next.inj h
  have hload := ((hr.trans (keeps_pull r.2)).trans (keeps_setA _ r.2.pull.1)).trans (keeps_setZN _ r.2.pull.1)
  exact (hload.trans (keeps_charge _ 2)).mono (by simp)

theorem executePlp_keeps (hr : keeps [.cycles] s r.2) (h : executePlp r = .next t) :
    keeps (.cycles :: writtenBy .plp) s t := by
  obtain rfl := Host.Outcome.next.inj h
  have hload := (hr.trans (keeps_pull r.2)).trans (keeps_setP _ (r.2.pull.1 ||| 0x20))
  exact (hload.trans (keeps_charge _ 2)).mono (by decide)

/-- No executor writes a location that `writtenBy` does not list for its mnemonic. -/
theorem execute_keeps {m : Mnemonic} (hr : keeps [.cycles] s r.2) (h : execute m r = .next t) :
    keeps (.cycles :: writtenBy m) s t := by
  cases m
  case lda => exact withValue_setZN_keeps writesRegister_setA hr h
  case ldx => exact withValue_setZN_keeps writesRegister_setX hr h
  case ldy => exact withValue_setZN_keeps writesRegister_setY hr h
  case and => exact withValue_setZN_keeps writesRegister_setA (f := fun v u => u.a &&& v) hr h
  case adc | sbc => exact withValue_setArith_keeps hr h
  case sta => exact withEa_busWrite_keeps (f := State.a) hr h
  case stx => exact withEa_busWrite_keeps (f := State.x) hr h
  case sty => exact withEa_busWrite_keeps (f := State.y) hr h
  case bpl | bmi | bvc | bvs | bcc | bcs | bne | beq => exact branchWhen_keeps hr h
  case jmp => exact executeJmp_keeps hr h
  case jsr => exact executeJsr_keeps hr h
  case rts => exact executeRts_keeps hr h
  case pla => exact executePla_keeps hr h
  case plp => exact executePlp_keeps hr h
  all_goals obtain rfl := Host.Outcome.next.inj h
  case txa | tya => exact writesRegister_setA.setZN_keeps hr _
  case tax | inx => exact writesRegister_setX.setZN_keeps hr _
  case tay | iny => exact writesRegister_setY.setZN_keeps hr _
  case clc | sec | cli | sei | clv | cld | sed => exact hr.trans (keeps_setFlag _ _ _)
  case pha | php => exact push_charge_keeps hr _
  case nop => exact hr

end

/-- An instruction changes only the cycle count, the traffic and what its mnemonic writes. -/
theorem exec_keeps {i : Instr} {s t : State} (h : exec i s = .next t) : keeps (.cycles :: writtenBy i.mnemonic) s t :=
  execute_keeps (keeps_resolve i.mode i.lo i.hi s) ((instructionIsResolverThenExecutor i s).symm.trans h)

/-- What an instruction has changed, its mnemonic writes. -/
theorem mem_writtenBy_of_changed {i : Instr} {s t : State} (h : exec i s = .next t) {l : Loc} (hne : l ≠ .cycles)
    (hl : ¬ l.same s t) : l ∈ writtenBy i.mnemonic := by
  by_contra hmem
  exact hl (exec_keeps h l (by simp [hne, hmem]))

/-- The writers of a location are the only instructions that change it. -/
theorem writer_of_changed {l : Loc} (writers : List Mnemonic) (hwriters : ∀ m, l ∈ writtenBy m → m ∈ writers) (hne : l ≠ .cycles)
    {i : Instr} {s t : State} (h : exec i s = .next t) (hl : ¬ l.same s t) : i.mnemonic ∈ writers :=
  hwriters _ (mem_writtenBy_of_changed h hne hl)

/-! ## Writers (R21 to R27) -/

/-- Settles O54: each register's writers are those `writtenBy` lists it for. -/
theorem registersHaveTheirWriters : Obligations.RegistersHaveTheirWriters := by
  intro i s t h
  refine ⟨writer_of_changed (l := .a) _ ?a (by decide) h, writer_of_changed (l := .x) _ ?x (by decide) h,
    writer_of_changed (l := .y) _ ?y (by decide) h, writer_of_changed (l := .sp) _ ?sp (by decide) h⟩
  all_goals
    intro m
    cases m <;> decide

/-- R76: whatever the machine maintains, an instruction maintains. -/
theorem exec_maintains {i : Instr} {s t : State} (h : exec i s = .next t) : Maintains s t :=
  (resolve_maintains i.mode i.lo i.hi s).trans
    (execute_maintains ((instructionIsResolverThenExecutor i s).symm.trans h))

/-- Settles O55: each flag's writers are those `writtenBy` lists it for; bit 5 is among what every executor maintains. -/
theorem flagsHaveTheirWriters : Obligations.FlagsHaveTheirWriters := by
  intro i s t h
  refine ⟨writer_of_changed (l := .flag .c) _ ?c (by decide) h, fun hne => hne.elim
      (writer_of_changed (l := .flag .z) _ ?z (by decide) h) (writer_of_changed (l := .flag .n) _ ?n (by decide) h),
    writer_of_changed (l := .flag .i) _ ?i (by decide) h, writer_of_changed (l := .flag .d) _ ?d (by decide) h,
    fun hne => List.mem_singleton.mp (writer_of_changed (l := .flag .b) [.plp] ?b (by decide) h hne),
    writer_of_changed (l := .flag .v) _ ?v (by decide) h, (exec_maintains h).bit5⟩
  all_goals
    intro m
    cases m <;> decide

/-! ## The program counter (R25) -/

/-- R70: the bytes of an instruction are its opcode byte and its mode's operand bytes. -/
theorem encode_length (i : Instr) : (encode i).length = i.mode.operandBytes + 1 := by
  rw [encode, List.length_cons, Instr.operands_length]

/-- R70: `PC` after the fetches, as a number. -/
theorem afterFetch_pc_toNat (m : Mode) (s : State) :
    (s.afterFetch m.operandBytes).pc.toNat = (s.pc.toNat + (m.operandBytes + 1)) % 65536 := by
  have hlt : m.operandBytes + 1 < 2 ^ 16 := by
    have := m.operandBytes_le
    omega
  show (s.pc + BitVec.ofNat 16 (m.operandBytes + 1)).toNat = _
  rw [BitVec.toNat_add, BitVec.toNat_ofNat, Nat.mod_eq_of_lt hlt]

/-- Settles O13: the fetches move `PC` past the instruction's bytes, and no executor but the eleven writes it. -/
theorem sequentialInstructionsAdvancePc : Obligations.SequentialInstructionsAdvancePc := by
  intro s t i rest hs hdecode hstep hm
  obtain ⟨u, hexec, hstep'⟩ := stepRunsDecodedInstruction s i rest hs hdecode
  obtain rfl := Host.Outcome.next.inj (hstep'.symm.trans hstep)
  have hpc : u.pc = (s.afterFetch i.mode.operandBytes).pc := by
    by_contra hne
    refine hm (writer_of_changed (l := .pc) _ ?_ (by decide) hexec hne)
    intro m
    cases m <;> decide
  calc u.pc.toNat
    _ = (s.pc.toNat + (i.mode.operandBytes + 1)) % 65536 := hpc ▸ afterFetch_pc_toNat i.mode s
    _ = (s.pc.toNat + (encode i).length) % 65536 := by rw [encode_length]

/-! ## The cycle cost (R259) -/

/-- What an executor of the stack charges beside its resolver (R193 to R198). -/
def stackCost : Mnemonic → Nat
  | .jsr | .pla | .plp => 2
  | .rts => 4
  | .pha | .php => 1
  | _ => 0

/-- R259: the table has the resolver's cost and the executor's own. -/
theorem lookup_cycleTable_eq (i : Instr) : cycleTable.lookup i.opcode = some (baseCost i.mode + stackCost i.mnemonic) := by
  cases i <;> rfl

/-- What a branch charges beside its resolver: one cycle if its flag has the tested value (R177). -/
def takenCost (m : Mnemonic) (s : State) : Nat :=
  if branchTests.any (fun b => b.1 == m && s.flag b.2.1 == b.2.2) then 1 else 0

theorem cycleCost_eq (i : Instr) (s : State) :
    cycleCost i s = baseCost i.mode + crossingExtra i s + (stackCost i.mnemonic + takenCost i.mnemonic s) := by
  have htaken : takenExtra i s = takenCost i.mnemonic s := rfl
  rw [cycleCost, lookup_cycleTable_eq, Option.getD_some, htaken]
  omega

theorem branchWhen_cycles {f : Flag} {wanted : Bool} {r : Resolved} {t : State} (h : branchWhen f wanted r = .next t) :
    t.cycles = r.2.cycles + if r.2.flag f == wanted then 1 else 0 := by
  obtain ⟨ea, -, h⟩ := withEa_next h
  obtain rfl := Host.Outcome.next.inj h
  split <;> rfl

/-- Every executor charges its own cost and nothing else. -/
theorem execute_cycles {m : Mnemonic} {r : Resolved} {t : State} (h : execute m r = .next t) :
    t.cycles = r.2.cycles + (stackCost m + takenCost m r.2) := by
  cases m
  case bpl | bmi | bvc | bvs | bcc | bcs | bne | beq =>
    rw [branchWhen_cycles h]
    simp [stackCost, takenCost, branchTests]
  case lda | ldx | ldy | and | adc | sbc =>
    obtain ⟨v, reads, -, h⟩ := withValue_next h
    obtain rfl := Host.Outcome.next.inj h
    rfl
  case sta | stx | sty | jmp | jsr =>
    dsimp only [execute, executeSta, executeStx, executeSty, executeJmp, executeJsr] at h
    obtain ⟨ea, -, h⟩ := withEa_next h
    obtain rfl := Host.Outcome.next.inj h
    rfl
  all_goals
    obtain rfl := Host.Outcome.next.inj h
    rfl

/-- An instruction's resolver reads some addresses and charges its mode's cost and the page crossing. -/
theorem resolved_state (i : Instr) (s : State) :
    ∃ reads, (resolved i s).2 = (s.afterReads reads).charge (baseCost i.mode + crossingExtra i s) := by
  rw [← resolved_crossed_toNat]
  exact resolve_state i.mode i.lo i.hi s

/-- Settles O53: the resolver's charge (`resolved_state`) and the executor's own (`execute_cycles`) are together the table's cost
and its extras (`cycleCost_eq`); the flags a branch tests are those before the resolver. -/
theorem cycleCostIsTheTables : Obligations.CycleCostIsTheTables := by
  intro i s
  obtain ⟨t, ht⟩ := everyInstructionCompletes i s
  refine ⟨t, ht, ?cycles⟩
  case cycles =>
    have hexecute := execute_cycles ((instructionIsResolverThenExecutor i s).symm.trans ht)
    obtain ⟨reads, hstate⟩ := resolved_state i s
    have htaken : takenCost i.mnemonic (resolved i s).2 = takenCost i.mnemonic s := by rw [hstate]; rfl
    have hcycles : (resolved i s).2.cycles = s.cycles + (baseCost i.mode + crossingExtra i s) := resolved_cycles i s
    calc t.cycles
      _ = (resolved i s).2.cycles + (stackCost i.mnemonic + takenCost i.mnemonic (resolved i s).2) := hexecute
      _ = s.cycles + cycleCost i s := by rw [htaken, hcycles, cycleCost_eq, Nat.add_assoc]

/-- What an instruction charges, whatever it does. -/
theorem exec_cycles {i : Instr} {s t : State} (h : exec i s = .next t) : t.cycles = s.cycles + cycleCost i s := by
  obtain ⟨u, hu, hcycles⟩ := cycleCostIsTheTables i s
  obtain rfl := Host.Outcome.next.inj (hu.symm.trans h)
  exact hcycles

/-! ## Branches (R177 to R185) -/

theorem mode_of_branch {i : Instr} (h : i.mnemonic ∈ branchTests.map Prod.fst) : i.mode = .relative := by
  cases i <;> simp_all [branchTests, Instr.mnemonic, Instr.mode]

theorem execute_branch {c : Mnemonic × Flag × Bool} (h : c ∈ branchTests) (r : Resolved) :
    execute c.1 r = branchWhen c.2.1 c.2.2 r := by
  unfold branchTests at h
  fin_cases h <;> rfl

/-- R177: a branch is the relative mode's charge of 2, and, when its flag has the tested value, the target in `PC` and one cycle
more. -/
theorem exec_branch {c : Mnemonic × Flag × Bool} (hc : c ∈ branchTests) {i : Instr} (hi : i.mnemonic = c.1) (s : State) :
    exec i s = .next (if s.flag c.2.1 == c.2.2 then ((s.charge 2).setPc (relativeTarget s.pc i.lo)).charge 1 else s.charge 2) := by
  have hmode : i.mode = .relative := mode_of_branch (hi ▸ List.mem_map_of_mem hc)
  rw [instructionIsResolverThenExecutor i s, hi, execute_branch hc, hmode]
  rfl

/-- Settles O43: `exec_branch` in both cases; the target is the signed sum (`relativeTarget_toNat`). -/
theorem branchesTakenAndNotTaken : Obligations.BranchesTakenAndNotTaken := by
  intro c hc i s hi
  have hexec := exec_branch hc hi s
  by_cases htaken : s.flag c.2.1 = c.2.2
  case pos =>
    rw [if_pos (beq_iff_eq.mpr htaken)] at hexec
    exact ⟨_, hexec, rfl, fun _ => ⟨relativeTarget_toNat s.pc i.lo, rfl⟩, fun hne => absurd htaken hne,
      (((keeps_charge s 2).trans (keeps_setPc _ (relativeTarget s.pc i.lo))).trans (keeps_charge _ 1)).mono (by simp)⟩
  case neg =>
    rw [if_neg (mt beq_iff_eq.mp htaken)] at hexec
    exact ⟨_, hexec, rfl, fun heq => absurd heq htaken, fun _ => ⟨rfl, rfl⟩, (keeps_charge s 2).mono (by simp)⟩

end Sys2Proof.Machine
end

section
/-! PROOFS. Stores, pushes and JSR: the cells they write (42_load_store_transfer.md R133 to R135, 45_jump_stack_misc.md R190 to R198),
that nothing else writes memory (20_memory.md R59), and the two round trips of 95_test_vectors.md over the stack. -/

namespace Sys2Proof.Machine

/-! ## Stores (R133, R134, R135) -/

theorem execute_store {m : Mnemonic} {r : Resolved} {v : Byte} (h : storedRegister m r.2 = some v) {ea : Word}
    (hea : r.1.ea = some ea) : execute m r = .next (r.2.busWrite ea v) := by
  unfold storedRegister at h
  split at h
  · exact Option.some.inj h ▸ withEa_some hea fun ea u => .next (u.busWrite ea u.a)
  · exact Option.some.inj h ▸ withEa_some hea fun ea u => .next (u.busWrite ea u.x)
  · exact Option.some.inj h ▸ withEa_some hea fun ea u => .next (u.busWrite ea u.y)
  · cases h

theorem usesEa_of_storedRegister {m : Mnemonic} {s : State} {v : Byte} (h : storedRegister m s = some v) : m.usesEa = true := by
  cases m
  case sta | stx | sty => rfl
  all_goals cases h

/-- A store writes its register at its effective address, from a state where only the cycle count and the traffic have moved. -/
theorem exec_store {i : Instr} {s : State} {v : Byte} (h : storedRegister i.mnemonic s = some v) :
    ∃ ea reads n, eaOf i s = some ea ∧ exec i s = .next (((s.afterReads reads).charge n).busWrite ea v) := by
  obtain ⟨ea, hea⟩ := resolve_ea (Instr.givesEa (usesEa_of_storedRegister h)) i.lo i.hi s
  obtain ⟨reads, hstate⟩ := resolved_state i s
  have hv : storedRegister i.mnemonic (resolved i s).2 = some v := by
    rw [hstate]
    exact h
  exact ⟨ea, reads, _, hea, hstate ▸ (instructionIsResolverThenExecutor i s).trans (execute_store hv hea)⟩

/-- Settles O34: what `exec_store` writes, read cell by cell (`State.read_memAfterWrite`). -/
theorem storesWriteTheRegister : Obligations.StoresWriteTheRegister := by
  intro i s v hv hmem
  obtain ⟨ea, reads, n, hea, hexec⟩ := exec_store hv
  have hread := State.read_memAfterWrite (s := (s.afterReads reads).charge n) hmem ea v
  refine ⟨_, ea, hea, hexec, List.getLast?_concat .., exec_cycles hexec, fun c hc => (hread c).trans (if_pos hc),
    fun hplain => hplain.writePlace rfl, fun c hc => (hread c).trans (if_neg (mt State.mem_storedCells.mpr hc)), ?frame⟩
  case frame => exact ((keeps_afterReads_charge s reads n).trans (keeps_busWrite _ ea v)).mono (by simp)

/-- Settles O25: the fetch reads the cell that the store wrote. -/
theorem fetchSeesStoredByte : Obligations.FetchSeesStoredByte := by
  intro i s ea c hi hea hplace hmem
  obtain ⟨ea', reads, n, hea', hexec⟩ := exec_store (i := i) (s := s) (v := s.a) (by rw [hi]; rfl)
  obtain rfl := Option.some.inj (hea'.symm.trans hea)
  have hread := State.read_memAfterWrite (s := (s.afterReads reads).charge n) hmem ea' s.a c
  refine ⟨_, hexec, fun hfetch => ⟨(State.busByte_of_cell hfetch).trans (hread.trans (if_pos hplace)), rfl⟩,
    fun hplain => ?plain⟩
  case plain =>
    rw [← hplace, hplain.writePlace rfl]
    exact hplain.readPlace rfl

/-! ## Pushes (R190, R195, R196) -/

/-- R195, R196: PHA and PHP push their byte between two charges. -/
theorem exec_push (s : State) : ∀ c ∈ [(Instr.pha, s.a), (Instr.php, s.p)],
    exec c.1 s = .next (((s.charge 2).push c.2).charge 1) := by
  intro c hc
  fin_cases hc <;> rfl

theorem byte_sub_one_toNat (b : Byte) : (b - 1).toNat = (b.toNat + 255) % 256 := by
  rw [BitVec.toNat_sub]
  exact congrArg (· % 256) (Nat.add_comm _ _)

/-- Settles O47: the slot's cell takes the pushed byte (`State.read_memAfterWrite`), and the frame is the push's. -/
theorem pushesStoreAndDecrement : Obligations.PushesStoreAndDecrement := by
  intro s hmem c hc
  have hread := State.read_memAfterWrite hmem (stackAddr s.sp) c.2
  exact ⟨_, stackAddr s.sp, exec_push s c hc, stackAddr_toNat _, rfl, fun n hn => (hread n).trans (if_pos hn),
    fun hplain => hplain.writePlace rfl, fun n hn => (hread n).trans (if_neg (mt State.mem_storedCells.mpr hn)),
    byte_sub_one_toNat s.sp, rfl, (push_charge_keeps (keeps_charge s 2) c.2).mono (by simp)⟩

/-! ## PLP (R198) -/

/-- Forcing bit 5 leaves the flags alone. -/
theorem getFlag_or_bit5 (v : Byte) (f : Flag) : getFlag (v ||| 0x20) f = getFlag v f := by
  have hbit : (0x20 : Byte).getLsbD f.bit = false := by cases f <;> decide
  rw [getFlag_eq, getFlag_eq, BitVec.getLsbD_or, hbit, Bool.or_false]

/-- Settles O49: PLP is a pull between two charges of 2, the pulled byte going to `P` with bit 5 forced. -/
theorem plpLoadsTheStatus : Obligations.PlpLoadsTheStatus := by
  intro s
  have hsp : (s.sp + 1).toNat = (s.sp.toNat + 1) % 256 := BitVec.toNat_add s.sp 1
  have hslot : (stackAddr (s.sp + 1)).toNat = 256 + (s.sp.toNat + 1) % 256 := hsp ▸ stackAddr_toNat _
  have hexec : exec .plp s = .next _ := rfl
  have hbit : (s.busByte (stackAddr (s.sp + 1)) ||| 0x20).getLsbD 5 = true := by simp
  exact ⟨_, stackAddr (s.sp + 1), s.busByte (stackAddr (s.sp + 1)), hexec, hslot, rfl, rfl, rfl, getFlag_or_bit5 _, hbit, hsp, rfl,
    (exec_keeps hexec).mono (by decide)⟩

/-! ## JSR (R193) -/

/-- The state JSR leaves from a state past its resolver: the two writes, then `SP`, `PC` and the charge of 2 (R193). -/
def State.afterJsr (s : State) (ea : Word) : State :=
  ((((s.busWrite (stackAddr s.sp) (highByte (s.pc - 1))).busWrite (stackAddr (s.sp - 1)) (lowByte (s.pc - 1))).setSp
    (s.sp - 2)).setPc ea).charge 2

theorem exec_jsr (lo hi : Byte) (s : State) :
    ∃ reads, exec (.jsr lo hi) s = .next (((s.afterReads reads).charge 4).afterJsr (joinBytes hi lo)) := by
  have hea : (resolveAbsolute lo hi s).1.ea = some (joinBytes hi lo) := latchMemory_ea ..
  have hstate : (resolveAbsolute lo hi s).2 = _ := latchMemory_state (joinBytes hi lo) false 4 s
  exact ⟨_, hstate ▸ withEa_some hea fun ea u => .next (u.afterJsr ea)⟩

/-- Two bus writes in a row, cell by cell: the second one's cell, in the memory the first has left, then the first one's. -/
theorem State.read_busWrite_busWrite {s : State} (hmem : s.mem.wf = true) (first second : Word) (v w : Byte) (c : Nat) :
    ((s.busWrite first v).busWrite second w).mem.read c =
      if (s.busWrite first v).writePlace second = .cell c then w
      else if s.writePlace first = .cell c then v else s.mem.read c := by
  rw [State.busWrite_mem, State.read_memAfterWrite (State.memAfterWrite_wf hmem first v), State.busWrite_mem,
    State.read_memAfterWrite hmem]

/-- Settles O45: the two writes of `exec_jsr`, cell by cell (`State.read_busWrite_busWrite`); the stored bytes are the two halves
of the return address. -/
theorem jsrPushesTheReturnAddress : Obligations.JsrPushesTheReturnAddress := by
  intro s lo hi hmem
  obtain ⟨reads, hexec⟩ := exec_jsr lo hi s
  have hframe : keeps (.cycles :: writtenBy .jsr) s _ := exec_keeps hexec
  have hread := State.read_busWrite_busWrite (s := (s.afterReads reads).charge 4) hmem (stackAddr s.sp) (stackAddr (s.sp - 1))
    (highByte (s.pc - 1)) (lowByte (s.pc - 1))
  refine ⟨_, stackAddr s.sp, stackAddr (s.sp - 1), hexec, stackAddr_toNat _, stackAddr_toNat _, ⟨s.busLog ++ s.reads reads, ?log⟩,
    ⟨_, rfl, fun c hc => ?low, fun c hc hne => ?high, fun hplain => hplain.writePlace rfl, fun hplain => hplain.writePlace rfl,
      fun c hc => ?outside⟩, rfl, joinBytes_toNat hi lo, exec_cycles hexec, hframe.mono (by decide)⟩
  case log => exact List.append_assoc ..
  case low => exact (congrArg BitVec.toNat ((hread c).trans (if_pos hc))).trans (lowByte_toNat _)
  case high =>
    exact (congrArg BitVec.toNat ((hread c).trans ((if_neg hne).trans (if_pos hc)))).trans (highByte_toNat _)
  case outside =>
    obtain ⟨hfirst, hsecond⟩ := not_or.mp (mt List.mem_append.mpr hc)
    exact (hread c).trans ((if_neg (mt State.mem_storedCells.mpr hsecond)).trans (if_neg (mt State.mem_storedCells.mpr hfirst)))

/-! ## Memory's writers (R59) -/

theorem memory_writers {m : Mnemonic} (h : Loc.memory ∈ writtenBy m) : m ∈ [.sta, .stx, .sty, .pha, .php, .jsr] := by
  revert h
  cases m <;> decide

/-- A stack slot's address as R59 bounds it. -/
theorem stackAddr_bounds (sp : Byte) : 0x0100 ≤ (stackAddr sp).toNat ∧ (stackAddr sp).toNat ≤ 0x01FF := by
  rw [stackAddr_toNat]
  omega

/-- A cell that a bus write changed is the one it was taken to. -/
theorem writePlace_of_changed {s : State} (hmem : s.mem.wf = true) {addr : Word} {v : Byte} {c : Nat}
    (h : (s.memAfterWrite addr v).read c ≠ s.mem.read c) : s.writePlace addr = .cell c := by
  rw [State.read_memAfterWrite hmem] at h
  by_contra hplace
  exact h (if_neg hplace)

/-- R134, R135, R193, R195, R196: a mnemonic that writes memory and is no store is PHA's, PHP's or JSR's. -/
theorem push_of_memory_writer {i : Instr} {s : State} (h : i.mnemonic ∈ [.sta, .stx, .sty, .pha, .php, .jsr])
    (hstored : storedRegister i.mnemonic s = none) : i = .pha ∨ i = .php ∨ ∃ lo hi, i = .jsr lo hi := by
  cases i <;> simp_all [Instr.mnemonic, storedRegister]

/-- What JSR changed lies in its first write's cell, or in its second's in the memory that the first has left. -/
theorem writePlace_of_jsr_changed {s t : State} (hmem : s.mem.wf = true) {lo hi : Byte} (h : exec (.jsr lo hi) s = .next t) {c : Nat}
    (hne : t.mem.read c ≠ s.mem.read c) :
    s.writePlace (stackAddr s.sp) = .cell c ∨
      (s.busWrite (stackAddr s.sp) (highByte (s.pc - 1))).writePlace (stackAddr (s.sp - 1)) = .cell c := by
  obtain ⟨reads, hexec⟩ := exec_jsr lo hi s
  obtain rfl := Host.Outcome.next.inj (hexec.symm.trans h)
  by_contra hplaces
  obtain ⟨hfirst, hsecond⟩ := not_or.mp hplaces
  have hread := State.read_busWrite_busWrite hmem (stackAddr s.sp) (stackAddr (s.sp - 1)) (highByte (s.pc - 1))
    (lowByte (s.pc - 1)) c
  exact hne (hread.trans ((if_neg hsecond).trans (if_neg hfirst)))

theorem store_of_storedRegister {m : Mnemonic} {s : State} {v : Byte} (h : storedRegister m s = some v) :
    m ∈ [.sta, .stx, .sty] := by
  revert h
  cases m <;> simp [storedRegister]

/-- Settles O56: memory's writers are three stores and three pushes (`memory_writers`); what one of them changed lies in a cell
that its writes were taken to. -/
theorem memoryHasItsWriters : Obligations.MemoryHasItsWriters := by
  intro i s t c hmem h hne
  have hwriter := memory_writers (mem_writtenBy_of_changed (l := .memory) h (by decide) fun hall => hne (hall c))
  cases hstored : storedRegister i.mnemonic s with
  | some v =>
    obtain ⟨ea, reads, n, hea, hexec⟩ := exec_store hstored
    obtain rfl := Host.Outcome.next.inj (hexec.symm.trans h)
    exact .inl ⟨store_of_storedRegister hstored, ea, hea,
      writePlace_of_changed (s := (s.afterReads reads).charge n) hmem hne⟩
  | none =>
    refine .inr ?_
    obtain ⟨hlow, hhigh⟩ := stackAddr_bounds s.sp
    obtain ⟨hlow', hhigh'⟩ := stackAddr_bounds (s.sp - 1)
    obtain rfl | rfl | ⟨lo, hi, rfl⟩ := push_of_memory_writer hwriter hstored
    case inl =>
      obtain rfl := Host.Outcome.next.inj h
      exact ⟨by decide, stackAddr s.sp, hlow, hhigh, .inl (writePlace_of_changed (s := s.charge 2) hmem hne)⟩
    case inr.inl =>
      obtain rfl := Host.Outcome.next.inj h
      exact ⟨by decide, stackAddr s.sp, hlow, hhigh, .inl (writePlace_of_changed (s := s.charge 2) hmem hne)⟩
    case inr.inr =>
      refine ⟨by simp [Instr.mnemonic], ?_⟩
      obtain hfirst | hsecond := writePlace_of_jsr_changed hmem h hne
      · exact ⟨stackAddr s.sp, hlow, hhigh, .inl hfirst⟩
      · exact ⟨stackAddr (s.sp - 1), hlow', hhigh', .inr ⟨rfl, hsecond⟩⟩

/-! ## Round trips over the stack (95_test_vectors.md T3, T4) -/

/-- The byte above `SP` after a push is the pushed one, where the bus reads the slot's cell. -/
theorem State.busByte_of_push {s : State} {c : Nat} (hmem : s.mem.wf = true) (hwrite : s.writePlace (stackAddr s.sp) = .cell c)
    {v : Byte} (hread : (s.push v).readPlace (stackAddr s.sp) = .cell c) : (s.push v).busByte (stackAddr (s.sp - 1 + 1)) = v := by
  have hstored := State.read_memAfterWrite hmem (stackAddr s.sp) v c
  rw [BitVec.sub_add_cancel, State.busByte_of_cell hread]
  exact hstored.trans (if_pos hwrite)

theorem or_bit5_of_getLsbD {p : Byte} (h : p.getLsbD 5 = true) : p ||| 0x20 = p := by
  have hp : ∀ q : Byte, q.getLsbD 5 = true → q ||| 0x20 = q := by decide
  exact hp p h

@[simp] theorem State.busByte_setA (s : State) (v : Byte) (addr : Word) : (s.setA v).busByte addr = s.busByte addr := rfl

@[simp] theorem State.busByte_setP (s : State) (v : Byte) (addr : Word) : (s.setP v).busByte addr = s.busByte addr := rfl

/-- R191, R197, R198: the pull instructions as the state they answer. -/
theorem exec_pla (s : State) :
    exec .pla s = .next ((((s.charge 2).pull.2.setA (s.charge 2).pull.1).setZN (s.charge 2).pull.1).charge 2) := rfl

theorem exec_plp (s : State) : exec .plp s = .next (((s.charge 2).pull.2.setP ((s.charge 2).pull.1 ||| 0x20)).charge 2) := rfl

/-- Settles O51: the pull reads the slot the push wrote (`State.busByte_of_push`), `SP` going down and up again. -/
theorem pushPullRoundTrip : Obligations.PushPullRoundTrip := by
  intro s c hmem hplace
  have hsp : s.sp - 1 + 1 = s.sp := BitVec.sub_add_cancel s.sp 1
  have hpushed : ∀ v, ((s.charge 2).push v).readPlace (stackAddr s.sp) = .cell c →
      ((s.charge 2).push v).busByte (stackAddr (s.sp - 1 + 1)) = v :=
    fun v hread => State.busByte_of_push (s := s.charge 2) hmem hplace hread
  refine ⟨⟨_, exec_push s (.pha, s.a) (by simp), fun hread b => ⟨_, exec_pla _, ?a, ?sp, ?x, ?y⟩⟩,
    ⟨_, exec_push s (.php, s.p) (by simp), fun hbit hread b => ⟨_, exec_plp _, ?status, ?sp', ?a', ?x', ?y'⟩⟩,
    fun hplain i hi => ?plain⟩
  case a => simpa using hpushed s.a hread
  case status =>
    have hpulled := congrArg (· ||| 0x20) (hpushed s.p hread)
    rw [or_bit5_of_getLsbD hbit] at hpulled
    simpa using hpulled
  case plain =>
    have hc : Place.cell (stackAddr s.sp).toNat = .cell c := (hplain.writePlace rfl).symm.trans hplace
    have hread : ∀ t : State, t.params = s.params → t.readPlace (stackAddr s.sp) = .cell c :=
      fun t ht => (hplain.readPlace ht).trans hc
    simp only [List.mem_cons, List.not_mem_nil, or_false] at hi
    obtain rfl | rfl := hi
    · exact ⟨_, exec_push s (.pha, s.a) (by simp), hread _ rfl⟩
    · exact ⟨_, exec_push s (.php, s.p) (by simp), hread _ rfl⟩
  all_goals simp

/-- R194: RTS as the state it answers. -/
theorem exec_rts (s : State) :
    exec .rts s = .next (((s.charge 2).pull.2.pull.2.setPc
      (joinBytes (s.charge 2).pull.2.pull.1 (s.charge 2).pull.1 + 1)).charge 4) := rfl

theorem stackAddr_ne_of_sub_one (sp : Byte) : (stackAddr (sp - 1)).toNat ≠ (stackAddr sp).toNat := by
  rw [stackAddr_toNat, stackAddr_toNat]
  bv_omega

/-- At plain slots JSR leaves the two halves of its return address there, `SP` two down, and the registers and parameters alone. -/
theorem exec_jsr_plain {s : State} (hmem : s.mem.wf = true) (hhigh : plainAt s (stackAddr s.sp))
    (hlow : plainAt s (stackAddr (s.sp - 1))) (lo hi : Byte) :
    ∃ t, exec (.jsr lo hi) s = .next t ∧ t.mem.read (stackAddr s.sp).toNat = highByte (s.pc - 1) ∧
      t.mem.read (stackAddr (s.sp - 1)).toNat = lowByte (s.pc - 1) ∧ t.sp = s.sp - 2 ∧ t.params = s.params ∧
      t.a = s.a ∧ t.x = s.x ∧ t.y = s.y ∧ t.p = s.p := by
  obtain ⟨reads, hexec⟩ := exec_jsr lo hi s
  have hread := State.read_busWrite_busWrite (s := (s.afterReads reads).charge 4) hmem (stackAddr s.sp) (stackAddr (s.sp - 1))
    (highByte (s.pc - 1)) (lowByte (s.pc - 1))
  have hfirst := hhigh.writePlace (t := (s.afterReads reads).charge 4) rfl
  have hsecond := hlow.writePlace (t := ((s.afterReads reads).charge 4).busWrite (stackAddr s.sp) (highByte (s.pc - 1))) rfl
  have hslots : Place.cell (stackAddr (s.sp - 1)).toNat ≠ .cell (stackAddr s.sp).toNat :=
    fun h => stackAddr_ne_of_sub_one s.sp (Place.cell.inj h)
  refine ⟨_, hexec, (hread _).trans ((if_neg (hsecond ▸ hslots)).trans (if_pos hfirst)), (hread _).trans (if_pos hsecond),
    ?registers⟩
  case registers => simp [State.afterJsr]

/-- Settles O52: at plain slots the two pulls get the two halves of the address that JSR stored, which is one before its `PC`. -/
theorem rtsReturnsAfterJsr : Obligations.RtsReturnsAfterJsr := by
  intro s lo hi hmem hhigh hlow
  obtain ⟨t, hexec, hstoredHigh, hstoredLow, hsp, hparams, ha, hx, hy, hp⟩ := exec_jsr_plain hmem hhigh hlow lo hi
  have hlowSlot : t.sp + 1 = s.sp - 1 := by bv_omega
  have hhighSlot : t.sp + 2 = s.sp := by bv_omega
  have hsp' : t.sp + 1 + 1 = s.sp := (BitVec.add_assoc t.sp 1 1).trans hhighSlot
  refine ⟨t, hexec, fun q => ⟨_, exec_rts _, ?pc, ?registers⟩⟩
  case registers => simpa [ha, hx, hy, hp] using hsp'
  case pc =>
    let u := (t.setPc q).charge 2
    have hlowByte : u.pull.1 = lowByte (s.pc - 1) := by
      show u.busByte (stackAddr (t.sp + 1)) = _
      rw [hlowSlot]
      exact (State.busByte_of_cell (hlow.readPlace (t := u) hparams)).trans hstoredLow
    have hhighByte : u.pull.2.pull.1 = highByte (s.pc - 1) := by
      rw [State.pull_pull_value]
      show State.busByte _ (stackAddr (t.sp + 2)) = _
      rw [hhighSlot]
      exact (State.busByte_of_cell (hhigh.readPlace (t := u.afterReads _) hparams)).trans hstoredHigh
    show joinBytes u.pull.2.pull.1 u.pull.1 + 1 = s.pc
    rw [hlowByte, hhighByte, joinBytes_high_low, BitVec.sub_add_cancel]

end Sys2Proof.Machine
end

section
/-! PROOFS. SBC (43_alu.md R154), and V as signed overflow after ADC and SBC (92_eei_decisions.md D6). -/

namespace Sys2Proof.Machine

/-! ## SBC (R154) -/

theorem complement_and_ff (v : Byte) : ~~~v &&& 0xFF = ~~~v := BitVec.and_allOnes

/-- Settles O39: SBC's executor ends with `setArith` of the difference, its overflow operand by `P_SBC_V`. -/
theorem sbcSubtractsWithBorrow : Obligations.SbcSubtractsWithBorrow := by
  intro i s hm
  obtain ⟨v, reads, hoperand, hexec⟩ := exec_of_usesValue (i := i) (by rw [hm]; rfl) (by rw [hm]; exact fun _ => rfl) s
  have hu := keeps_afterReads_charge s reads (cycleCost i s)
  obtain ⟨-, hc, hz, hn, hoverflow, hcycles, hframe⟩ := State.setArith_spec hu (sbcResult s.a v (s.flag .c))
    (sbcCarry s.a v (s.flag .c)) (overflowFormula s.a (sbcOverflowOperand s.params.sbcV v) (sbcResult s.a v (s.flag .c)))
  refine ⟨_, v, hoperand, hexec, ?difference, fun hliteral => ?literal, fun hcomplement => ?complement, hcycles, hframe⟩
  case difference =>
    rintro r rfl
    have hr := sbcResult_toNat s.a v (s.flag .c)
    refine ⟨hr, hc, hz.trans (decide_eq_decide.mpr ?_), hn.trans (decide_eq_decide.mpr ?_)⟩
    · rw [← sbcDiff, ← hr]
      exact Int.natCast_eq_zero.symm
    · rw [← sbcDiff, ← hr]
      omega
  case literal => exact hoverflow.trans (by rw [hliteral]; rfl)
  case complement => exact hoverflow.trans (by rw [hcomplement, complement_and_ff]; rfl)

/-! ## Signed overflow -/

/-- A byte's signed value, by its sign. -/
theorem byte_toInt (b : Byte) : b.toInt = if 128 ≤ b.toNat then (b.toNat : Int) - 256 else b.toNat := by
  rw [BitVec.toInt_eq_toNat_cond]
  split <;> split <;> omega

/-- The signs of both operands differ from the sign of the sum exactly when the signed sum leaves the byte's range. -/
theorem signs_differ_iff_overflow {a v r : Byte} {carry : Bool}
    (hr : r.toNat = (a.toNat + v.toNat + if carry then 1 else 0) % 256) :
    (a.getLsbD 7 != r.getLsbD 7 && v.getLsbD 7 != r.getLsbD 7) =
      decide (¬ (-128 ≤ a.toInt + v.toInt + (if carry then 1 else 0) ∧ a.toInt + v.toInt + (if carry then 1 else 0) ≤ 127)) := by
  have hcarry : (if carry then 1 else 0 : Nat) ≤ 1 := by split <;> decide
  have hcast : (if carry then 1 else 0 : Int) = (if carry then 1 else 0 : Nat) := (Nat.cast_ite ..).symm
  rw [hcast]
  generalize (if carry then 1 else 0 : Nat) = n at hr hcarry
  rw [getLsbD_seven, getLsbD_seven, getLsbD_seven, byte_toInt, byte_toInt]
  by_cases ha : 128 ≤ a.toNat <;> by_cases hv : 128 ≤ v.toNat <;> by_cases hsum : 128 ≤ r.toNat <;>
    (simp [ha, hv, hsum]; omega)

/-- A byte's complement is one less than its negation. -/
theorem complement_toInt (v : Byte) : (~~~v).toInt = -v.toInt - 1 := by
  rw [byte_toInt, byte_toInt, BitVec.toNat_not]
  split <;> split <;> omega

/-- Settles O40: ADC's V compares signs (O38), SBC's under `complement` does so with the complement of the operand, whose
addition with the carry is the subtraction with the borrow. -/
theorem overflowIsSignedOverflow : Obligations.OverflowIsSignedOverflow := by
  intro i s t v hoperand hexec
  refine ⟨fun hm => ?adc, fun hm hcomplement => ?sbc⟩
  case adc =>
    obtain ⟨t', v', hoperand', hexec', hsum, hsigns, -⟩ := adcAddsWithCarry i s hm
    obtain rfl := Option.some.inj (hoperand'.symm.trans hoperand)
    obtain rfl := Host.Outcome.next.inj (hexec'.symm.trans hexec)
    obtain ⟨hr, -⟩ := hsum _ rfl
    exact hsigns.trans (signs_differ_iff_overflow hr)
  case sbc =>
    obtain ⟨t', v', hoperand', hexec', hdifference, -, hoverflow, -⟩ := sbcSubtractsWithBorrow i s hm
    obtain rfl := Option.some.inj (hoperand'.symm.trans hoperand)
    obtain rfl := Host.Outcome.next.inj (hexec'.symm.trans hexec)
    obtain ⟨hr, -⟩ := hdifference _ rfl
    have hsum : t'.a.toNat = (s.a.toNat + (~~~v').toNat + if s.flag .c then 1 else 0) % 256 := by
      rw [BitVec.toNat_not]
      cases hc : s.flag .c <;> rw [hc] at hr <;> simp only [Bool.false_eq_true, if_true, if_false] at hr ⊢ <;> omega
    have hsigns : t'.flag .v = overflowFormula s.a (~~~v') t'.a := complement_and_ff v' ▸ hoverflow hcomplement
    have hshift : s.a.toInt + (~~~v').toInt + (if s.flag .c then 1 else 0) =
        s.a.toInt - v'.toInt - (if s.flag .c then 0 else 1) := by
      rw [complement_toInt]
      split <;> omega
    rw [hsigns, overflowFormula_eq, signs_differ_iff_overflow hsum, hshift]

end Sys2Proof.Machine
end

section
/-! PROOFS. Noninterference: a relation between states that every operation of an executor keeps, and that related states cannot be
told apart by, is kept by every instruction. From it the flags nothing reads, the cycle count, the debug flag (10_state.md R31,
60_exceptions.md R231, 30_encoding.md R80) and the two choices of `P_EA_READ` (41_addressing_modes.md R111). -/

namespace Sys2Proof.Machine

/-! ## Relations that executors keep -/

/-- Related states give an executor the same registers, tested flags and bus bytes, and every operation it performs on both leaves
them related. -/
structure Simulates (R : State → State → Prop) : Prop where
  sbcV    : ∀ {s t}, R s t → t.params.sbcV = s.params.sbcV
  a       : ∀ {s t}, R s t → t.a = s.a
  x       : ∀ {s t}, R s t → t.x = s.x
  y       : ∀ {s t}, R s t → t.y = s.y
  pc      : ∀ {s t}, R s t → t.pc = s.pc
  sp      : ∀ {s t}, R s t → t.sp = s.sp
  flag    : ∀ {s t}, R s t → ∀ f ∉ [Flag.i, .d, .b], t.flag f = s.flag f
  byte    : ∀ {s t}, R s t → ∀ addr, t.busByte addr = s.busByte addr
  read    : ∀ {s t}, R s t → ∀ addr, R (s.afterReads [addr]) (t.afterReads [addr])
  write   : ∀ {s t}, R s t → ∀ addr v, R (s.busWrite addr v) (t.busWrite addr v)
  setA    : ∀ {s t}, R s t → ∀ v, R (s.setA v) (t.setA v)
  setX    : ∀ {s t}, R s t → ∀ v, R (s.setX v) (t.setX v)
  setY    : ∀ {s t}, R s t → ∀ v, R (s.setY v) (t.setY v)
  setSp   : ∀ {s t}, R s t → ∀ v, R (s.setSp v) (t.setSp v)
  setPc   : ∀ {s t}, R s t → ∀ v, R (s.setPc v) (t.setPc v)
  setP    : ∀ {s t}, R s t → ∀ v, R (s.setP v) (t.setP v)
  setFlag : ∀ {s t}, R s t → ∀ f b, R (s.setFlag f b) (t.setFlag f b)
  charge  : ∀ {s t}, R s t → ∀ n, R (s.charge n) (t.charge n)

/-- Two resolvers' answers that an executor cannot tell apart: related states, one effective address, and the same value to use. -/
structure SameOperand (R : State → State → Prop) (r r' : Resolved) : Prop where
  state : R r.2 r'.2
  ea    : r'.1.ea = r.1.ea
  value : ∀ v u, operandValue r = some (v, u) → ∃ u', operandValue r' = some (v, u') ∧ R u u'

section
variable {R : State → State → Prop} {s s' t : State} {r r' : Resolved}

theorem Simulates.setZN (hR : Simulates R) (h : R s s') (v : Byte) : R (s.setZN v) (s'.setZN v) :=
  hR.setFlag (hR.setFlag h .z _) .n _

theorem Simulates.setArith (hR : Simulates R) (h : R s s') (v : Byte) (c o : Bool) : R (s.setArith v c o) (s'.setArith v c o) :=
  hR.setFlag (hR.setZN (hR.setA (hR.setFlag h .c c) v) v) .v o

theorem Simulates.push (hR : Simulates R) (h : R s s') (v : Byte) : R (s.push v) (s'.push v) := by
  rw [State.push, State.push, hR.sp h]
  exact hR.setSp (hR.write h _ v) _

theorem Simulates.pull_value (hR : Simulates R) (h : R s s') : s'.pull.1 = s.pull.1 := by
  rw [State.pull_value, State.pull_value, hR.sp h, hR.byte h]

theorem Simulates.pull (hR : Simulates R) (h : R s s') : R s.pull.2 s'.pull.2 := by
  rw [State.pull_eq, State.pull_eq, hR.sp h]
  exact hR.setSp (hR.read h _) _

theorem withValue_simulates (h : SameOperand R r r') {k : Byte → State → State} (hk : ∀ v {u u'}, R u u' → R (k v u) (k v u'))
    (ht : withValue r (fun v u => .next (k v u)) = .next t) :
    ∃ t', withValue r' (fun v u => .next (k v u)) = .next t' ∧ R t t' := by
  obtain ⟨v, reads, hv, ht⟩ := withValue_next ht
  obtain rfl := Host.Outcome.next.inj ht
  obtain ⟨u', hu', hR⟩ := h.value v _ hv
  exact ⟨_, withValue_some hu' _, hk v hR⟩

theorem withEa_simulates (h : SameOperand R r r') {k : Word → State → State} (hk : ∀ ea {u u'}, R u u' → R (k ea u) (k ea u'))
    (ht : withEa r (fun ea u => .next (k ea u)) = .next t) :
    ∃ t', withEa r' (fun ea u => .next (k ea u)) = .next t' ∧ R t t' := by
  obtain ⟨ea, hea, ht⟩ := withEa_next ht
  obtain rfl := Host.Outcome.next.inj ht
  exact ⟨_, withEa_some (h.ea.trans hea) _, hk ea h.state⟩

theorem branchWhen_simulates (hR : Simulates R) (h : SameOperand R r r') {f : Flag} (hf : f ∉ [Flag.i, .d, .b]) {wanted : Bool}
    (ht : branchWhen f wanted r = .next t) : ∃ t', branchWhen f wanted r' = .next t' ∧ R t t' := by
  refine withEa_simulates (k := fun ea u => if u.flag f == wanted then (u.setPc ea).charge 1 else u) h (fun ea u u' hu => ?_) ht
  rw [hR.flag hu f hf]
  split
  · exact hR.charge (hR.setPc hu ea) 1
  · exact hu

theorem executeJsr_simulates (hR : Simulates R) (h : SameOperand R r r') (ht : executeJsr r = .next t) :
    ∃ t', executeJsr r' = .next t' ∧ R t t' := by
  refine withEa_simulates (k := fun ea u => u.afterJsr ea) h (fun ea u u' hu => ?_) ht
  rw [State.afterJsr, State.afterJsr, hR.sp hu, hR.pc hu]
  exact hR.charge (hR.setPc (hR.setSp (hR.write (hR.write hu _ _) _ _) _) ea) 2

/-- An executor keeps the relation, but for PHP, which pushes the whole of `P`. -/
theorem execute_simulates (hR : Simulates R) (h : SameOperand R r r') {m : Mnemonic} (hphp : m = .php → r'.2.p = r.2.p)
    (ht : execute m r = .next t) : ∃ t', execute m r' = .next t' ∧ R t t' := by
  have hs := h.state
  cases m
  case lda => exact withValue_simulates h (fun v u u' hu => hR.setZN (hR.setA hu v) v) ht
  case ldx => exact withValue_simulates h (fun v u u' hu => hR.setZN (hR.setX hu v) v) ht
  case ldy => exact withValue_simulates h (fun v u u' hu => hR.setZN (hR.setY hu v) v) ht
  case and =>
    refine withValue_simulates (k := fun v u => (u.setA (u.a &&& v)).setZN (u.a &&& v)) h (fun v u u' hu => ?_) ht
    rw [hR.a hu]
    exact hR.setZN (hR.setA hu _) _
  case adc =>
    refine withValue_simulates (k := fun v u => u.setArith (adcResult u.a v (u.flag .c)) (adcCarry u.a v (u.flag .c))
      (overflowFormula u.a v (adcResult u.a v (u.flag .c)))) h (fun v u u' hu => ?_) ht
    rw [hR.a hu, hR.flag hu .c (by decide)]
    exact hR.setArith hu _ _ _
  case sbc =>
    refine withValue_simulates (k := fun v u => u.setArith (sbcResult u.a v (u.flag .c)) (sbcCarry u.a v (u.flag .c))
      (overflowFormula u.a (sbcOverflowOperand u.params.sbcV v) (sbcResult u.a v (u.flag .c)))) h (fun v u u' hu => ?_) ht
    rw [hR.a hu, hR.flag hu .c (by decide), hR.sbcV hu]
    exact hR.setArith hu _ _ _
  case sta => exact withEa_simulates (k := fun ea u => u.busWrite ea u.a) h (fun ea u u' hu => hR.a hu ▸ hR.write hu ea _) ht
  case stx => exact withEa_simulates (k := fun ea u => u.busWrite ea u.x) h (fun ea u u' hu => hR.x hu ▸ hR.write hu ea _) ht
  case sty => exact withEa_simulates (k := fun ea u => u.busWrite ea u.y) h (fun ea u u' hu => hR.y hu ▸ hR.write hu ea _) ht
  case bpl | bmi | bvc | bvs | bcc | bcs | bne | beq => exact branchWhen_simulates hR h (by decide) ht
  case jmp => exact withEa_simulates (k := fun ea u => u.setPc ea) h (fun ea u u' hu => hR.setPc hu ea) ht
  case jsr => exact executeJsr_simulates hR h ht
  all_goals
    obtain rfl := Host.Outcome.next.inj ht
    refine ⟨_, rfl, ?_⟩
  case clc | sec | cli | sei | clv | cld | sed => exact hR.setFlag hs _ _
  case tax => exact hR.a hs ▸ hR.setZN (hR.setX hs r.2.a) r.2.a
  case tay => exact hR.a hs ▸ hR.setZN (hR.setY hs r.2.a) r.2.a
  case txa => exact hR.x hs ▸ hR.setZN (hR.setA hs r.2.x) r.2.x
  case tya => exact hR.y hs ▸ hR.setZN (hR.setA hs r.2.y) r.2.y
  case inx => exact hR.x hs ▸ hR.setZN (hR.setX hs (r.2.x + 1)) (r.2.x + 1)
  case iny => exact hR.y hs ▸ hR.setZN (hR.setY hs (r.2.y + 1)) (r.2.y + 1)
  case pha => exact hR.charge (hR.a hs ▸ hR.push hs r.2.a) 1
  case php => exact hR.charge (hphp rfl ▸ hR.push hs r.2.p) 1
  case pla => exact hR.charge (hR.pull_value hs ▸ hR.setZN (hR.setA (hR.pull hs) r.2.pull.1) r.2.pull.1) 2
  case plp => exact hR.charge (hR.pull_value hs ▸ hR.setP (hR.pull hs) (r.2.pull.1 ||| 0x20)) 2
  case rts =>
    have hpull := hR.pull hs
    have hlow := hR.pull_value hs
    have hhigh := hR.pull_value hpull
    rw [hlow, hhigh]
    exact hR.charge (hR.setPc (hR.pull hpull) _) 4
  case nop => exact hs

end

/-! ## Updates that no resolver notices -/

/-- An update that commutes with what a resolver does, and whose result is always related, gives the executor the same operand. -/
theorem sameOperand_of_commutes {R : State → State → Prop} {F : State → State} (hF : BusCommutes F) (hRF : ∀ s, R s (F s))
    (m : Mode) (lo hi : Byte) (s : State) : SameOperand R (resolve m lo hi s) (resolve m lo hi (F s)) := by
  rw [resolve_commutes hF]
  refine ⟨hRF _, rfl, fun v u hv => ⟨F u, ?value, hRF u⟩⟩
  case value => rw [operandValue_commutes hF, hv, Option.map_some]

/-- Such an update leaves a descriptor's meaning alone, up to the relation. -/
theorem runDescriptor_simulates {R : State → State → Prop} (hR : Simulates R) {F : State → State} (hF : BusCommutes F)
    (hRF : ∀ s, R s (F s)) {d : Descriptor} (hphp : d.mnemonic = .php → ∀ s, (F s).p = s.p) {lo hi : Byte} {s t : State}
    (h : runDescriptor d lo hi s = .next t) : ∃ u, runDescriptor d lo hi (F s) = .next u ∧ R t u := by
  refine execute_simulates hR (sameOperand_of_commutes hF hRF d.mode lo hi s) (fun hm => ?php) h
  case php =>
    rw [resolve_commutes hF]
    exact hphp hm _

theorem exec_simulates {R : State → State → Prop} (hR : Simulates R) {F : State → State} (hF : BusCommutes F)
    (hRF : ∀ s, R s (F s)) {i : Instr} (hphp : i.mnemonic = .php → ∀ s, (F s).p = s.p) (s : State) :
    ∃ t u, exec i s = .next t ∧ exec i (F s) = .next u ∧ R t u := by
  obtain ⟨t, ht⟩ := everyInstructionCompletes i s
  obtain ⟨u, hu, htu⟩ := runDescriptor_simulates hR hF hRF hphp ((exec_eq_runDescriptor i s).symm.trans ht)
  exact ⟨t, u, ht, (exec_eq_runDescriptor i (F s)).trans hu, htu⟩

/-! ## The flags I, D and B (R31) -/

/-- The two states are the same but for one flag. -/
def SameButFlag (f : Flag) (s t : State) : Prop :=
  ∃ p, t = s.setP p ∧ (∀ g ≠ f, getFlag p g = getFlag s.p g) ∧ p.getLsbD 5 = s.p.getLsbD 5

/-- Writing one flag or the whole status to both states leaves them the same but for the flag. -/
theorem SameButFlag.setFlag {f : Flag} {s t : State} (h : SameButFlag f s t) (g : Flag) (b : Bool) :
    SameButFlag f (s.setFlag g b) (t.setFlag g b) := by
  obtain ⟨p, rfl, hflags, hbit⟩ := h
  refine ⟨Sys2Proof.Machine.setFlag p g b, rfl, fun g' hg' => ?_, ?_⟩
  · rw [State.setFlag_p, getFlag_setFlag, getFlag_setFlag, hflags g' hg']
  · rw [State.setFlag_p, setFlag_bit5, setFlag_bit5, hbit]

theorem simulates_sameButFlag {f : Flag} (hf : f ∈ [Flag.i, .d, .b]) : Simulates (SameButFlag f) where
  sbcV := fun ⟨_, h, _⟩ => h ▸ rfl
  a := fun ⟨_, h, _⟩ => h ▸ rfl
  x := fun ⟨_, h, _⟩ => h ▸ rfl
  y := fun ⟨_, h, _⟩ => h ▸ rfl
  pc := fun ⟨_, h, _⟩ => h ▸ rfl
  sp := fun ⟨_, h, _⟩ => h ▸ rfl
  flag := fun ⟨_, h, hflags, _⟩ g hg => h ▸ hflags g fun hgf => hg (hgf ▸ hf)
  byte := fun ⟨_, h, _⟩ _ => h ▸ rfl
  read := fun ⟨p, h, hp⟩ _ => ⟨p, h ▸ rfl, hp⟩
  write := fun ⟨p, h, hp⟩ _ _ => ⟨p, h ▸ rfl, hp⟩
  setA := fun ⟨p, h, hp⟩ _ => ⟨p, h ▸ rfl, hp⟩
  setX := fun ⟨p, h, hp⟩ _ => ⟨p, h ▸ rfl, hp⟩
  setY := fun ⟨p, h, hp⟩ _ => ⟨p, h ▸ rfl, hp⟩
  setSp := fun ⟨p, h, hp⟩ _ => ⟨p, h ▸ rfl, hp⟩
  setPc := fun ⟨p, h, hp⟩ _ => ⟨p, h ▸ rfl, hp⟩
  setP := fun ⟨_, h, _⟩ v => ⟨v, h ▸ rfl, fun _ _ => rfl, rfl⟩
  setFlag := SameButFlag.setFlag
  charge := fun ⟨p, h, hp⟩ _ => ⟨p, h ▸ rfl, hp⟩

theorem sameButFlag_setFlag (f : Flag) (b : Bool) (s : State) : SameButFlag f s (s.setFlag f b) :=
  ⟨_, rfl, fun g hg => (getFlag_setFlag s.p f g b).trans (if_neg hg), setFlag_bit5 s.p f b⟩

/-- Settles O57: forcing one of the three flags is an update no resolver notices, and every executor but PHP's leaves the states
the same but for that flag. -/
theorem unreadFlagsHaveNoInfluence : Obligations.UnreadFlagsHaveNoInfluence := by
  intro i s f b hf hphp
  have hmnemonic : i.mnemonic ≠ .php := by
    intro hm
    cases i <;> simp_all [Instr.mnemonic]
  obtain ⟨t, u, ht, hu, p, rfl, hflags, hbit⟩ := exec_simulates (simulates_sameButFlag hf) (busCommutes_setFlag f b)
    (sameButFlag_setFlag f b) (fun hm => absurd hm hmnemonic) (i := i) s
  exact ⟨t, _, ht, hu, rfl, hflags, hbit⟩

/-! ## Decimal mode (R156) -/

/-- Two status bytes with the same flags and the same bit 5 are one. -/
theorem status_ext {p q : Byte} (hflags : ∀ f, getFlag p f = getFlag q f) (hbit : p.getLsbD 5 = q.getLsbD 5) : p = q := by
  simp only [getFlag_eq] at hflags
  apply BitVec.eq_of_getLsbD_eq
  intro k hk
  match k, hk with
  | 0, _ => exact hflags .c
  | 1, _ => exact hflags .z
  | 2, _ => exact hflags .i
  | 3, _ => exact hflags .d
  | 4, _ => exact hflags .b
  | 5, _ => exact hbit
  | 6, _ => exact hflags .v
  | 7, _ => exact hflags .n

/-- An instruction that does not write D leaves it as it is. -/
theorem decimal_kept {i : Instr} (hi : i.mnemonic ∈ [.adc, .sbc]) {s t : State} (h : exec i s = .next t) :
    t.flag .d = s.flag .d := by
  by_contra hne
  have hm := mem_writtenBy_of_changed (l := .flag .d) h (by decide) hne
  revert hi hm
  cases i.mnemonic <;> decide

/-- Settles O41: forcing D changes nothing but D (O57), which ADC and SBC leave as forced; SED and CLD are O42's. -/
theorem decimalModeIsIgnored : Obligations.DecimalModeIsIgnored := by
  refine ⟨fun i s d hi => ?arith, fun s => ⟨?sed, ?cld⟩⟩
  case arith =>
    have hphp : i ≠ .php := by
      rintro rfl
      exact absurd hi (by decide)
    obtain ⟨t, u, ht, hu, heq, hflags, hbit⟩ := unreadFlagsHaveNoInfluence i s .d d (by decide) hphp
    have hd : u.flag .d = d := (decimal_kept hi hu).trans ((State.setFlag_flag s .d .d d).trans (if_pos rfl))
    have hp : u.p = Sys2Proof.Machine.setFlag t.p .d d := by
      refine status_ext (fun f => ?_) (hbit.trans (setFlag_bit5 t.p .d d).symm)
      rw [getFlag_setFlag]
      split
      · rename_i hf
        exact hf ▸ hd
      · exact hflags f ‹_›
    refine ⟨t, ht, hu.trans (congrArg _ ?_)⟩
    rw [heq, hp]
    rfl
  case sed =>
    obtain ⟨t, ht, hvalue, -, -, hframe⟩ := flagInstructionsWriteOneFlag (.sed, .d, true) (by decide) s
    exact ⟨t, ht, hvalue, hframe⟩
  case cld =>
    obtain ⟨t, ht, hvalue, -, -, hframe⟩ := flagInstructionsWriteOneFlag (.cld, .d, false) (by decide) s
    exact ⟨t, ht, hvalue, hframe⟩

end Sys2Proof.Machine
end

section
/-! PROOFS. Noninterference of the cycle count (60_exceptions.md R231) and of the debug flag (30_encoding.md R80), and the two choices
of `P_EA_READ` (41_addressing_modes.md R111). -/

namespace Sys2Proof.Machine

/-! ## What no executor reads: the cycle count and the debug flag -/

/-- The same state with another debug flag and another cycle count, which no executor reads. -/
def State.relabel (g : Bool → Bool) (n : Nat) (s : State) : State := { s with debug := g s.debug, cycles := s.cycles + n }

theorem busCommutes_relabel (g : Bool → Bool) (n : Nat) : BusCommutes (State.relabel g n) where
  params := fun _ => rfl
  x := fun _ => rfl
  y := fun _ => rfl
  pc := fun _ => rfl
  history := fun _ => rfl
  read := fun _ _ => rfl
  charge := fun s k => by simp [State.relabel, State.charge, Nat.add_right_comm]

theorem simulates_relabel (g : Bool → Bool) (n : Nat) : Simulates fun s t => t = s.relabel g n where
  sbcV := fun h => h ▸ rfl
  a := fun h => h ▸ rfl
  x := fun h => h ▸ rfl
  y := fun h => h ▸ rfl
  pc := fun h => h ▸ rfl
  sp := fun h => h ▸ rfl
  flag := fun h _ _ => h ▸ rfl
  byte := fun h _ => h ▸ rfl
  read := fun h _ => h ▸ rfl
  write := fun h _ _ => h ▸ rfl
  setA := fun h _ => h ▸ rfl
  setX := fun h _ => h ▸ rfl
  setY := fun h _ => h ▸ rfl
  setSp := fun h _ => h ▸ rfl
  setPc := fun h _ => h ▸ rfl
  setP := fun h _ => h ▸ rfl
  setFlag := fun h _ _ => h ▸ rfl
  charge := fun {s _} h k => h ▸ (busCommutes_relabel g n).charge s k

/-- A descriptor's meaning does the same whatever the debug flag and the cycle count, and leaves the one and adds to the other. -/
theorem runDescriptor_relabel {d : Descriptor} {lo hi : Byte} {s t : State} (h : runDescriptor d lo hi s = .next t)
    (g : Bool → Bool) (n : Nat) : runDescriptor d lo hi (s.relabel g n) = .next (t.relabel g n) := by
  obtain ⟨u, hu, rfl⟩ := runDescriptor_simulates (simulates_relabel g n) (busCommutes_relabel g n) (fun _ => rfl)
    (fun _ _ => rfl) h
  exact hu

/-! ## The cycle count (R231) -/

/-- What an instruction does after a charge is what it does before it. -/
theorem exec_charge {i : Instr} {s t : State} (h : exec i s = .next t) (n : Nat) : exec i (s.charge n) = .next (t.charge n) := by
  rw [exec_eq_runDescriptor] at h ⊢
  exact runDescriptor_relabel h id n

/-- Settles O58: both counts are charges on a count of zero (`exec_charge`). -/
theorem cycleCountHasNoInfluence : Obligations.CycleCountHasNoInfluence := by
  intro i s n
  let zero : State := { s with cycles := 0 }
  obtain ⟨t, ht⟩ := everyInstructionCompletes i zero
  have hcount : ∀ k : Nat, exec i { s with cycles := k } = .next (t.charge k) := by
    intro k
    have hk : ({ s with cycles := k } : State) = zero.charge k := by simp [zero, State.charge]
    rw [hk]
    exact exec_charge ht k
  refine ⟨t.charge s.cycles, hcount s.cycles, Nat.le_add_left _ _, (hcount n).trans ?_⟩
  simp [State.charge, Nat.add_comm]

/-! ## The debug flag (R80) -/

theorem runDescriptor_setDebug {d : Descriptor} {lo hi : Byte} {s t : State} (h : runDescriptor d lo hi s = .next t) (b : Bool) :
    runDescriptor d lo hi (s.setDebug b) = .next (t.setDebug b) :=
  runDescriptor_relabel h (fun _ => b) 0

theorem runDecoded_setDebug {d : Descriptor} {lo hi : Byte} {s t : State} (h : runDecoded d lo hi s = .next t) (b : Bool) :
    runDecoded d lo hi (s.setDebug b) = .next (t.setDebug b) := by
  unfold runDecoded at h ⊢
  cases hassemble : assemble d lo hi <;> rw [hassemble] at h
  case some i => exact (exec_eq_runDescriptor i _).trans (runDescriptor_setDebug ((exec_eq_runDescriptor i s).symm.trans h) b)
  case none => exact runDescriptor_setDebug h b

theorem fetchOperands_setDebug (n : Nat) (s : State) (b : Bool) :
    fetchOperands n (s.setDebug b) =
      ⟨(fetchOperands n s).lo, (fetchOperands n s).hi, (fetchOperands n s).st.setDebug b⟩ := by
  match n with
  | 0 => rfl
  | 1 => rfl
  | _ + 2 => rfl

/-- A step with another debug flag differs from it in the flag and the trace line only. -/
theorem step_setDebug {s t : State} (h : step s = .next t) (b : Bool) :
    ∃ line, step (s.setDebug b) = .next { t with debug := b, trace := line } := by
  obtain ⟨hs, d, o, u, hlookup, rfl, hrun, rfl⟩ := step_eq_next h
  have hfetch : (s.setDebug b).beginStep.fetch8.2 = s.beginStep.fetch8.2.setDebug b := rfl
  have hstep := step_of_lookup_eq_some (s := s.setDebug b) hs hlookup
  rw [hfetch, runFetched, fetchOperands_setDebug] at hstep
  dsimp only at hstep
  rw [runDecoded_setDebug hrun, finishStep_next] at hstep
  exact ⟨_, hstep⟩

/-- R80, R97: a step produces a line when the debug flag is on, and none when it is off. -/
theorem step_trace {s t : State} (h : step s = .next t) : ∃ line, t.trace = if s.debug then some line else none := by
  obtain ⟨-, d, o, u, -, rfl, hrun, rfl⟩ := step_eq_next h
  rw [fetchOperands_afterFetch] at hrun
  have hdebug : u.debug = (s.afterFetch d.mode.operandBytes).debug := Maintains.debug (runDecoded_maintains hrun)
  exact ⟨_, by rw [hdebug]; rfl⟩

/-- Settles O59: the line is set at the end of a step, by the flag alone, and the flag is read nowhere else (`step_setDebug`). -/
theorem debugOnlyAddsTheTraceLine : Obligations.DebugOnlyAddsTheTraceLine := by
  intro s t h
  obtain ⟨line, htrace⟩ := step_trace h
  refine ⟨fun hoff => htrace.trans (by rw [hoff]; rfl), fun hon => ⟨line, htrace.trans (by rw [hon]; rfl)⟩, fun b => ?other⟩
  case other =>
    obtain ⟨line, hline⟩ := step_setDebug h b
    exact ⟨_, hline, rfl⟩

/-! ## The two choices of `P_EA_READ` (R111) -/

/-- The same state with other traffic behind it, and `P_EA_READ = on_use`. -/
def State.withTraffic (s : State) (log past : List BusAccess) : State :=
  { s with busLog := log, history := past, params := { s.params with eaRead := .onUse } }

/-- On a bus without devices the second state is the first but for the traffic, and `P_EA_READ` is `on_use` there. -/
def SameButTraffic (s t : State) : Prop := noDevice s ∧ ∃ log past, t = s.withTraffic log past

theorem SameButTraffic.busByte {s t : State} (h : SameButTraffic s t) (addr : Word) : t.busByte addr = s.busByte addr := by
  obtain ⟨hdevice, log, past, rfl⟩ := h
  exact State.busByteAfter_of_noDevice hdevice past s.history addr

theorem simulates_sameButTraffic : Simulates SameButTraffic where
  sbcV := fun ⟨_, _, _, h⟩ => h ▸ rfl
  a := fun ⟨_, _, _, h⟩ => h ▸ rfl
  x := fun ⟨_, _, _, h⟩ => h ▸ rfl
  y := fun ⟨_, _, _, h⟩ => h ▸ rfl
  pc := fun ⟨_, _, _, h⟩ => h ▸ rfl
  sp := fun ⟨_, _, _, h⟩ => h ▸ rfl
  flag := fun ⟨_, _, _, h⟩ _ _ => h ▸ rfl
  byte := SameButTraffic.busByte
  read := fun ⟨hn, _, _, h⟩ addr => ⟨hn, _, _, congrArg (·.afterReads [addr]) h⟩
  write := fun ⟨hn, _, _, h⟩ addr v => ⟨hn, _, _, congrArg (·.busWrite addr v) h⟩
  setA := fun ⟨hn, _, _, h⟩ v => ⟨hn, _, _, congrArg (·.setA v) h⟩
  setX := fun ⟨hn, _, _, h⟩ v => ⟨hn, _, _, congrArg (·.setX v) h⟩
  setY := fun ⟨hn, _, _, h⟩ v => ⟨hn, _, _, congrArg (·.setY v) h⟩
  setSp := fun ⟨hn, _, _, h⟩ v => ⟨hn, _, _, congrArg (·.setSp v) h⟩
  setPc := fun ⟨hn, _, _, h⟩ v => ⟨hn, _, _, congrArg (·.setPc v) h⟩
  setP := fun ⟨hn, _, _, h⟩ v => ⟨hn, _, _, congrArg (·.setP v) h⟩
  setFlag := fun ⟨hn, _, _, h⟩ f b => ⟨hn, _, _, congrArg (·.setFlag f b) h⟩
  charge := fun ⟨hn, _, _, h⟩ n => ⟨hn, _, _, congrArg (·.charge n) h⟩

/-- Whether the resolver latches the byte or the executor reads it, the executor has one operand. -/
theorem sameOperand_latchMemory {s t : State} (h : SameButTraffic s t) (halways : s.params.eaRead = .always) (ea : Word)
    (crossed : Bool) (cost : Nat) :
    SameOperand SameButTraffic (latchMemory ea crossed cost s) (latchMemory ea crossed cost t) := by
  have honUse : t.params.eaRead = .onUse := by
    obtain ⟨-, _, _, rfl⟩ := h
    rfl
  have hread := simulates_sameButTraffic.read h ea
  refine ⟨?state, ?ea, fun v u hv => ?value⟩
  case state =>
    rw [latchMemory_eq, latchMemory_eq, halways, honUse]
    obtain ⟨hdevice, log, past, rfl⟩ := h
    exact ⟨hdevice, log, past, rfl⟩
  case ea => rw [latchMemory_ea, latchMemory_ea]
  case value =>
    rw [operandValue_latchMemory] at hv ⊢
    obtain ⟨rfl, rfl⟩ := Prod.mk.inj (Option.some.inj hv)
    exact ⟨_, by rw [h.busByte ea], simulates_sameButTraffic.charge hread cost⟩

/-- One decoded operand in related states gives the executor the same. -/
theorem Simulates.sameOperand {R : State → State → Prop} (hR : Simulates R) {s t : State} (h : R s t) (o : Opnd) :
    SameOperand R (o, s) (o, t) := by
  refine ⟨h, rfl, fun v u hv => ?value⟩
  case value =>
    obtain ⟨value, ea, crossed⟩ := o
    cases value <;> cases ea <;> simp only [operandValue, State.busRead_eq, Option.some.injEq, Prod.mk.injEq, reduceCtorEq] at hv ⊢
    case none.some ea =>
      obtain ⟨rfl, rfl⟩ := hv
      exact ⟨_, ⟨hR.byte h ea, rfl⟩, hR.read h ea⟩
    all_goals
      obtain ⟨rfl, rfl⟩ := hv
      exact ⟨_, ⟨rfl, rfl⟩, h⟩

/-- A resolver that starts from the same history gives the executor the same operand under both choices. -/
theorem sameOperand_resolve {s t : State} (h : SameButTraffic s t) (halways : s.params.eaRead = .always)
    (hhistory : t.history = s.history) (m : Mode) (lo hi : Byte) :
    SameOperand SameButTraffic (resolve m lo hi s) (resolve m lo hi t) := by
  have hR := simulates_sameButTraffic
  have hx := hR.x h
  have hy := hR.y h
  have hlatch := sameOperand_latchMemory h halways
  cases m
  case implied => exact hR.sameOperand (hR.charge h 2) _
  case immediate => exact hR.sameOperand (hR.charge h 2) _
  case relative =>
    simp only [resolve, resolveRelative, hR.pc h]
    exact hR.sameOperand (hR.charge h 2) _
  case zeropage => exact hlatch ..
  case absolute => exact hlatch ..
  case zeropageX =>
    simp only [resolve, resolveZeropageX, hx]
    exact hlatch ..
  case absoluteX =>
    simp only [resolve, resolveAbsoluteX, resolveAbsoluteIndexed, hx]
    exact hlatch ..
  case absoluteY =>
    simp only [resolve, resolveAbsoluteY, resolveAbsoluteIndexed, hy]
    exact hlatch ..
  case indirectX =>
    have hhigh : t.indxHighByte = s.indxHighByte := by
      obtain ⟨-, log, past, rfl⟩ := h
      rw [State.indxHighByte, State.indxHighByte, hhistory]
      rfl
    simp only [resolve, resolveIndirectX, hx, hhigh, State.busRead_eq, hR.byte h]
    exact sameOperand_latchMemory (hR.read h _) halways ..
  case indirectY =>
    have hptr : t.params.indyPtr = s.params.indyPtr := by
      obtain ⟨-, log, past, rfl⟩ := h
      rfl
    simp only [resolve, resolveIndirectY, indirectYBase_eq, hptr, hy]
    cases s.params.indyPtr
    case one =>
      simp only [hR.byte h]
      exact sameOperand_latchMemory (hR.read h _) halways ..
    case two =>
      have hfirst := hR.read h (zext16 lo)
      have hsecond := hR.read hfirst (zext16 (lo + 1))
      rw [State.afterReads_append, State.afterReads_append] at hsecond
      simp only [hR.byte h, hR.byte hfirst]
      exact sameOperand_latchMemory hsecond halways ..

/-- Settles O24: the two starting states are related, so are the operands (`sameOperand_resolve`) and so are the states that the
executor leaves (`execute_simulates`). -/
theorem eaReadChoiceMovesOnlyTraffic : Obligations.EaReadChoiceMovesOnlyTraffic := by
  intro i s hdevice
  let always : State := { s with params := { s.params with eaRead := .always } }
  let onUse : State := { s with params := { s.params with eaRead := .onUse } }
  have hstart : SameButTraffic always onUse := ⟨hdevice, s.busLog, s.history, rfl⟩
  have hoperand := sameOperand_resolve hstart rfl rfl i.mode i.lo i.hi
  have hp : (resolve i.mode i.lo i.hi onUse).2.p = (resolve i.mode i.lo i.hi always).2.p := by
    obtain ⟨-, log, past, heq⟩ := hoperand.state
    rw [heq]
    rfl
  obtain ⟨t, ht⟩ := everyInstructionCompletes i always
  obtain ⟨u, hu, -, log, past, rfl⟩ := execute_simulates simulates_sameButTraffic hoperand (fun _ => hp)
    ((instructionIsResolverThenExecutor i always).symm.trans ht)
  exact ⟨t, _, ht, (instructionIsResolverThenExecutor i onUse).trans hu, rfl⟩

end Sys2Proof.Machine
end

section
/-! PROOFS. The bus traffic of a step, in order (20_memory.md R62): the fetches, the pointer reads, the read at the effective address,
and the executor's own accesses. -/

namespace Sys2Proof.Machine

/-! ## Traffic -/

/-- From `s` to `t` the bus has done these transactions, in order, and nothing else. -/
def Traffic (accesses : List BusAccess) (s t : State) : Prop :=
  t.busLog = s.busLog ++ accesses ∧ t.history = accesses.reverse ++ s.history

theorem Traffic.trans {l l' : List BusAccess} {s t u : State} (h : Traffic l s t) (h' : Traffic l' t u) :
    Traffic (l ++ l') s u := by
  obtain ⟨hlog, hhistory⟩ := h
  obtain ⟨hlog', hhistory'⟩ := h'
  exact ⟨by rw [hlog', hlog, List.append_assoc], by rw [hhistory', hhistory, List.reverse_append, List.append_assoc]⟩

theorem traffic_afterReads_charge (s : State) (reads : List Word) (n : Nat) :
    Traffic (s.reads reads) s ((s.afterReads reads).charge n) := ⟨rfl, rfl⟩

/-! ## Before the executor -/

/-- Where the executor of an instruction begins: past the pointer reads and the read at the effective address, the latter made by
the resolver or, for a user of the value, by the executor's first action. -/
theorem executor_start (i : Instr) (s : State) :
    ∃ n, let u := (s.afterReads (pointerAddrs i s ++ operandAddrs i s)).charge n
      (i.mnemonic.usesValue = true → ∃ v, operandValue (resolved i s) = some (v, u)) ∧
      (i.mnemonic.usesValue = false → (resolved i s).2 = u) := by
  cases hmem : isMemoryMode i.mode
  case true =>
    obtain ⟨ea, crossed, cost, h⟩ := resolved_memory hmem s
    have hea : eaOf i s = some ea := by rw [eaOf, h, latchMemory_ea]
    refine ⟨cost, fun huses => ⟨(s.afterReads (pointerAddrs i s)).busByte ea, ?latched⟩, fun huses => ?left⟩
    case latched =>
      rw [h, operandValue_latchMemory, State.afterReads_append]
      simp [operandAddrs, hmem, huses, hea]
    case left =>
      rw [h, latchMemory_state, State.afterReads_append]
      cases hread : s.params.eaRead <;> simp [operandAddrs, hmem, huses, hea, hread]
  case false =>
    have hpointers : pointerAddrs i s = [] := by
      unfold pointerAddrs
      cases hm : i.mode <;> simp_all [isMemoryMode]
    have hoperand : operandAddrs i s = [] := by simp [operandAddrs, hmem]
    rw [hpointers, hoperand]
    refine ⟨2, fun huses => ?value, fun _ => ?state⟩
    case value =>
      have himm : i.mode = .immediate := by
        by_contra hne
        simp [Instr.memoryMode_of_usesValue huses hne] at hmem
      refine ⟨i.lo, ?_⟩
      simp [resolved, himm, resolve, resolveImmediate, operandValue]
    case state =>
      unfold resolved
      cases hm : i.mode <;> simp [hm, isMemoryMode] at hmem <;>
        simp [resolve, resolveImplied, resolveImmediate, resolveRelative]

/-! ## The executor -/

/-- An executor's own bus accesses, from its mnemonic, its effective address and the state it begins in. -/
def ownAccesses (m : Mnemonic) (ea : Option Word) (u : State) : List BusAccess :=
  match m with
  | .sta => ea.toList.map fun ea => .write ea u.a
  | .stx => ea.toList.map fun ea => .write ea u.x
  | .sty => ea.toList.map fun ea => .write ea u.y
  | .pha => [.write (stackAddr u.sp) u.a]
  | .php => [.write (stackAddr u.sp) u.p]
  | .jsr => [.write (stackAddr u.sp) (highByte (u.pc - 1)), .write (stackAddr (u.sp - 1)) (lowByte (u.pc - 1))]
  | .pla | .plp => u.reads [stackAddr (u.sp + 1)]
  | .rts => u.reads [stackAddr (u.sp + 1), stackAddr (u.sp + 2)]
  | _ => []

theorem executorAccesses_eq (i : Instr) (s : State) (before : List Word) (n : Nat) :
    executorAccesses i s before = ownAccesses i.mnemonic (eaOf i s) ((s.afterReads before).charge n) := by
  unfold executorAccesses
  cases i.mnemonic <;> rfl

theorem traffic_refl (s : State) : Traffic [] s s := ⟨(List.append_nil _).symm, rfl⟩

/-- An executor over the value makes no access of its own once it has the value. -/
theorem execute_traffic_of_usesValue {m : Mnemonic} (hm : m.usesValue = true) {r : Resolved} {v : Byte} {u t : State}
    (hv : operandValue r = some (v, u)) (h : execute m r = .next t) : Traffic [] u t := by
  cases m
  case lda | ldx | ldy | and | adc | sbc =>
    obtain rfl := Host.Outcome.next.inj ((withValue_some hv _).symm.trans h)
    exact traffic_refl u
  all_goals cases hm

/-- Two pulls read the two slots above `SP` in order. -/
theorem traffic_pull_pull (u : State) : Traffic (u.reads [stackAddr (u.sp + 1), stackAddr (u.sp + 2)]) u u.pull.2.pull.2 := by
  have hfirst : Traffic (u.reads [stackAddr (u.sp + 1)]) u u.pull.2 := ⟨rfl, rfl⟩
  have hsecond : Traffic ((u.afterReads [stackAddr (u.sp + 1)]).reads [stackAddr (u.sp + 1 + 1)]) u.pull.2 u.pull.2.pull.2 :=
    ⟨rfl, rfl⟩
  have hslot : u.sp + 1 + 1 = u.sp + 2 := BitVec.add_assoc u.sp 1 1
  have h := hfirst.trans hsecond
  rw [← State.reads_append, hslot] at h
  exact h

/-- Every other executor makes its own accesses from the state the resolver leaves. -/
theorem execute_traffic {m : Mnemonic} (hm : m.usesValue = false) {r : Resolved} {t : State} (h : execute m r = .next t) :
    Traffic (ownAccesses m r.1.ea r.2) r.2 t := by
  cases m
  case lda | ldx | ldy | and | adc | sbc => cases hm
  case bpl | bmi | bvc | bvs | bcc | bcs | bne | beq =>
    dsimp only [execute, executeBpl, executeBmi, executeBvc, executeBvs, executeBcc, executeBcs, executeBne, executeBeq] at h
    obtain ⟨ea, -, h⟩ := withEa_next h
    obtain rfl := Host.Outcome.next.inj h
    split <;> exact traffic_refl r.2
  case sta | stx | sty =>
    dsimp only [execute, executeSta, executeStx, executeSty] at h
    obtain ⟨ea, hea, h⟩ := withEa_next h
    obtain rfl := Host.Outcome.next.inj h
    rw [hea]
    exact ⟨rfl, rfl⟩
  case jmp =>
    obtain ⟨ea, -, h⟩ := withEa_next (show executeJmp r = .next t from h)
    obtain rfl := Host.Outcome.next.inj h
    exact traffic_refl r.2
  case jsr =>
    obtain ⟨ea, -, h⟩ := withEa_next (show executeJsr r = .next t from h)
    obtain rfl := Host.Outcome.next.inj h
    exact ⟨List.append_assoc .., rfl⟩
  all_goals obtain rfl := Host.Outcome.next.inj h
  case rts => exact traffic_pull_pull r.2
  case pha | php | pla | plp => exact ⟨rfl, rfl⟩
  all_goals exact traffic_refl r.2

/-- The traffic of an instruction: the reads before its executor, then the executor's own accesses. -/
theorem exec_traffic {i : Instr} {s t : State} (h : exec i s = .next t) : Traffic (instrAccesses i s) s t := by
  obtain ⟨n, hvalue, hstate⟩ := executor_start i s
  have hexecute : execute i.mnemonic (resolved i s) = .next t := (instructionIsResolverThenExecutor i s).symm.trans h
  refine (traffic_afterReads_charge s (pointerAddrs i s ++ operandAddrs i s) n).trans ?_
  cases huses : i.mnemonic.usesValue
  case true =>
    obtain ⟨v, hv⟩ := hvalue huses
    have hown : executorAccesses i s (pointerAddrs i s ++ operandAddrs i s) = [] := by
      revert huses
      unfold executorAccesses
      cases i.mnemonic <;> simp [Mnemonic.usesValue]
    rw [hown]
    exact execute_traffic_of_usesValue huses hv hexecute
  case false =>
    have hown := execute_traffic huses hexecute
    rw [hstate huses] at hown
    rw [executorAccesses_eq i s _ n]
    exact hown

/-- Settles O23: the step is the instruction's meaning past the fetches (O7), whose accesses are `exec_traffic`'s; the log was
cleared when the step began, so that all of it has joined the history. -/
theorem busAccessOrder : Obligations.BusAccessOrder := by
  intro s t i rest hs hdecode hstep
  obtain ⟨u, hexec, hstep'⟩ := stepRunsDecodedInstruction s i rest hs hdecode
  obtain rfl := Host.Outcome.next.inj (hstep'.symm.trans hstep)
  obtain ⟨hlog, hhistory⟩ := exec_traffic hexec
  have hfetch : (s.afterFetch i.mode.operandBytes).history = (s.afterFetch i.mode.operandBytes).busLog.reverse ++ s.history := rfl
  refine ⟨hlog, ?history⟩
  case history =>
    show u.history = u.busLog.reverse ++ s.history
    rw [hhistory, hfetch, hlog, List.reverse_append, List.append_assoc]

end Sys2Proof.Machine
end
